-- ==== Sys2Proof/Word.lean ====
section
/-! DEFINITION. The word types of the block: framebuffer bytes, command and response words, ticks, grids of bits. -/

namespace Sys2Proof

/-- One framebuffer byte (10_state.md R20). -/
abbrev Byte := BitVec 8

/-- One host command word (30_encoding.md R50). -/
abbrev CommandWord := BitVec 64

/-- One response word (30_encoding.md R52). -/
abbrev ResponseWord := BitVec 64

/-- A tick value. Its width `TICK_BITS` is a parameter of the configuration, so it is a natural number
and every operation that makes one reduces it modulo `2 ^ TICK_BITS` (00_scope.md R11). -/
abbrev Tick := Nat

/-- A grid of bits, a list of rows (42_life_engine.md R90, 00_scope.md R15). -/
abbrev Grid := List (List Bool)

end Sys2Proof
end

