-- ==== Sys2Proof/Config.lean ====
section
/-! DEFINITION. The configuration record CFG (70_reset_and_hazards.md R175) and the free values of the model. -/

namespace Sys2Proof

/-- A region of the registry (41_region_registry.md R80). The name is documentation (R82). -/
structure Region where
  name : String
  x : Nat
  y : Nat
  w : Nat
  h : Nat
  deriving DecidableEq, Repr, Inhabited

/-- A slot descriptor: the kind byte and the record fields (30_encoding.md R54). A kind that has no such
field leaves it at zero. -/
structure SlotDesc where
  kind : Byte
  region : Nat := 0
  seed : List Nat := []
  shift : Int := 0
  period : Nat := 0
  deriving DecidableEq, Repr, Inhabited

/-- The configuration record, with exactly the fields of 70_reset_and_hazards.md R175. -/
structure Config where
  /-- `W` -/
  width : Nat
  /-- `H` -/
  height : Nat
  /-- `TICK_BITS` -/
  tickBits : Nat
  /-- `TPS` -/
  tps : Nat
  /-- `U_BITS` -/
  uBits : Nat
  /-- `RELAX_RUN_TIME` -/
  relaxRunTime : Nat
  /-- `FAST_RUN_TIME` -/
  fastRunTime : Nat
  /-- `FAST_CHANCE_N` -/
  fastChanceN : Nat
  /-- `SLOW_DELAYS` -/
  slowDelays : List Nat
  /-- `FAST_DELAYS` -/
  fastDelays : List Nat
  /-- `REGION[0 .. NREG-1]` -/
  regions : List Region
  /-- `SEQ[0 .. NSLOT-1]` -/
  seq : List SlotDesc
  deriving DecidableEq, Repr, Inhabited

/-! Free values. Each is applied to the counter `turn` of the state, so that every step meets a fresh one.
They have no body: no proof can see what they are (notes/assumptions/4.md and 5.md). -/

/-- The tick of a sequencer step for which the environment supplied none (93_implementation_defined.md U20). -/
opaque Config.freeTick : Nat → Nat

/-- `draw.u` of a step for which the environment supplied none (U21). -/
opaque Config.freeUniform : Nat → Nat

/-- `draw.u32` of a step for which the environment supplied none (U22). -/
opaque Config.freeU32 : Nat → BitVec 32

/-- The choice behind `draw.reset_delay` where the environment supplied none (U23). -/
opaque Config.freeDelay : Nat → Nat

/-- The choice behind `draw.idx` where the environment supplied none (U24). -/
opaque Config.freeIndex : Nat → Nat

/-- `draw.cells[r][c]` where the environment supplied none (U25). -/
opaque Config.freeCell : Nat → Nat → Nat → Bool

/-- `draw.coin[r][c]` where the environment supplied none (U25). -/
opaque Config.freeCoin : Nat → Nat → Nat → Bool

/-- `draw.val[r][c]` where the environment supplied none (U25). -/
opaque Config.freeVal : Nat → Nat → Nat → Bool

/-- Whether the host goes first at a step where both a host step and a sequencer step are enabled and the
schedule says nothing (U17). -/
opaque Config.freeHostFirst : Nat → Bool

end Sys2Proof
end

