-- ==== Sys2Proof/Syntax.lean ====
section
/-! DEFINITION. The instructions: eight host commands and seven slot operations (30_encoding.md R53, R54), and the
pseudo-instructions of R58. -/

namespace Sys2Proof

/-- One constructor per row of spec/opcode_table.json. Operands of a host command are the fields of its word
(30_encoding.md R51); operands of a slot operation are the record fields of its descriptor (R54). -/
inductive Instr where
  /-- `NOP` (45_scheduler_and_control.md R148) -/
  | nop
  /-- `SETPIXEL x, y, bit` (40_framebuffer.md R64) -/
  | setpixel (x y : BitVec 8) (bit : Bool)
  /-- `GETPIXEL x, y` (40_framebuffer.md R65) -/
  | getpixel (x y : BitVec 8)
  /-- `SHIFTREGION x, y, w, h, shift, wrap` (40_framebuffer.md R69) -/
  | shiftregion (x y w h : BitVec 8) (shift : BitVec 16) (wrap : Bool)
  /-- `REGIONOF id` (41_region_registry.md R83) -/
  | regionof (id : BitVec 8)
  /-- `RUN` (45_scheduler_and_control.md R149) -/
  | run
  /-- `HALT` (45_scheduler_and_control.md R150) -/
  | halt
  /-- `RDSTATUS` (45_scheduler_and_control.md R151) -/
  | rdstatus
  /-- `POLL.MODE` (44_mode_controller.md R131) -/
  | pollMode
  /-- `POLL.PATTERN region, seed, shift, period` (43_section_animators.md R114) -/
  | pollPattern (region : Nat) (seed : List Nat) (shift : Int) (period : Nat)
  /-- `POLL.CLOCK region, period` (43_section_animators.md R118) -/
  | pollClock (region period : Nat)
  /-- `POLL.DECAY region, period` (43_section_animators.md R120) -/
  | pollDecay (region period : Nat)
  /-- `POLL.LIFE region, period` (42_life_engine.md R103) -/
  | pollLife (region period : Nat)
  /-- `POLL.NOISE region` (43_section_animators.md R124) -/
  | pollNoise (region : Nat)
  /-- `PRESENT` (45_scheduler_and_control.md R147) -/
  | present
  deriving DecidableEq, Repr

/-- The host commands, format `C` (30_encoding.md R53). -/
def Instr.isHostCommand : Instr → Bool
  | .nop => true
  | .setpixel _ _ _ => true
  | .getpixel _ _ => true
  | .shiftregion _ _ _ _ _ _ => true
  | .regionof _ => true
  | .run => true
  | .halt => true
  | .rdstatus => true
  | .pollMode => false
  | .pollPattern _ _ _ _ => false
  | .pollClock _ _ => false
  | .pollDecay _ _ => false
  | .pollLife _ _ => false
  | .pollNoise _ => false
  | .present => false

/-- The five animator kinds, the only ones that may stand in slots `1 .. NANIM`
(45_scheduler_and_control.md R140). -/
def Instr.isAnimator : Instr → Bool
  | .nop => false
  | .setpixel _ _ _ => false
  | .getpixel _ _ => false
  | .shiftregion _ _ _ _ _ _ => false
  | .regionof _ => false
  | .run => false
  | .halt => false
  | .rdstatus => false
  | .pollMode => false
  | .pollPattern _ _ _ _ => true
  | .pollClock _ _ => true
  | .pollDecay _ _ => true
  | .pollLife _ _ => true
  | .pollNoise _ => true
  | .present => false

/-- Pseudo-instruction `CLRPIXEL x, y` (30_encoding.md R58). -/
def Instr.clrpixel (x y : BitVec 8) : Instr := .setpixel x y false

/-- Pseudo-instruction `ROTREGION x, y, w, h, shift` (30_encoding.md R58). -/
def Instr.rotregion (x y w h : BitVec 8) (shift : BitVec 16) : Instr := .shiftregion x y w h shift true

/-- Pseudo-instruction `CLRREGION x, y, w, h`: an unwrapped shift by the window's own width
(30_encoding.md R58). -/
def Instr.clrregion (x y w h : BitVec 8) : Instr := .shiftregion x y w h (w.setWidth 16) false

end Sys2Proof
end

