-- ==== Sys2Proof/Decode.lean ====
section
/-! DEFINITION. The decoder and, after it, the encoder (30_encoding.md R50 to R55). -/

namespace Sys2Proof

/-- Why an encoding is no instruction. The first two make a host command `IllegalCommand`
(30_encoding.md R55), the third makes a configuration ill-formed (R56). -/
inductive DecodeError where
  /-- An `op` value no row has (R55 case a). -/
  | unknownOpcode (op : Byte)
  /-- A known `op` with a bit set in a field the command does not use (R55 case b). -/
  | unusedBitSet (op : Byte)
  /-- A kind byte that is none of the seven (R56). -/
  | unknownSlotKind (kind : Byte)
  deriving DecidableEq, Repr

/-! ## Fields of a command word (R50, R51) -/

/-- `cmd.op = cmd[63:56]` -/
def fieldOp (c : CommandWord) : BitVec 8 := c.extractLsb' 56 8
/-- `cmd.a = cmd[55:48]` -/
def fieldA (c : CommandWord) : BitVec 8 := c.extractLsb' 48 8
/-- `cmd.x = cmd[47:40]` -/
def fieldX (c : CommandWord) : BitVec 8 := c.extractLsb' 40 8
/-- `cmd.y = cmd[39:32]` -/
def fieldY (c : CommandWord) : BitVec 8 := c.extractLsb' 32 8
/-- `cmd.w = cmd[31:24]` -/
def fieldW (c : CommandWord) : BitVec 8 := c.extractLsb' 24 8
/-- `cmd.h = cmd[23:16]` -/
def fieldH (c : CommandWord) : BitVec 8 := c.extractLsb' 16 8
/-- `cmd.s = cmd[15:0]` -/
def fieldS (c : CommandWord) : BitVec 16 := c.extractLsb' 0 16
/-- `bit = wrap = cmd[48]` -/
def fieldFlag (c : CommandWord) : Bool := c.getLsbD 48

/-! ## The opcode map (R53) -/

/-- A row of the opcode map. -/
structure CommandRow where
  mask : CommandWord
  pattern : CommandWord
  deriving DecidableEq, Repr

/-- "a word `c` is the named command when `c & mask == match`" (R53). -/
def CommandRow.selects (row : CommandRow) (c : CommandWord) : Bool := c &&& row.mask == row.pattern

/-- `NOP` -/
def rowNop : CommandRow := ⟨0xFFFFFFFFFFFFFFFF#64, 0x0000000000000000#64⟩
/-- `SETPIXEL` -/
def rowSetpixel : CommandRow := ⟨0xFFFE0000FFFFFFFF#64, 0x0100000000000000#64⟩
/-- `GETPIXEL` -/
def rowGetpixel : CommandRow := ⟨0xFFFF0000FFFFFFFF#64, 0x0200000000000000#64⟩
/-- `SHIFTREGION` -/
def rowShiftregion : CommandRow := ⟨0xFFFE000000000000#64, 0x0300000000000000#64⟩
/-- `REGIONOF` -/
def rowRegionof : CommandRow := ⟨0xFF00FFFFFFFFFFFF#64, 0x0400000000000000#64⟩
/-- `RUN` -/
def rowRun : CommandRow := ⟨0xFFFFFFFFFFFFFFFF#64, 0x1000000000000000#64⟩
/-- `HALT` -/
def rowHalt : CommandRow := ⟨0xFFFFFFFFFFFFFFFF#64, 0x1100000000000000#64⟩
/-- `RDSTATUS` -/
def rowRdstatus : CommandRow := ⟨0xFFFFFFFFFFFFFFFF#64, 0x1200000000000000#64⟩

/-- The eight rows of the opcode map (R53). -/
def commandRows : List CommandRow :=
  [rowNop, rowSetpixel, rowGetpixel, rowShiftregion, rowRegionof, rowRun, rowHalt, rowRdstatus]

/-- The `op` values that some row has (R53). -/
def opcodeAssigned (op : Byte) : Bool := commandRows.any fun row => fieldOp row.pattern == op

/-- The host command a word is, or why it is none (R53, R55). Total on all `2^64` words. -/
def decodeCommand (c : CommandWord) : Except DecodeError Instr :=
  if rowNop.selects c then .ok .nop
  else if rowSetpixel.selects c then .ok (.setpixel (fieldX c) (fieldY c) (fieldFlag c))
  else if rowGetpixel.selects c then .ok (.getpixel (fieldX c) (fieldY c))
  else if rowShiftregion.selects c then
    .ok (.shiftregion (fieldX c) (fieldY c) (fieldW c) (fieldH c) (fieldS c) (fieldFlag c))
  else if rowRegionof.selects c then .ok (.regionof (fieldA c))
  else if rowRun.selects c then .ok .run
  else if rowHalt.selects c then .ok .halt
  else if rowRdstatus.selects c then .ok .rdstatus
  else if opcodeAssigned (fieldOp c) then .error (.unusedBitSet (fieldOp c))
  else .error (.unknownOpcode (fieldOp c))

/-- The slot operation a descriptor selects by its kind byte (R54), or the refusal of R56. -/
def decodeSlot (d : SlotDesc) : Except DecodeError Instr :=
  if d.kind = 0x00#8 then .ok .pollMode
  else if d.kind = 0x01#8 then .ok (.pollPattern d.region d.seed d.shift d.period)
  else if d.kind = 0x02#8 then .ok (.pollClock d.region d.period)
  else if d.kind = 0x03#8 then .ok (.pollDecay d.region d.period)
  else if d.kind = 0x04#8 then .ok (.pollLife d.region d.period)
  else if d.kind = 0x05#8 then .ok (.pollNoise d.region)
  else if d.kind = 0x0F#8 then .ok .present
  else .error (.unknownSlotKind d.kind)

/-- What encodes an instruction: a command word, or a slot descriptor (30_encoding.md, opening). -/
inductive Encoding where
  | word (c : CommandWord)
  | slot (d : SlotDesc)
  deriving DecidableEq, Repr

/-- The decoder of both kinds. -/
def decode : Encoding → Except DecodeError Instr
  | .word c => decodeCommand c
  | .slot d => decodeSlot d

/-- The decoder on a row of spec/opcode_table.json: 64 bits are a command word, 8 bits the kind byte of a slot
descriptor whose record fields are zero or empty (notes/assumptions/15.md). -/
def decodeTableWord (nbits w : Nat) : Option Instr :=
  if nbits = 64 then
    if w < 2 ^ 64 then (decodeCommand (BitVec.ofNat 64 w)).toOption else none
  else if nbits = 8 then
    if w < 2 ^ 8 then (decodeSlot (SlotDesc.mk (BitVec.ofNat 8 w) 0 [] 0 0)).toOption else none
  else none

/-! ## The encoder -/

/-- The word with the given fields (R50). -/
def packCommand (op a x y w h : BitVec 8) (s : BitVec 16) : CommandWord :=
  (op ++ a ++ x ++ y ++ w ++ h ++ s : BitVec (8 + 8 + 8 + 8 + 8 + 8 + 16))

/-- The argument byte that holds one flag in bit 0 (R51). -/
def flagByte (b : Bool) : BitVec 8 := if b then 1#8 else 0#8

/-- The encoding of an instruction, from R50, R53 and R54. -/
def encode : Instr → Encoding
  | .nop => .word (packCommand 0x00#8 0#8 0#8 0#8 0#8 0#8 0#16)
  | .setpixel x y bit => .word (packCommand 0x01#8 (flagByte bit) x y 0#8 0#8 0#16)
  | .getpixel x y => .word (packCommand 0x02#8 0#8 x y 0#8 0#8 0#16)
  | .shiftregion x y w h shift wrap => .word (packCommand 0x03#8 (flagByte wrap) x y w h shift)
  | .regionof id => .word (packCommand 0x04#8 id 0#8 0#8 0#8 0#8 0#16)
  | .run => .word (packCommand 0x10#8 0#8 0#8 0#8 0#8 0#8 0#16)
  | .halt => .word (packCommand 0x11#8 0#8 0#8 0#8 0#8 0#8 0#16)
  | .rdstatus => .word (packCommand 0x12#8 0#8 0#8 0#8 0#8 0#8 0#16)
  | .pollMode => .slot (SlotDesc.mk 0x00#8 0 [] 0 0)
  | .pollPattern region seed shift period => .slot (SlotDesc.mk 0x01#8 region seed shift period)
  | .pollClock region period => .slot (SlotDesc.mk 0x02#8 region [] 0 period)
  | .pollDecay region period => .slot (SlotDesc.mk 0x03#8 region [] 0 period)
  | .pollLife region period => .slot (SlotDesc.mk 0x04#8 region [] 0 period)
  | .pollNoise region => .slot (SlotDesc.mk 0x05#8 region [] 0 0)
  | .present => .slot (SlotDesc.mk 0x0F#8 0 [] 0 0)

end Sys2Proof
end

