-- ==== Sys2Proof/Machine/CfgWopr.lean ====
section
/-! DEFINITION. CFG_WOPR, the configuration of this hardware (00_scope.md R9). -/

namespace Sys2Proof

/-- `SEED_SHIFTER`, 24 bits a row (R9). -/
def seedShifter : List Nat := [0xF0F0F0, 0x0F0F0F, 0xCCCCCC, 0x333333, 0xAAAAAA, 0x555555, 0xFF00FF, 0x00FF00]

/-- `SEED_PROGRAM_A`, 12 bits a row (R9). -/
def seedProgramA : List Nat := [0x801, 0x402, 0x204, 0x108, 0x090, 0x060, 0xF0F, 0x0F0]

/-- `SEED_PROGRAM_B`, 12 bits a row (R9). -/
def seedProgramB : List Nat := [0xAAA, 0x555, 0xAAA, 0x555, 0xF00, 0x0F0, 0x00F, 0xFFF]

/-- `CFG_WOPR` (R9). -/
def cfgWopr : Config where
  width := 96
  height := 8
  tickBits := 32
  tps := 1000
  uBits := 16
  relaxRunTime := 8000
  fastRunTime := 3000
  fastChanceN := 16384
  slowDelays := [300, 500, 700, 900]
  fastDelays := [20, 30, 40, 50]
  regions :=
    [ ⟨"shifter", 0, 0, 24, 8⟩, ⟨"program-a", 24, 0, 12, 8⟩, ⟨"a-counter", 36, 0, 4, 8⟩, ⟨"life", 40, 0, 24, 8⟩,
      ⟨"program-b", 64, 0, 12, 8⟩, ⟨"b-counter", 76, 0, 4, 8⟩, ⟨"random", 80, 0, 16, 8⟩ ]
  seq :=
    [ SlotDesc.mk 0x00#8 0 [] 0 0,
      SlotDesc.mk 0x01#8 0 seedShifter 1 100,
      SlotDesc.mk 0x01#8 1 seedProgramA (-1) 250,
      SlotDesc.mk 0x02#8 2 [] 0 50,
      SlotDesc.mk 0x04#8 3 [] 0 200,
      SlotDesc.mk 0x01#8 4 seedProgramB 2 400,
      SlotDesc.mk 0x03#8 5 [] 0 125,
      SlotDesc.mk 0x05#8 6 [] 0 0,
      SlotDesc.mk 0x0F#8 0 [] 0 0 ]

end Sys2Proof
end

