-- ==== Sys2Proof/Machine/Params.lean ====
section
/-! DEFINITION. The quantities derived from the configuration (70_reset_and_hazards.md R175) and tick arithmetic
(00_scope.md R11 to R13). -/

namespace Sys2Proof

/-- `STRIDE = ceil(W/8)` (10_state.md R20). -/
def Config.stride (cfg : Config) : Nat := (cfg.width + 7) / 8

/-- The number of framebuffer bytes, `H * STRIDE` (10_state.md R20). -/
def Config.fbBytes (cfg : Config) : Nat := cfg.height * cfg.stride

/-- `MAX_AGE_TICKS = 60 * TPS` (70_reset_and_hazards.md R175). -/
def Config.maxAgeTicks (cfg : Config) : Nat := 60 * cfg.tps

/-- `DECAY_RESET_MIN = 20 * TPS` (70_reset_and_hazards.md R175). -/
def Config.decayResetMin (cfg : Config) : Nat := 20 * cfg.tps

/-- `DECAY_RESET_MAX = 60 * TPS` (70_reset_and_hazards.md R175). -/
def Config.decayResetMax (cfg : Config) : Nat := 60 * cfg.tps

/-- `NREG`. -/
def Config.nreg (cfg : Config) : Nat := cfg.regions.length

/-- `NSLOT`. -/
def Config.nslot (cfg : Config) : Nat := cfg.seq.length

/-- `NANIM = NSLOT - 2` (70_reset_and_hazards.md R175). -/
def Config.nanim (cfg : Config) : Nat := cfg.nslot - 2

/-- `2 ^ TICK_BITS`, the number of tick values. -/
def Config.tickSpan (cfg : Config) : Nat := 2 ^ cfg.tickBits

/-- `HALF = 2 ^ (TICK_BITS - 1)` (70_reset_and_hazards.md R177). -/
def Config.half (cfg : Config) : Nat := 2 ^ (cfg.tickBits - 1)

/-- `tick_add(t, d)` (00_scope.md R11). -/
def tickAdd (cfg : Config) (t : Tick) (d : Nat) : Tick := (t + d) % cfg.tickSpan

/-- `sext_N(v)` for an `N`-bit pattern `v`, `N = bits` (00_scope.md section 4). -/
def sext (bits v : Nat) : Int := if v < 2 ^ (bits - 1) then (v : Int) else (v : Int) - ((2 ^ bits : Nat) : Int)

/-- `signedDiff(a, b) = sext_TICK_BITS((a - b) mod 2^TICK_BITS)` (00_scope.md R12). -/
def signedDiff (cfg : Config) (a b : Tick) : Int :=
  sext cfg.tickBits (((a : Int) - (b : Int)) % (cfg.tickSpan : Int)).toNat

/-- `due(now, t)` (00_scope.md R13). -/
def due (cfg : Config) (now t : Tick) : Bool := decide (0 ≤ signedDiff cfg now t)

/-- A legal interval: `1 <= d < HALF` (70_reset_and_hazards.md R177). -/
def Config.legalInterval (cfg : Config) (d : Nat) : Bool := decide (1 ≤ d) && decide (d < cfg.half)

/-- `x + w <= W` and `y + h <= H`, sums of plain integers: the bounds of a window (40_framebuffer.md R69) and of a
region (41_region_registry.md R81). -/
def Config.windowInside (cfg : Config) (x y w h : Nat) : Bool :=
  decide (x + w ≤ cfg.width) && decide (y + h ≤ cfg.height)

/-- `x < W` and `y < H`: the bounds of a pixel (40_framebuffer.md R64). -/
def Config.pixelInside (cfg : Config) (x y : Nat) : Bool :=
  decide (x < cfg.width) && decide (y < cfg.height)

end Sys2Proof
end

