-- ==== Sys2Proof/Machine/State.lean ====
section
/-! DEFINITION. The state of the block (10_state.md), the inputs the environment has supplied, and the reasons a step can stop. -/

namespace Sys2Proof.Machine

/-- `MODE`: 0 relaxed, 1 frantic (10_state.md R27). -/
inductive Mode where
  | relaxed
  | frantic
  deriving DecidableEq, Repr, Inhabited

/-- The framebuffer `FB` as (byte address, byte) pairs (10_state.md R20). An address that is not listed reads as
`Memory.unlisted`. The canonical form is `Memory.wf` (Machine/Ops.lean). -/
abbrev Memory := List Host.Cell

/-- One record `A[i]` (10_state.md R29 to R31). The record holds the fields of every kind; a kind reads and writes its
own only (notes/assumptions/14.md). -/
structure Animator where
  /-- `next_due` (R29) -/
  nextDue : Tick
  /-- `init_done`, PATTERN and DECAY (R29) -/
  initDone : Bool
  /-- `value`, DECAY (R30) -/
  value : BitVec 32
  /-- `next_reset`, DECAY (R30) -/
  nextReset : Tick
  /-- `life_state`, LIFE: false Uninitialized, true Running (R31) -/
  lifeState : Bool
  /-- `board`, LIFE (R31) -/
  board : Grid
  /-- `H1`, LIFE (R31) -/
  hist1 : Grid
  /-- `H2`, LIFE (R31) -/
  hist2 : Grid
  /-- `H1_valid`, LIFE (R31) -/
  hist1Valid : Bool
  /-- `H2_valid`, LIFE (R31) -/
  hist2Valid : Bool
  /-- `created_at`, LIFE (R31) -/
  createdAt : Tick
  deriving DecidableEq, Repr, Inhabited

/-- The random draw handed to a sequencer step (00_scope.md R15). -/
structure Draw where
  /-- `draw.u` -/
  u : Nat
  /-- `draw.u32` -/
  u32 : BitVec 32
  /-- `draw.reset_delay` -/
  resetDelay : Nat
  /-- `draw.idx` -/
  idx : Nat
  /-- `draw.cells` -/
  cells : Grid
  /-- `draw.coin` -/
  coin : Grid
  /-- `draw.val` -/
  val : Grid
  deriving DecidableEq, Repr, Inhabited

/-- The inputs of one sequencer step: the tick sample and the draw (10_state.md R35). -/
structure SeqInput where
  now : Tick
  draw : Draw
  deriving DecidableEq, Repr, Inhabited

/-- Whose turn a step is: the host's, the sequencer's (45_scheduler_and_control.md R143), or the reset input's, with the
tick sampled at reset (70_reset_and_hazards.md R170). -/
inductive Turn where
  | host
  | sequencer
  | reset (t0 : Tick)
  deriving DecidableEq, Repr, Inhabited

/-- The state. The first group is the spec's (10_state.md R20 to R33); the second group is the model's own: the
configuration the block was built from, the inputs its environment has supplied, and the responses it has given. -/
structure State where
  /-- `FB` (R20) -/
  mem : Memory
  /-- `SLOT` (R24) -/
  slot : Nat
  /-- `CHANGED` (R25) -/
  changed : Bool
  /-- `RUN` (R26) -/
  run : Bool
  /-- `MODE` (R27) -/
  mode : Mode
  /-- `MODE_DUE` (R27) -/
  modeDue : Tick
  /-- `ERRFLAGS` (R28) -/
  errFlags : BitVec 3
  /-- `A[1 .. NANIM]`, `A[i]` at index `i - 1` (R29) -/
  animators : List Animator
  /-- `OUT`: the images of the present events since reset, oldest first (R33) -/
  out : List (List Byte)
  /-- The configuration `CFG`; no step changes it (R35, notes/assumptions/1.md). -/
  cfg : Config
  /-- Command words presented at the command port and not yet accepted, oldest first (notes/assumptions/6.md). -/
  commands : List CommandWord
  /-- Response words given since reset, oldest first (30_encoding.md R52, notes/assumptions/8.md). -/
  responses : List ResponseWord
  /-- Inputs supplied for the coming sequencer steps, soonest first (notes/assumptions/4.md). -/
  seqInputs : List SeqInput
  /-- Whose turn the coming steps are, soonest first (notes/assumptions/5.md). -/
  schedule : List Turn
  /-- The tick sampled by the sequencer step in progress (00_scope.md R14). -/
  now : Tick
  /-- The draw of the sequencer step in progress (00_scope.md R15). -/
  draw : Draw
  /-- Counts steps, so that each step meets fresh free values (notes/assumptions/4.md). -/
  turn : Nat
  deriving DecidableEq, Repr

/-- Reasons a step stops with a fault. The block itself has none (45_scheduler_and_control.md R144): its three errors are
results (60_exceptions.md R155). -/
inductive Fault where
  /-- Raised by an animator slot whose region does not lie inside the framebuffer: an access to an address that does
  not exist. Only a configuration that the construction check refuses gets here (41_region_registry.md R81,
  70_reset_and_hazards.md R176). Safe: the model stops. -/
  | outsideFramebuffer
  deriving DecidableEq, Repr

/-- Reasons a step is refused. -/
inductive Refusal where
  /-- Raised by an arm of `exec` whose instruction has no meaning yet. Safe: the model stops. -/
  | notModelled (mnemonic : String)
  /-- Raised by `construct` for a configuration that fails checks 1 to 3 (70_reset_and_hazards.md R174, R178): the spec
  defines no block for it. Safe. -/
  | malformedConfiguration
  /-- Raised by `step` where the slot program has no slot at `SLOT` or its kind byte is none of the seven, a
  configuration the check refuses (30_encoding.md R56). Safe: the model stops. -/
  | noSuchSlot
  /-- Raised by an animator slot whose region id is not below `NREG`, a configuration the check refuses
  (70_reset_and_hazards.md R178). Safe: the model stops. -/
  | unregisteredRegion
  /-- Raised by an animator slot that has no record `A[SLOT]`, as in slot 0, where the check allows no animator
  (70_reset_and_hazards.md R178). Safe: the model stops. -/
  | noAnimatorRecord
  /-- Raised by a due DECAY or NOISE slot whose `draw.reset_delay` or `draw.idx` lies outside the range of the random
  contract, which the source cannot return (93_implementation_defined.md U23, U24). Safe: the model stops. -/
  | drawOutOfRange
  deriving DecidableEq, Repr

/-- An animator right after reset (10_state.md R34). The fields the spec leaves unspecified are zero
(notes/assumptions/3.md). -/
def Animator.fresh (t0 : Tick) : Animator where
  nextDue := t0
  initDone := false
  value := 0#32
  nextReset := 0
  lifeState := false
  board := []
  hist1 := []
  hist2 := []
  hist1Valid := false
  hist2Valid := false
  createdAt := 0

/-- The draw that holds zero everywhere, in place before the first sequencer step (notes/assumptions/4.md). -/
def Draw.zero : Draw where
  u := 0
  u32 := 0#32
  resetDelay := 0
  idx := 0
  cells := []
  coin := []
  val := []

/-- The block built from `cfg`, right after a reset that sampled the tick `t0` (10_state.md R34, 70_reset_and_hazards.md
R171), with nothing supplied by the environment. -/
def State.resetAt (cfg : Config) (t0 : Tick) : State where
  mem := []
  slot := 0
  changed := false
  run := true
  mode := .relaxed
  modeDue := tickAdd cfg (t0 % cfg.tickSpan) cfg.fastRunTime
  errFlags := 0#3
  animators := List.replicate cfg.nanim (Animator.fresh (t0 % cfg.tickSpan))
  out := []
  cfg := cfg
  commands := []
  responses := []
  seqInputs := []
  schedule := []
  now := t0 % cfg.tickSpan
  draw := Draw.zero
  turn := 0

/-- The machine right after reset: this hardware's configuration, and the tick 0 at reset (notes/assumptions/2.md). -/
def State.reset : State := State.resetAt cfgWopr 0

end Sys2Proof.Machine
end

