-- ==== Sys2Proof/Machine/Flags.lean ====
section
/-! DEFINITION. The flags: `ERRFLAGS`, and the status word `RDSTATUS` makes of `RUN`, `MODE` and `ERRFLAGS`. -/

namespace Sys2Proof.Machine

/-- The three errors (60_exceptions.md R156 to R158). -/
inductive ErrorKind where
  | outOfBounds
  | unknownRegion
  | illegalCommand
  deriving DecidableEq, Repr

/-- The `status` code of an error (30_encoding.md R52). -/
def ErrorKind.code : ErrorKind → BitVec 8
  | .outOfBounds => 1#8
  | .unknownRegion => 2#8
  | .illegalCommand => 3#8

/-- The error's bit in `ERRFLAGS` (10_state.md R28). -/
def ErrorKind.flag : ErrorKind → BitVec 3
  | .outOfBounds => 0b001#3
  | .unknownRegion => 0b010#3
  | .illegalCommand => 0b100#3

/-- The `status` code of success (30_encoding.md R52). -/
def statusOk : BitVec 8 := 0#8

/-- `MODE` as its bit (10_state.md R27). -/
def Mode.bit : Mode → BitVec 32
  | .relaxed => 0#32
  | .frantic => 1#32

/-- `RUN` as its bit (10_state.md R26). -/
def runBit (run : Bool) : BitVec 32 := if run then 1#32 else 0#32

/-- `zext_32((ERRFLAGS << 8) | (MODE << 1) | RUN)` (45_scheduler_and_control.md R151). -/
def statusData (run : Bool) (mode : Mode) (errFlags : BitVec 3) : BitVec 32 :=
  (errFlags.setWidth 32 <<< 8) ||| (mode.bit <<< 1) ||| runBit run

end Sys2Proof.Machine
end

