-- ==== Sys2Proof/Machine/Operands.lean ====
section
/-! DEFINITION. Operand forms: the value of a word's shift field, the geometry of a slot's region, the cells of a grid, the
bits of a seed and of a rendered value. -/

namespace Sys2Proof.Machine

/-- `shift = sext_16(cmd[15:0])` (30_encoding.md R51). -/
def shiftAmount (s : BitVec 16) : Int := s.toInt

/-- `i mod n` for `n > 0`, the floor modulus, in `0 .. n-1` (00_scope.md section 4). -/
def wrapIndex (n : Nat) (i : Int) : Nat := (i % (n : Int)).toNat

/-- `g[r][c]`; a cell the grid does not have reads 0 (notes/assumptions/11.md). -/
def Grid.cell (g : Grid) (r c : Nat) : Bool := (g.getD r []).getD c false

/-- The `h` by `w` grid with the given cells. -/
def Grid.ofFn (h w : Nat) (f : Nat → Nat → Bool) : Grid := (List.range h).map fun r => (List.range w).map fun c => f r c

/-- `X == Y`: equal in every cell of an `h` by `w` board (42_life_engine.md R96). -/
def Grid.same (h w : Nat) (x y : Grid) : Bool :=
  (List.range h).all fun r => (List.range w).all fun c => Grid.cell x r c == Grid.cell y r c

/-- The pixel of a seed row at region row `r`, column `j`: most significant of `w` bits leftmost
(43_section_animators.md R113). -/
def seedPixel (seed : List Nat) (w r j : Nat) : Bool := (seed.getD r 0).testBit (w - 1 - j)

/-- The pixel of a rendered `nbits`-bit value at region row `r`, column `j` (43_section_animators.md R116, R117). -/
def renderPixel (v nbits w r j : Nat) : Bool := if r * w + j < nbits then v.testBit (r * w + j) else false

/-- `rot(p, w, shift)` (40_framebuffer.md R67). -/
def rot (p : Nat → Bool) (w : Nat) (shift : Int) : Nat → Bool := fun i => p (wrapIndex w ((i : Int) - shift))

/-- `shl(p, w, shift)` (40_framebuffer.md R68). -/
def shl (p : Nat → Bool) (w : Nat) (shift : Int) : Nat → Bool := fun i =>
  if 0 ≤ (i : Int) - shift ∧ (i : Int) - shift < (w : Int) then p ((i : Int) - shift).toNat else false

/-- The four geometry bytes `g.x ++ g.y ++ g.w ++ g.h` (41_region_registry.md R83). -/
def geometryData (g : Region) : BitVec 32 :=
  (BitVec.ofNat 8 g.x ++ BitVec.ofNat 8 g.y ++ BitVec.ofNat 8 g.w ++ BitVec.ofNat 8 g.h : BitVec (8 + 8 + 8 + 8))

end Sys2Proof.Machine
end

