-- ==== Sys2Proof/Machine/Ops.lean ====
section
/-! DEFINITION. The operations every meaning is made of: framebuffer bytes and pixels, responses, the rejection of a
command (this hardware's taking of an exception), when a step is enabled, and the discipline of an animator slot. -/

namespace Sys2Proof.Machine

/-! ## Framebuffer bytes (20_memory.md R36) -/

/-- What an address that is not listed reads as: the framebuffer is created with all bits 0 (10_state.md R21, R34). -/
def Memory.unlisted : Byte := 0x00#8

/-- `MemRead(addr, 1)` (R36). -/
def Memory.read (m : Memory) (a : Nat) : Byte :=
  match m with
  | [] => Memory.unlisted
  | c :: rest => if c.1 = a then c.2 else Memory.read rest a

/-- The memory with no entry for `a`. -/
def Memory.erase (m : Memory) (a : Nat) : Memory := m.filter fun c => !(c.1 == a)

/-- The memory with an entry put before the first higher address. -/
def Memory.place (m : Memory) (a : Nat) (v : Byte) : Memory :=
  match m with
  | [] => [(a, v)]
  | c :: rest => if a < c.1 then (a, v) :: c :: rest else c :: Memory.place rest a v

/-- `MemWrite(addr, 1, v)` (R36). Keeps the canonical form. -/
def Memory.write (m : Memory) (a : Nat) (v : Byte) : Memory :=
  if v = Memory.unlisted then Memory.erase m a else Memory.place (Memory.erase m a) a v

/-- The canonical form: addresses strictly rising, no entry equal to what an unlisted address reads as. -/
def Memory.wf (m : Memory) : Bool :=
  decide (m.Pairwise fun c d => c.1 < d.1) && m.all fun c => !(c.2 == Memory.unlisted)

/-! ## Pixels (40_framebuffer.md R62, R63) -/

/-- `addr(x, y) = y * STRIDE + (x div 8)` (20_memory.md R38). -/
def pixelAddr (cfg : Config) (x y : Nat) : Nat := y * cfg.stride + x / 8

/-- `bitpos(x) = 7 - (x mod 8)` (20_memory.md R38). -/
def pixelBit (x : Nat) : Nat := 7 - x % 8

/-- `mask(x) = 0x80 >> (x mod 8)` (20_memory.md R38). -/
def pixelMask (x : Nat) : Byte := 0x80#8 >>> (x % 8)

/-- `fb_get(x, y)` (R62). -/
def fbGet (cfg : Config) (m : Memory) (x y : Nat) : Bool :=
  (m.read (pixelAddr cfg x y)).getLsbD (pixelBit x)

/-- `fb_set(x, y, b)` (R63). -/
def fbSet (cfg : Config) (m : Memory) (x y : Nat) (b : Bool) : Memory :=
  let old := m.read (pixelAddr cfg x y)
  m.write (pixelAddr cfg x y) (if b then old ||| pixelMask x else old &&& ~~~pixelMask x)

/-- `fb_set(x, y, b)`, or nothing where the caller gives no bit. -/
def fbPut (cfg : Config) (m : Memory) (x y : Nat) : Option Bool → Memory
  | some b => fbSet cfg m x y b
  | none => m

/-- Puts the bits `f 0 .. f (n-1)` on the `n` pixels from `(x, y)` rightward. -/
def paintRow (cfg : Config) (x y : Nat) (f : Nat → Option Bool) : Nat → Memory → Memory
  | 0, m => m
  | n + 1, m => fbPut cfg (paintRow cfg x y f n m) (x + n) y (f n)

/-- Puts the bit `f r j`, where there is one, on pixel `(x + j, y + r)` for every row `r` below the last argument
and every column `j` below `w`. Every drawing operation of the block is one of these. -/
def paint (cfg : Config) (x y w : Nat) (f : Nat → Nat → Option Bool) : Nat → Memory → Memory
  | 0, m => m
  | n + 1, m => paintRow cfg x (y + n) (f n) w (paint cfg x y w f n m)

/-- `fb_shift(x, y, w, h, shift, wrap)`, one simultaneous update: every read sees `m` (40_framebuffer.md R66, R70). -/
def fbShift (cfg : Config) (m : Memory) (x y w h : Nat) (shift : Int) (wrap : Bool) : Memory :=
  if w = 0 ∨ h = 0 ∨ shift = 0 then m
  else
    paint cfg x y w
      (fun r i =>
        let p := fun k => fbGet cfg m (x + k) (y + r)
        some (if wrap then rot p w shift i else shl p w shift i))
      h m

/-- The image of a present event: `img[k] = FB[k]` for every byte, in rising order (20_memory.md R37,
10_state.md R33). -/
def image (cfg : Config) (m : Memory) : List Byte := (List.range cfg.fbBytes).map m.read

/-! ## Responses and errors (30_encoding.md R52, 60_exceptions.md R155) -/

/-- A response word: `status`, 24 zero bits, `data` (R52). -/
def responseWord (status : BitVec 8) (data : BitVec 32) : ResponseWord :=
  (status ++ 0#24 ++ data : BitVec (8 + 24 + 32))

/-- The command in progress answers `status = OK` with `data`. -/
def State.respond (s : State) (data : BitVec 32) : State :=
  { s with responses := s.responses ++ [responseWord statusOk data] }

/-- `raise e`: the command is rejected as a whole. Nothing changes but the error's sticky flag, and the response has
the error's code and `data = 0` (R155). This is the block's only way of taking an exception; there is no return from
one. -/
def State.reject (s : State) (e : ErrorKind) : State :=
  { s with errFlags := s.errFlags ||| e.flag, responses := s.responses ++ [responseWord e.code 0#32] }

/-! ## When a step is enabled (45_scheduler_and_control.md R142, R143) -/

/-- A host command takes effect only at `SLOT = 0`; inside a cycle it waits, and nothing changes (R143). -/
def hostCommand (s : State) (effect : State → State) : Host.Outcome State Fault Refusal :=
  if s.slot = 0 then .next (effect s) else .next s

/-- A slot runs only while `RUN = 1`; otherwise the sequencer is held, and nothing changes (R142). -/
def sequencerSlot (s : State) (effect : State → Host.Outcome State Fault Refusal) : Host.Outcome State Fault Refusal :=
  if s.run then effect s else .next s

/-! ## Animator slots (43_section_animators.md R111) -/

/-- What the body of a due animator gives: the framebuffer, its own record, and the interval to its next deadline. -/
structure BodyResult where
  mem : Memory
  anim : Animator
  interval : Nat

/-- The index of `A[SLOT]` in the list of records: `A[i]`, `i = 1 .. NANIM`, stands at `i - 1` (10_state.md R29). -/
def State.animatorIndex (s : State) : Nat := s.slot - 1

/-- `A[SLOT]`, which slots 1 .. NANIM have (10_state.md R29). -/
def State.animator? (s : State) : Option Animator :=
  if s.slot = 0 then none else s.animators[s.animatorIndex]?

/-- `SLOT <- SLOT + 1` (10_state.md R24). -/
def State.advanceSlot (s : State) : State := { s with slot := s.slot + 1 }

/-- The end of a due animator's slot: its new picture and record, the new deadline measured from `now`,
`CHANGED <- 1`, `SLOT <- SLOT + 1` (R111, R112). -/
def State.finishBody (s : State) (b : BodyResult) : State :=
  { s with
    mem := b.mem
    animators := s.animators.set s.animatorIndex { b.anim with nextDue := tickAdd s.cfg s.now b.interval }
    changed := true
    slot := s.slot + 1 }

/-- The due-time discipline of every animator slot (R111), with the geometry of its region (41_region_registry.md R84).
The three stops are those of a configuration the construction check refuses (notes/assumptions/12.md). -/
def pollAnimator (s : State) (region : Nat) (body : Region → Animator → Except Refusal BodyResult) :
    Host.Outcome State Fault Refusal :=
  sequencerSlot s fun s =>
    match s.cfg.regions[region]? with
    | none => .refused .unregisteredRegion
    | some g =>
      if s.cfg.windowInside g.x g.y g.w g.h then
        match s.animator? with
        | none => .refused .noAnimatorRecord
        | some a =>
          if due s.cfg s.now a.nextDue then
            match body g a with
            | .ok b => .next (s.finishBody b)
            | .error r => .refused r
          else .next s.advanceSlot
      else .fault .outsideFramebuffer

end Sys2Proof.Machine
end

