-- ==== Sys2Proof/Machine/Animators.lean ====
section
/-! DEFINITION. POLL.PATTERN, POLL.CLOCK, POLL.DECAY, POLL.NOISE (43_section_animators.md). -/

namespace Sys2Proof.Machine

/-- `draw_seed(seed)` into region `g` (R113). -/
def drawSeed (cfg : Config) (m : Memory) (g : Region) (seed : List Nat) : Memory :=
  paint cfg g.x g.y g.w (fun r j => some (seedPixel seed g.w r j)) g.h m

/-- `render(v, nbits)` into region `g` (R116). -/
def render (cfg : Config) (m : Memory) (g : Region) (v nbits : Nat) : Memory :=
  paint cfg g.x g.y g.w (fun r j => some (renderPixel v nbits g.w r j)) g.h m

/-- The noise body: where the coin is 1 the pixel gets the drawn bit, elsewhere it keeps its own (R122). -/
def applyNoise (cfg : Config) (m : Memory) (g : Region) (coin val : Grid) : Memory :=
  paint cfg g.x g.y g.w (fun r c => if Grid.cell coin r c then some (Grid.cell val r c) else none) g.h m

/-- The body of `POLL.PATTERN`: the seed on the first due tick, the wrapped shift on every later one (R114). -/
def patternBody (s : State) (seed : List Nat) (shift : Int) (period : Nat) (g : Region) (a : Animator) :
    Except Refusal BodyResult :=
  if a.initDone then .ok ⟨fbShift s.cfg s.mem g.x g.y g.w g.h shift true, a, period⟩
  else .ok ⟨drawSeed s.cfg s.mem g seed, { a with initDone := true }, period⟩

/-- `POLL.PATTERN region, seed, shift, period` (R114). -/
def execPollPattern (region : Nat) (seed : List Nat) (shift : Int) (period : Nat) (s : State) :
    Host.Outcome State Fault Refusal :=
  pollAnimator s region (patternBody s seed shift period)

/-- The body of `POLL.CLOCK`: the low bits of `now` (R118). -/
def clockBody (s : State) (period : Nat) (g : Region) (a : Animator) : Except Refusal BodyResult :=
  .ok ⟨render s.cfg s.mem g s.now s.cfg.tickBits, a, period⟩

/-- `POLL.CLOCK region, period` (R118). -/
def execPollClock (region period : Nat) (s : State) : Host.Outcome State Fault Refusal :=
  pollAnimator s region (clockBody s period)

/-- `draw.reset_delay` lies in `DECAY_RESET_MIN .. DECAY_RESET_MAX` (00_scope.md R15). -/
def resetDelayLegal (cfg : Config) (d : Nat) : Bool := decide (cfg.decayResetMin ≤ d) && decide (d ≤ cfg.decayResetMax)

/-- A DECAY animator reseeds on its first due tick and when its reset deadline has passed (R120). -/
def decayReseeds (s : State) (a : Animator) : Bool := !a.initDone || due s.cfg s.now a.nextReset

/-- The body of `POLL.DECAY`: reseed, or decrement modulo `2^32`, and render (R119, R120). -/
def decayBody (s : State) (period : Nat) (g : Region) (a : Animator) : Except Refusal BodyResult :=
  if decayReseeds s a then
    if resetDelayLegal s.cfg s.draw.resetDelay then
      .ok ⟨render s.cfg s.mem g s.draw.u32.toNat 32,
        { a with value := s.draw.u32, nextReset := tickAdd s.cfg s.now s.draw.resetDelay, initDone := true }, period⟩
    else .error .drawOutOfRange
  else .ok ⟨render s.cfg s.mem g (a.value - 1#32).toNat 32, { a with value := a.value - 1#32 }, period⟩

/-- `POLL.DECAY region, period` (R120). -/
def execPollDecay (region period : Nat) (s : State) : Host.Outcome State Fault Refusal :=
  pollAnimator s region (decayBody s period)

/-- The delay set the mode selects (R123). -/
def delaySet (cfg : Config) : Mode → List Nat
  | .relaxed => cfg.slowDelays
  | .frantic => cfg.fastDelays

/-- The body of `POLL.NOISE`, with the interval `set[draw.idx]` (R122, R123). -/
def noiseBody (s : State) (g : Region) (a : Animator) : Except Refusal BodyResult :=
  match (delaySet s.cfg s.mode)[s.draw.idx]? with
  | some interval => .ok ⟨applyNoise s.cfg s.mem g s.draw.coin s.draw.val, a, interval⟩
  | none => .error .drawOutOfRange

/-- `POLL.NOISE region` (R124). -/
def execPollNoise (region : Nat) (s : State) : Host.Outcome State Fault Refusal :=
  pollAnimator s region (noiseBody s)

end Sys2Proof.Machine
end

