-- ==== Sys2Proof/Machine/Control.lean ====
section
/-! DEFINITION. NOP, RUN, HALT, RDSTATUS and PRESENT (45_scheduler_and_control.md). -/

namespace Sys2Proof.Machine

/-- `NOP` (R148). -/
def execNop (s : State) : Host.Outcome State Fault Refusal := hostCommand s fun s => s.respond 0#32

/-- `RUN` (R149). -/
def execRun (s : State) : Host.Outcome State Fault Refusal :=
  hostCommand s fun s => ({ s with run := true }).respond 0#32

/-- `HALT` (R150). -/
def execHalt (s : State) : Host.Outcome State Fault Refusal :=
  hostCommand s fun s => ({ s with run := false }).respond 0#32

/-- `RDSTATUS` (R151). -/
def execRdstatus (s : State) : Host.Outcome State Fault Refusal :=
  hostCommand s fun s => s.respond (statusData s.run s.mode s.errFlags)

/-- `PRESENT` (R147): one event with the whole framebuffer if anything reported a change, and back to slot 0. -/
def execPresent (s : State) : Host.Outcome State Fault Refusal :=
  sequencerSlot s fun s =>
    if s.changed then .next { s with out := s.out ++ [image s.cfg s.mem], changed := false, slot := 0 }
    else .next { s with slot := 0 }

end Sys2Proof.Machine
end

