-- ==== Sys2Proof/Machine/Framebuffer.lean ====
section
/-! DEFINITION. SETPIXEL, GETPIXEL, SHIFTREGION (40_framebuffer.md). -/

namespace Sys2Proof.Machine

/-- `SETPIXEL x, y, bit` (R64). -/
def execSetpixel (x y : BitVec 8) (bit : Bool) (s : State) : Host.Outcome State Fault Refusal :=
  hostCommand s fun s =>
    if s.cfg.pixelInside x.toNat y.toNat then
      ({ s with mem := fbSet s.cfg s.mem x.toNat y.toNat bit }).respond 0#32
    else s.reject .outOfBounds

/-- `GETPIXEL x, y` (R65). -/
def execGetpixel (x y : BitVec 8) (s : State) : Host.Outcome State Fault Refusal :=
  hostCommand s fun s =>
    if s.cfg.pixelInside x.toNat y.toNat then
      s.respond (if fbGet s.cfg s.mem x.toNat y.toNat then 1#32 else 0#32)
    else s.reject .outOfBounds

/-- `SHIFTREGION x, y, w, h, shift, wrap` (R69): the bounds test comes before the shift is looked at. -/
def execShiftregion (x y w h : BitVec 8) (shift : BitVec 16) (wrap : Bool) (s : State) :
    Host.Outcome State Fault Refusal :=
  hostCommand s fun s =>
    if s.cfg.windowInside x.toNat y.toNat w.toNat h.toNat then
      ({ s with mem := fbShift s.cfg s.mem x.toNat y.toNat w.toNat h.toNat (shiftAmount shift) wrap }).respond 0#32
    else s.reject .outOfBounds

end Sys2Proof.Machine
end

