-- ==== Sys2Proof/Machine/Life.lean ====
section
/-! DEFINITION. The Life engine and POLL.LIFE (42_life_engine.md). -/

namespace Sys2Proof.Machine

/-- `draw_board(B)` into region `g` (R91). -/
def drawBoard (cfg : Config) (m : Memory) (g : Region) (b : Grid) : Memory :=
  paint cfg g.x g.y g.w (fun r c => some (Grid.cell b r c)) g.h m

/-- The eight neighbour offsets `(dr, dc)` (R92). -/
def neighbourOffsets : List (Int × Int) :=
  [(-1, -1), (-1, 0), (-1, 1), (0, -1), (0, 1), (1, -1), (1, 0), (1, 1)]

/-- The cell at offset `(dr, dc)` on the `h` by `w` torus (R92). -/
def torusCell (h w : Nat) (b : Grid) (r c : Nat) (d : Int × Int) : Bool :=
  Grid.cell b (wrapIndex h ((r : Int) + d.1)) (wrapIndex w ((c : Int) + d.2))

/-- `nb(B, r, c)`: how many of the eight neighbours are live (R92). -/
def neighbours (h w : Nat) (b : Grid) (r c : Nat) : Nat := neighbourOffsets.countP (torusCell h w b r c)

/-- The next value of a cell with `n` live neighbours (R93). -/
def nextCell (live : Bool) (n : Nat) : Bool :=
  if live && (decide (n < 2) || decide (3 < n)) then false
  else if !live && decide (n = 3) then true
  else live

/-- `next(B)`, all cells together (R93). -/
def nextBoard (h w : Nat) (b : Grid) : Grid :=
  Grid.ofFn h w fun r c => nextCell (Grid.cell b r c) (neighbours h w b r c)

/-- The board has no live cell (R98). -/
def boardEmpty (h w : Nat) (b : Grid) : Bool :=
  (List.range h).all fun r => (List.range w).all fun c => !Grid.cell b r c

/-- `reseed()` (R95): the drawn board, both history slots cleared, the creation time stamped. -/
def lifeReseed (s : State) (g : Region) (a : Animator) : Animator :=
  { a with
    board := Grid.ofFn g.h g.w (Grid.cell s.draw.cells)
    hist1Valid := false
    hist2Valid := false
    createdAt := s.now }

/-- `commit(cand)` (R100): the history shifts by one. -/
def lifeCommit (a : Animator) (cand : Grid) : Animator :=
  { a with
    hist2 := a.hist1
    hist2Valid := a.hist1Valid
    hist1 := a.board
    hist1Valid := true
    board := cand }

/-- The candidate is the live board: period 1, trigger (a) (R96). -/
def triggerStill (g : Region) (a : Animator) (cand : Grid) : Bool := Grid.same g.h g.w cand a.board

/-- The candidate is the board before the live one: period 2, trigger (b) (R97). -/
def triggerBlink (g : Region) (a : Animator) (cand : Grid) : Bool := a.hist1Valid && Grid.same g.h g.w cand a.hist1

/-- The candidate has no live cell, trigger (c) (R98). -/
def triggerExtinct (g : Region) (cand : Grid) : Bool := boardEmpty g.h g.w cand

/-- The board is older than the maximum age, trigger (d) (R99). -/
def triggerAge (s : State) (a : Animator) : Bool := decide ((s.cfg.maxAgeTicks : Int) < signedDiff s.cfg s.now a.createdAt)

/-- `step()`: the triggers in their order, else commit (R96). -/
def lifeStep (s : State) (g : Region) (a : Animator) : Animator :=
  let cand := nextBoard g.h g.w a.board
  if triggerStill g a cand then lifeReseed s g a
  else if triggerBlink g a cand then lifeReseed s g a
  else if triggerExtinct g cand then lifeReseed s g a
  else if triggerAge s a then lifeReseed s g a
  else lifeCommit a cand

/-- The record after a due Life tick: `Uninitialized` reseeds and becomes `Running`, `Running` steps (R103). -/
def lifeTick (s : State) (g : Region) (a : Animator) : Animator :=
  if a.lifeState then lifeStep s g a else { lifeReseed s g a with lifeState := true }

/-- The body of `POLL.LIFE`: the tick, and the whole region redrawn from the live board (R91, R103). -/
def lifeBody (s : State) (period : Nat) (g : Region) (a : Animator) : Except Refusal BodyResult :=
  let a' := lifeTick s g a
  .ok ⟨drawBoard s.cfg s.mem g a'.board, a', period⟩

/-- `POLL.LIFE region, period` (R103). -/
def execPollLife (region period : Nat) (s : State) : Host.Outcome State Fault Refusal :=
  pollAnimator s region (lifeBody s period)

end Sys2Proof.Machine
end

