-- ==== Sys2Proof/Machine/ModeController.lean ====
section
/-! DEFINITION. POLL.MODE (44_mode_controller.md). -/

namespace Sys2Proof.Machine

/-- A due check of the mode controller (R131): frantic always drops to relaxed; relaxed turns frantic when
`draw.u < FAST_CHANCE_N` (R132). The new deadline is measured from `now`. -/
def modeCheck (s : State) : State :=
  match s.mode with
  | .frantic => { s with mode := .relaxed, modeDue := tickAdd s.cfg s.now s.cfg.relaxRunTime }
  | .relaxed =>
    { s with
      mode := if s.draw.u < s.cfg.fastChanceN then .frantic else .relaxed
      modeDue := tickAdd s.cfg s.now s.cfg.fastRunTime }

/-- `POLL.MODE` (R131). -/
def execPollMode (s : State) : Host.Outcome State Fault Refusal :=
  sequencerSlot s fun s =>
    .next (if due s.cfg s.now s.modeDue then (modeCheck s).advanceSlot else s.advanceSlot)

end Sys2Proof.Machine
end

