-- ==== Sys2Proof/Machine/Registry.lean ====
section
/-! DEFINITION. REGIONOF (41_region_registry.md). -/

namespace Sys2Proof.Machine

/-- `REGIONOF id` (R83). -/
def execRegionof (id : BitVec 8) (s : State) : Host.Outcome State Fault Refusal :=
  hostCommand s fun s =>
    match s.cfg.regions[id.toNat]? with
    | some g => s.respond (geometryData g)
    | none => s.reject .unknownRegion

end Sys2Proof.Machine
end

