-- ==== Sys2Proof/Machine/Dispatch.lean ====
section
/-! DEFINITION. The dispatch of an instruction to its meaning. -/

namespace Sys2Proof.Machine

def exec (i : Instr) (s : State) : Host.Outcome State Fault Refusal :=
  match i with
  | .nop => Sys2Proof.Machine.execNop s
  | .setpixel x y bit => Sys2Proof.Machine.execSetpixel x y bit s
  | .getpixel x y => Sys2Proof.Machine.execGetpixel x y s
  | .shiftregion x y w h shift wrap => Sys2Proof.Machine.execShiftregion x y w h shift wrap s
  | .regionof id => Sys2Proof.Machine.execRegionof id s
  | .run => Sys2Proof.Machine.execRun s
  | .halt => Sys2Proof.Machine.execHalt s
  | .rdstatus => Sys2Proof.Machine.execRdstatus s
  | .pollMode => Sys2Proof.Machine.execPollMode s
  | .pollPattern region seed shift period => Sys2Proof.Machine.execPollPattern region seed shift period s
  | .pollClock region period => Sys2Proof.Machine.execPollClock region period s
  | .pollDecay region period => Sys2Proof.Machine.execPollDecay region period s
  | .pollLife region period => Sys2Proof.Machine.execPollLife region period s
  | .pollNoise region => Sys2Proof.Machine.execPollNoise region s
  | .present => Sys2Proof.Machine.execPresent s

end Sys2Proof.Machine
end

