-- ==== Sys2Proof/Machine/Ports.lean ====
section
/-! DEFINITION. The block's ports: whose turn a step is, the inputs a sequencer step takes, the reset input, and the
construction of a block (45_scheduler_and_control.md R141 to R144, 70_reset_and_hazards.md R170 to R174). -/

namespace Sys2Proof.Machine

/-- Who acts in a step. `idle`: no command is pending and the sequencer is held; the block waits, which is not an
error (45_scheduler_and_control.md R144). -/
inductive Agent where
  | host (c : CommandWord)
  | sequencer
  | reset (t0 : Tick)
  | idle
  deriving DecidableEq, Repr

/-- Whose turn the schedule makes it; where it says nothing, a free value chooses (R143,
93_implementation_defined.md U17). -/
def State.nextTurn (s : State) : Turn :=
  match s.schedule with
  | t :: _ => t
  | [] => if Config.freeHostFirst s.turn then .host else .sequencer

/-- The host step that is enabled, if one is: `SLOT = 0` and a command is pending (R143). -/
def State.hostReady (s : State) : Option CommandWord := if s.slot = 0 then s.commands.head? else none

/-- Who acts: the reset input if it is its turn; else, of the host step and the sequencer step, the one that is
enabled, and where both are, the one whose turn it is (R142, R143). -/
def State.agent (s : State) : Agent :=
  match s.nextTurn with
  | .reset t0 => .reset t0
  | .host =>
    match s.hostReady with
    | some c => .host c
    | none => if s.run then .sequencer else .idle
  | .sequencer =>
    if s.run then .sequencer
    else
      match s.hostReady with
      | some c => .host c
      | none => .idle

/-- One turn of the schedule is used up. -/
def State.passTurn (s : State) : State := { s with schedule := s.schedule.tail, turn := s.turn + 1 }

/-- The oldest pending command leaves the port: it is consumed when it is accepted (20_memory.md R48). -/
def State.acceptCommand (s : State) : State := { s with commands := s.commands.tail }

/-- A draw made of free values, each in the range its rule states (00_scope.md R15): `k` is the counter, `mode` picks
the delay set `draw.idx` is drawn for (43_section_animators.md R123). -/
def freeDraw (cfg : Config) (mode : Mode) (k : Nat) : Draw where
  u := Config.freeUniform k % 2 ^ cfg.uBits
  u32 := Config.freeU32 k
  resetDelay := cfg.decayResetMin + Config.freeDelay k % (cfg.decayResetMax - cfg.decayResetMin + 1)
  idx := Config.freeIndex k % (delaySet cfg mode).length
  cells := Grid.ofFn cfg.height cfg.width (Config.freeCell k)
  coin := Grid.ofFn cfg.height cfg.width (Config.freeCoin k)
  val := Grid.ofFn cfg.height cfg.width (Config.freeVal k)

/-- The sequencer samples the tick, which is `TICK_BITS` wide, and takes its draw, whose `u` is `U_BITS` wide
(R141; 00_scope.md R14, R15). With nothing supplied both are free. -/
def State.sampleInputs (s : State) : State :=
  match s.seqInputs with
  | inp :: rest =>
    { s with
      now := inp.now % s.cfg.tickSpan
      draw := { inp.draw with u := inp.draw.u % 2 ^ s.cfg.uBits }
      seqInputs := rest }
  | [] => { s with now := Config.freeTick s.turn % s.cfg.tickSpan, draw := freeDraw s.cfg s.mode s.turn }

/-- The reset input, with the tick sampled at reset: every state element takes its reset value, the configuration
stays, and what the environment has supplied stays with the environment (R170, R171). -/
def State.applyReset (s : State) (t0 : Tick) : State :=
  { State.resetAt s.cfg t0 with
    commands := s.commands
    seqInputs := s.seqInputs
    schedule := s.schedule
    turn := s.turn }

end Sys2Proof.Machine
end

