-- ==== Sys2Proof/Machine/Step.lean ====
section
/-! DEFINITION. One step of the block (45_scheduler_and_control.md R144), and the placing of one instruction where the next
step fetches it. -/

namespace Sys2Proof.Machine

/-- A host step: the word is decoded and executed, or rejected with `IllegalCommand` (R144, 60_exceptions.md R158). -/
def hostStep (c : CommandWord) (s : State) : Host.Outcome State Fault Refusal :=
  match decodeCommand c with
  | .ok i => exec i s
  | .error _ => .next (s.reject .illegalCommand)

/-- A sequencer step: the slot `SLOT` names, on the inputs just sampled (R141). -/
def sequencerStep (s : State) : Host.Outcome State Fault Refusal :=
  match s.cfg.seq[s.slot]? with
  | none => .refused .noSuchSlot
  | some d =>
    match decodeSlot d with
    | .ok i => exec i s
    | .error _ => .refused .noSuchSlot

/-- One step (R144). -/
def step (s : State) : Host.Outcome State Fault Refusal :=
  match s.agent with
  | .reset t0 => .next (s.passTurn.applyReset t0)
  | .idle => .next s.passTurn
  | .host c => hostStep c s.passTurn.acceptCommand
  | .sequencer => sequencerStep s.passTurn.sampleInputs

/-- The slot where a kind may stand: MODE in slot 0, PRESENT in the last, an animator in slot 1 (R140). -/
def placeFor (cfg : Config) (kind : Byte) : Nat :=
  if kind = 0x00#8 then 0 else if kind = 0x0F#8 then cfg.nslot - 1 else 1

/-- The inputs of the placed slot, where the environment has supplied none: tick 0 and a legal draw
(notes/assumptions/15.md). -/
def placedInputs (cfg : Config) : List SeqInput := [⟨0, { Draw.zero with resetDelay := cfg.decayResetMin }⟩]

/-- `s` with the instruction placed where `step` fetches next. A command word goes to the head of the command port, and
the next turn is the host's at `SLOT = 0`; a slot kind goes into the slot program where the kind may stand, and the next
turn is the sequencer's at that slot, with `RUN = 1` and an input to sample (notes/assumptions/15.md). -/
def State.withFetchWord (s : State) (nbits w : Nat) : State :=
  if nbits = 64 then
    { s with commands := BitVec.ofNat 64 w :: s.commands, schedule := .host :: s.schedule, slot := 0 }
  else
    let kind := BitVec.ofNat 8 w
    let k := placeFor s.cfg kind
    { s with
      cfg := { s.cfg with seq := s.cfg.seq.set k (SlotDesc.mk kind 0 [] 0 0) }
      slot := k
      run := true
      schedule := .sequencer :: s.schedule
      seqInputs := if s.seqInputs.isEmpty then placedInputs s.cfg else s.seqInputs }

end Sys2Proof.Machine
end

