-- ==== Sys2Proof/Machine/Assembly.lean ====
section
/-! DEFINITION. The assembler's lines (30_encoding.md R57 to R59), as a mnemonic and its operands. -/

namespace Sys2Proof.Machine

/-- An operand as it is written: a number, the wrap flag, or the rows of a seed (R57, R59). -/
inductive AsmOperand where
  | num (v : Int)
  | wrap
  | nowrap
  | seed (rows : List Nat)
  deriving DecidableEq, Repr

/-- A line: the mnemonic first, then the operands in the order of the source's argument lists (R57). -/
structure AsmLine where
  mnemonic : String
  operands : List AsmOperand
  deriving DecidableEq, Repr

/-- An unsigned operand of eight bits (R51). -/
def asmByte (v : Int) : Option (BitVec 8) := if 0 ≤ v ∧ v ≤ 255 then some (BitVec.ofInt 8 v) else none

/-- A shift amount: sixteen bits, two's complement (R51). -/
def asmShift (v : Int) : Option (BitVec 16) := if -32768 ≤ v ∧ v ≤ 32767 then some (BitVec.ofInt 16 v) else none

/-- A pixel value, 0 or 1 (R57). -/
def asmBit (v : Int) : Option Bool := if v = 0 then some false else if v = 1 then some true else none

/-- A number that a record field of a slot descriptor holds (R59). -/
def asmNat (v : Int) : Option Nat := if 0 ≤ v then some v.toNat else none

/-- The operands of a window command: `x, y, w, h` and the shift (R57). -/
def asmWindow (x y w h shift : Int) (wrap : Bool) : Option Instr := do
  some (.shiftregion (← asmByte x) (← asmByte y) (← asmByte w) (← asmByte h) (← asmShift shift) wrap)

/-- The host command a line stands for, the pseudo-instructions of R58 among them. -/
def assembleCommand (line : AsmLine) : Option Instr :=
  match line.operands with
  | [] =>
    if line.mnemonic = "NOP" then some .nop
    else if line.mnemonic = "RUN" then some .run
    else if line.mnemonic = "HALT" then some .halt
    else if line.mnemonic = "RDSTATUS" then some .rdstatus
    else none
  | [.num id] => if line.mnemonic = "REGIONOF" then (asmByte id).map .regionof else none
  | [.num x, .num y] =>
    if line.mnemonic = "GETPIXEL" then do some (.getpixel (← asmByte x) (← asmByte y))
    else if line.mnemonic = "CLRPIXEL" then do some (Instr.clrpixel (← asmByte x) (← asmByte y))
    else none
  | [.num x, .num y, .num bit] =>
    if line.mnemonic = "SETPIXEL" then do some (.setpixel (← asmByte x) (← asmByte y) (← asmBit bit)) else none
  | [.num x, .num y, .num w, .num h] =>
    if line.mnemonic = "CLRREGION" then do
      some (Instr.clrregion (← asmByte x) (← asmByte y) (← asmByte w) (← asmByte h))
    else none
  | [.num x, .num y, .num w, .num h, .num shift] =>
    if line.mnemonic = "ROTREGION" then asmWindow x y w h shift true else none
  | [.num x, .num y, .num w, .num h, .num shift, .wrap] =>
    if line.mnemonic = "SHIFTREGION" then asmWindow x y w h shift true else none
  | [.num x, .num y, .num w, .num h, .num shift, .nowrap] =>
    if line.mnemonic = "SHIFTREGION" then asmWindow x y w h shift false else none
  | _ => none

/-- The command word a line assembles to (R57, R58). -/
def assemble (line : AsmLine) : Option CommandWord :=
  match (assembleCommand line).map encode with
  | some (.word c) => some c
  | _ => none

/-- The slot operation a line of a slot program stands for (R59). -/
def assembleSlotInstr (line : AsmLine) : Option Instr :=
  match line.operands with
  | [] => if line.mnemonic = "MODE" then some .pollMode else if line.mnemonic = "PRESENT" then some .present else none
  | [.num region] => if line.mnemonic = "NOISE" then (asmNat region).map .pollNoise else none
  | [.num region, .num period] =>
    if line.mnemonic = "CLOCK" then do some (.pollClock (← asmNat region) (← asmNat period))
    else if line.mnemonic = "DECAY" then do some (.pollDecay (← asmNat region) (← asmNat period))
    else if line.mnemonic = "LIFE" then do some (.pollLife (← asmNat region) (← asmNat period))
    else none
  | [.num region, .seed rows, .num shift, .num period] =>
    if line.mnemonic = "PATTERN" then do some (.pollPattern (← asmNat region) rows shift (← asmNat period)) else none
  | _ => none

/-- The slot descriptor a line of a slot program stands for (R59). -/
def assembleSlot (line : AsmLine) : Option SlotDesc :=
  match (assembleSlotInstr line).map encode with
  | some (.slot d) => some d
  | _ => none

end Sys2Proof.Machine
end

