-- ==== Sys2Proof/WellFormed.lean ====
section
/-! DEFINITION. What a well-formed instruction and a well-formed configuration are: the three construction checks
(70_reset_and_hazards.md R176 to R178). -/

namespace Sys2Proof

/-- The record fields of a slot operation are legal under `cfg` (R177, R178). The operands of a host command are legal
at every value its fields can hold (30_encoding.md R51). -/
def Instr.wellFormed (cfg : Config) : Instr → Bool
  | .nop => true
  | .setpixel _ _ _ => true
  | .getpixel _ _ => true
  | .shiftregion _ _ _ _ _ _ => true
  | .regionof _ => true
  | .run => true
  | .halt => true
  | .rdstatus => true
  | .pollMode => true
  | .pollPattern region seed _ period =>
    match cfg.regions[region]? with
    | none => false
    | some g => decide (seed.length = g.h) && seed.all (fun v => decide (v < 2 ^ g.w)) && cfg.legalInterval period
  | .pollClock region period => decide (region < cfg.nreg) && cfg.legalInterval period
  | .pollDecay region period => decide (region < cfg.nreg) && cfg.legalInterval period
  | .pollLife region period => decide (region < cfg.nreg) && cfg.legalInterval period
  | .pollNoise region => decide (region < cfg.nreg)
  | .present => true

/-- A region is non-empty and lies inside the surface (R176). -/
def Region.wellFormed (cfg : Config) (g : Region) : Bool :=
  decide (1 ≤ g.w) && decide (1 ≤ g.h) && cfg.windowInside g.x g.y g.w g.h

/-- Check 1, geometry (R176). -/
def Config.geometryOk (cfg : Config) : Bool :=
  decide (1 ≤ cfg.width) && decide (cfg.width ≤ 255) && decide (1 ≤ cfg.height) && decide (cfg.height ≤ 255) &&
  decide (cfg.nreg ≤ 256) && cfg.regions.all (Region.wellFormed cfg)

/-- Check 2, numbers (R177); the periods of the slots are looked at with the slots. -/
def Config.numbersOk (cfg : Config) : Bool :=
  decide (2 ≤ cfg.tickBits) && decide (1 ≤ cfg.tps) && decide (1 ≤ cfg.uBits) &&
  decide (cfg.fastChanceN ≤ 2 ^ cfg.uBits) &&
  cfg.legalInterval cfg.relaxRunTime && cfg.legalInterval cfg.fastRunTime &&
  !cfg.slowDelays.isEmpty && cfg.slowDelays.all cfg.legalInterval &&
  !cfg.fastDelays.isEmpty && cfg.fastDelays.all cfg.legalInterval &&
  cfg.legalInterval cfg.decayResetMax && decide (cfg.maxAgeTicks < cfg.half - 1)

/-- An animator slot: one of the five kinds, with legal record fields (R178). -/
def SlotDesc.animatorOk (cfg : Config) (d : SlotDesc) : Bool :=
  match decodeSlot d with
  | .ok i => i.isAnimator && i.wellFormed cfg
  | .error _ => false

/-- Check 3, the slot program: MODE first, PRESENT last, animators between (R178; 45_scheduler_and_control.md R140). -/
def Config.slotProgramOk (cfg : Config) : Bool :=
  decide (2 ≤ cfg.nslot) &&
  decide (cfg.seq[0]?.map decodeSlot = some (.ok .pollMode)) &&
  decide (cfg.seq[cfg.nslot - 1]?.map decodeSlot = some (.ok .present)) &&
  ((cfg.seq.drop 1).take cfg.nanim).all (SlotDesc.animatorOk cfg)

/-- The configuration passes checks 1 to 3: the block can be built from it (R174). -/
def Config.wellFormed (cfg : Config) : Bool := cfg.geometryOk && cfg.numbersOk && cfg.slotProgramOk

end Sys2Proof
end

