-- ==== Sys2Proof/Machine/Construct.lean ====
section
/-! DEFINITION. Building a block: a configuration is checked once, and refused if it fails
(70_reset_and_hazards.md R174, 60_exceptions.md R162). -/

namespace Sys2Proof.Machine

/-- The block built from `cfg`, reset at tick `t0`; a configuration that fails checks 1 to 3 builds none (R174). -/
def construct (cfg : Config) (t0 : Tick) : Host.Outcome State Fault Refusal :=
  if cfg.wellFormed then .next (State.resetAt cfg t0) else .refused .malformedConfiguration

end Sys2Proof.Machine
end

