-- ==== Sys2Proof/Safety.lean ====
section
/-! DEFINITION. What counts as a safe state, a legal input and an answered step, in the terms the claims use. -/

namespace Sys2Proof.Machine

/-- The step went on: it stopped with no fault and no refusal. -/
def Answers (o : Host.Outcome State Fault Refusal) : Prop := ∃ t, o = .next t

/-- A draw within the random contract, for the delay set the mode selects (00_scope.md R15;
93_implementation_defined.md U23, U24). -/
def Draw.legal (cfg : Config) (mode : Mode) (d : Draw) : Bool :=
  resetDelayLegal cfg d.resetDelay && decide (d.idx < (delaySet cfg mode).length)

/-- The mode that the noise slot of the cycle now beginning reads: as the check in slot 0 leaves it
(43_section_animators.md R123, 45_scheduler_and_control.md R140). -/
def State.cycleMode (s : State) : Mode :=
  let u := s.passTurn.sampleInputs
  if due u.cfg u.now u.modeDue then (modeCheck u).mode else u.mode

/-- Every draw the environment has supplied for the slots after slot 0 of the cycle now beginning is within the random
contract. Slot 0 uses no field that could be outside it (00_scope.md R15). -/
def State.cycleInputsLegal (s : State) : Bool :=
  (s.seqInputs.take s.cfg.nslot).tail.all fun inp => inp.draw.legal s.cfg s.cycleMode

/-- The draw the next sequencer step takes, where the environment supplied one, is within the random contract for the
mode as it stands. -/
def State.nextInputLegal (s : State) : Bool :=
  match s.seqInputs with
  | inp :: _ => inp.draw.legal s.cfg s.mode
  | [] => true

/-- Every deadline of an animator is a tick value. -/
def Animator.ticksInRange (cfg : Config) (a : Animator) : Bool :=
  decide (a.nextDue < cfg.tickSpan) && decide (a.nextReset < cfg.tickSpan) && decide (a.createdAt < cfg.tickSpan)

/-- The padding bits of every row are 0 (10_state.md R21). -/
def paddingClear (cfg : Config) (m : Memory) : Bool :=
  (List.range cfg.height).all fun y =>
    (List.range (8 * cfg.stride)).all fun x => decide (x < cfg.width) || !fbGet cfg m x y

/-- The invariant of the block: what 10_state.md R20 to R33 say of its state. -/
structure State.Inv (s : State) : Prop where
  /-- The configuration passed the construction checks (70_reset_and_hazards.md R174). -/
  cfg_wf : s.cfg.wellFormed = true
  /-- The framebuffer is in canonical form. -/
  mem_wf : s.mem.wf = true
  /-- The framebuffer has no byte outside `0 .. H*STRIDE - 1` (R20). -/
  mem_inside : ∀ c ∈ s.mem, c.1 < s.cfg.fbBytes
  /-- Padding bits stay 0 (R21). -/
  padding : paddingClear s.cfg s.mem = true
  /-- `SLOT` names a slot (R24). -/
  slot_lt : s.slot < s.cfg.nslot
  /-- `CHANGED = 0` whenever `SLOT = 0` (R25). -/
  unchanged_between_cycles : s.slot = 0 → s.changed = false
  /-- `RUN = 0` holds the sequencer at `SLOT = 0` (R26). -/
  held_at_slot_zero : s.run = false → s.slot = 0
  /-- One record per animator slot (R29). -/
  animators_length : s.animators.length = s.cfg.nanim
  /-- `MODE_DUE` is a tick value (R27). -/
  mode_due_lt : s.modeDue < s.cfg.tickSpan
  /-- Every animator's deadlines are tick values (R29 to R31). -/
  animator_ticks : ∀ a ∈ s.animators, a.ticksInRange s.cfg = true
  /-- The sampled tick is a tick value (00_scope.md R14). -/
  now_lt : s.now < s.cfg.tickSpan
  /-- Every present event carries all `H*STRIDE` bytes (R33). -/
  images_whole : ∀ img ∈ s.out, img.length = s.cfg.fbBytes

/-! ## Windows -/

/-- The pixel `(x', y')` lies in the window (40_framebuffer.md R66). -/
def inWindow (x y w h x' y' : Nat) : Prop := x ≤ x' ∧ x' < x + w ∧ y ≤ y' ∧ y' < y + h

/-- The byte `a` holds a pixel of the window, by the address computation of every pixel write (20_memory.md R38). -/
def windowByte (cfg : Config) (x y w h a : Nat) : Prop := ∃ j r, j < w ∧ r < h ∧ a = pixelAddr cfg (x + j) (y + r)

/-- From `m` to `m'` nothing changed outside the window: no byte that holds no pixel of it, and, in the bytes that do,
no bit that belongs to no pixel of it, padding included (20_memory.md R41, 40_framebuffer.md R72). -/
def SameOutside (cfg : Config) (m m' : Memory) (x y w h : Nat) : Prop :=
  (∀ a, ¬windowByte cfg x y w h a → m'.read a = m.read a) ∧
    ∀ x' y', x' < 8 * cfg.stride → ¬inWindow x y w h x' y' → fbGet cfg m' x' y' = fbGet cfg m x' y'

/-- The unsigned integer whose bits are the `n` pixels from `(x, y)` rightward, the leftmost most significant
(40_framebuffer.md R76). -/
def rowValue (cfg : Config) (m : Memory) (x y : Nat) : Nat → Nat
  | 0 => 0
  | n + 1 => 2 * rowValue cfg m x y n + (fbGet cfg m (x + n) y).toNat

/-! ## Slots -/

/-- The slot `SLOT` can run an animator on region `g` with record `a`: the sequencer runs, the region is registered and
lies inside the framebuffer, and `SLOT` has the record (43_section_animators.md R111, 41_region_registry.md R84). -/
def SlotReady (s : State) (region : Nat) (g : Region) (a : Animator) : Prop :=
  s.run = true ∧ s.cfg.regions[region]? = some g ∧ s.cfg.windowInside g.x g.y g.w g.h = true ∧ 1 ≤ s.slot ∧
    s.animators[s.slot - 1]? = some a

/-- The region an animator slot draws in (30_encoding.md R54). -/
def animatorRegion : Instr → Option Nat
  | .pollPattern region _ _ _ => some region
  | .pollClock region _ => some region
  | .pollDecay region _ => some region
  | .pollLife region _ => some region
  | .pollNoise region => some region
  | .nop => none
  | .setpixel _ _ _ => none
  | .getpixel _ _ => none
  | .shiftregion _ _ _ _ _ _ => none
  | .regionof _ => none
  | .run => none
  | .halt => none
  | .rdstatus => none
  | .pollMode => none
  | .present => none

/-- The Life tick on region `g` and record `a` must make a new random board: on the first tick, or when one of the four
triggers fires, each read cell by cell from the candidate (42_life_engine.md R96 to R99, R103). -/
def LifeMustReseed (s : State) (g : Region) (a : Animator) : Prop :=
  a.lifeState = false ∨
    (∀ r c, r < g.h → c < g.w → Grid.cell (nextBoard g.h g.w a.board) r c = Grid.cell a.board r c) ∨
    (a.hist1Valid = true ∧
      ∀ r c, r < g.h → c < g.w → Grid.cell (nextBoard g.h g.w a.board) r c = Grid.cell a.hist1 r c) ∨
    (∀ r c, r < g.h → c < g.w → Grid.cell (nextBoard g.h g.w a.board) r c = false) ∨
    (s.cfg.maxAgeTicks : Int) < signedDiff s.cfg s.now a.createdAt

/-! ## The Life engine without valid bits (42_life_engine.md R105) -/

/-- The all-dead board of region `g`. -/
def deadBoard (g : Region) : Grid := Grid.ofFn g.h g.w fun _ _ => false

/-- The record of an engine that has no valid bits: a slot that is not valid is the all-dead board. -/
def Animator.withDeadHistory (a : Animator) (g : Region) : Animator :=
  { a with
    hist1 := if a.hist1Valid then a.hist1 else deadBoard g
    hist2 := if a.hist2Valid then a.hist2 else deadBoard g
    hist1Valid := false
    hist2Valid := false }

/-- `reseed()` of such an engine: the history slots are cleared to the all-dead board. -/
def lifeReseedNoValid (s : State) (g : Region) (a : Animator) : Animator :=
  { a with
    board := Grid.ofFn g.h g.w (Grid.cell s.draw.cells)
    hist1 := deadBoard g
    hist2 := deadBoard g
    createdAt := s.now }

/-- `step()` of such an engine, its triggers in the opposite order (R101). -/
def lifeStepNoValid (s : State) (g : Region) (a : Animator) : Animator :=
  let cand := nextBoard g.h g.w a.board
  if triggerAge s a then lifeReseedNoValid s g a
  else if triggerExtinct g cand then lifeReseedNoValid s g a
  else if Grid.same g.h g.w cand a.hist1 then lifeReseedNoValid s g a
  else if triggerStill g a cand then lifeReseedNoValid s g a
  else { a with hist2 := a.hist1, hist1 := a.board, board := cand }

/-- A due Life tick of such an engine. -/
def lifeTickNoValid (s : State) (g : Region) (a : Animator) : Animator :=
  if a.lifeState then lifeStepNoValid s g a else { lifeReseedNoValid s g a with lifeState := true }

/-! ## Hidden state -/

/-- The state with every second history slot blanked (10_state.md R32 a). -/
def State.forgetH2 (s : State) : State :=
  { s with animators := s.animators.map fun a => { a with hist2 := [], hist2Valid := false } }

/-- An outcome with its next state blanked in the same way. -/
def outcomeForgetH2 : Host.Outcome State Fault Refusal → Host.Outcome State Fault Refusal
  | .next s => .next s.forgetH2
  | .fault f => .fault f
  | .refused r => .refused r

end Sys2Proof.Machine
end

