-- ==== Sys2Proof/Certificates/Slice0/Obligations.lean ====
section
/-! DEFINITION. The statements for the provers. Each says in its docstring which rule of spec/ it formalises. -/

open Sys2Proof Sys2Proof.Machine

/-! ## Encoding -/

/-- Decode and encode agree, for every instruction with every operand (30_encoding.md R50, R51, R53, R54). -/
def Obligations.DecodeOfEncode : Prop := ∀ i : Instr, decode (encode i) = .ok i

/-- A word that decodes is the one word its instruction encodes to: no bit of a legal word is ignored
(30_encoding.md R53, R55). -/
def Obligations.EncodeOfDecodedCommand : Prop :=
  ∀ (c : CommandWord) (i : Instr), decodeCommand c = .ok i → encode i = .word c

/-- A word is the named command exactly when it matches the row's mask and pattern, and no word matches two rows
(30_encoding.md R53). -/
def Obligations.CommandNamedByMaskAndMatch : Prop :=
  ∀ c : CommandWord,
    (decodeCommand c = .ok .nop ↔ c &&& 0xFFFFFFFFFFFFFFFF#64 = 0x0000000000000000#64) ∧
    ((∃ x y bit, decodeCommand c = .ok (.setpixel x y bit)) ↔ c &&& 0xFFFE0000FFFFFFFF#64 = 0x0100000000000000#64) ∧
    ((∃ x y, decodeCommand c = .ok (.getpixel x y)) ↔ c &&& 0xFFFF0000FFFFFFFF#64 = 0x0200000000000000#64) ∧
    ((∃ x y w h shift wrap, decodeCommand c = .ok (.shiftregion x y w h shift wrap)) ↔
      c &&& 0xFFFE000000000000#64 = 0x0300000000000000#64) ∧
    ((∃ id, decodeCommand c = .ok (.regionof id)) ↔ c &&& 0xFF00FFFFFFFFFFFF#64 = 0x0400000000000000#64) ∧
    (decodeCommand c = .ok .run ↔ c &&& 0xFFFFFFFFFFFFFFFF#64 = 0x1000000000000000#64) ∧
    (decodeCommand c = .ok .halt ↔ c &&& 0xFFFFFFFFFFFFFFFF#64 = 0x1100000000000000#64) ∧
    (decodeCommand c = .ok .rdstatus ↔ c &&& 0xFFFFFFFFFFFFFFFF#64 = 0x1200000000000000#64) ∧
    (commandRows.filter fun row => row.selects c).length ≤ 1

/-- Which words are commands, field by field: every other `op`, and every known `op` with a non-zero bit in a field the
command does not use, decodes to nothing (30_encoding.md R55). -/
def Obligations.LegalWordsFieldByField : Prop :=
  ∀ (c : CommandWord) (op a x y w h s : Nat),
    op = c.toNat / 2 ^ 56 → a = c.toNat / 2 ^ 48 % 256 → x = c.toNat / 2 ^ 40 % 256 → y = c.toNat / 2 ^ 32 % 256 →
    w = c.toNat / 2 ^ 24 % 256 → h = c.toNat / 2 ^ 16 % 256 → s = c.toNat % 65536 →
    ((∃ i, decodeCommand c = .ok i) ↔
      ((op = 0 ∨ op = 0x10 ∨ op = 0x11 ∨ op = 0x12) ∧ a = 0 ∧ x = 0 ∧ y = 0 ∧ w = 0 ∧ h = 0 ∧ s = 0) ∨
      (op = 1 ∧ a ≤ 1 ∧ w = 0 ∧ h = 0 ∧ s = 0) ∨
      (op = 2 ∧ a = 0 ∧ w = 0 ∧ h = 0 ∧ s = 0) ∨
      (op = 3 ∧ a ≤ 1) ∨
      (op = 4 ∧ x = 0 ∧ y = 0 ∧ w = 0 ∧ h = 0 ∧ s = 0))

/-- The operands of a legal word are its fields: unsigned bytes, the flag in bit 48, the shift as two's complement of
the low 16 bits (30_encoding.md R51). -/
def Obligations.OperandsAreTheWordsFields : Prop :=
  ∀ (c : CommandWord) (x y w h id : BitVec 8) (shift : BitVec 16) (flag : Bool),
    (decodeCommand c = .ok (.setpixel x y flag) →
      x.toNat = c.toNat / 2 ^ 40 % 256 ∧ y.toNat = c.toNat / 2 ^ 32 % 256 ∧ flag = (c.toNat / 2 ^ 48 % 2 == 1)) ∧
    (decodeCommand c = .ok (.getpixel x y) →
      x.toNat = c.toNat / 2 ^ 40 % 256 ∧ y.toNat = c.toNat / 2 ^ 32 % 256) ∧
    (decodeCommand c = .ok (.shiftregion x y w h shift flag) →
      x.toNat = c.toNat / 2 ^ 40 % 256 ∧ y.toNat = c.toNat / 2 ^ 32 % 256 ∧ w.toNat = c.toNat / 2 ^ 24 % 256 ∧
        h.toNat = c.toNat / 2 ^ 16 % 256 ∧ shiftAmount shift = sext 16 (c.toNat % 2 ^ 16) ∧
        flag = (c.toNat / 2 ^ 48 % 2 == 1)) ∧
    (decodeCommand c = .ok (.regionof id) → id.toNat = c.toNat / 2 ^ 48 % 256)

/-- The kind byte alone selects the slot operation, and takes its operands from the record; any other kind selects
none (30_encoding.md R54, R56). -/
def Obligations.KindByteSelectsSlotOperation : Prop :=
  ∀ (kind : Byte) (region : Nat) (seed : List Nat) (shift : Int) (period : Nat) (i : Instr),
    decodeSlot ⟨kind, region, seed, shift, period⟩ = .ok i ↔
      (kind = 0x00#8 ∧ i = .pollMode) ∨ (kind = 0x01#8 ∧ i = .pollPattern region seed shift period) ∨
      (kind = 0x02#8 ∧ i = .pollClock region period) ∨ (kind = 0x03#8 ∧ i = .pollDecay region period) ∨
      (kind = 0x04#8 ∧ i = .pollLife region period) ∨ (kind = 0x05#8 ∧ i = .pollNoise region) ∨
      (kind = 0x0F#8 ∧ i = .present)

/-- The words the spec writes out decode to the commands it writes beside them (30_encoding.md R57). -/
def Obligations.WrittenOutWordsDecode : Prop :=
  decodeCommand 0x0301000008080001#64 = .ok (.shiftregion 0 0 8 8 1 true) ∧
  decodeCommand 0x030024020403FFFF#64 = .ok (.shiftregion 36 2 4 3 (BitVec.ofInt 16 (-1)) false) ∧
  decodeCommand 0x01015F0700000000#64 = .ok (.setpixel 95 7 true) ∧
  decodeCommand 0x0200600000000000#64 = .ok (.getpixel 96 0) ∧
  decodeCommand 0x0403000000000000#64 = .ok (.regionof 3)

/-! ## Host commands -/

/-- `SETPIXEL` sets exactly one bit, or is rejected with `OutOfBounds` and changes no byte (40_framebuffer.md R64,
20_memory.md R40, R42). -/
def Obligations.SetpixelWritesOnePixel : Prop :=
  ∀ (s : State) (x y : BitVec 8) (bit : Bool), s.slot = 0 →
    (x.toNat < s.cfg.width → y.toNat < s.cfg.height →
      ∃ t, exec (.setpixel x y bit) s = .next t ∧
        t = { s with mem := t.mem, responses := s.responses ++ [0x0000000000000000#64] } ∧
        fbGet s.cfg t.mem x.toNat y.toNat = bit ∧
        (∀ x' y', x' < 8 * s.cfg.stride → (x' ≠ x.toNat ∨ y' ≠ y.toNat) →
          fbGet s.cfg t.mem x' y' = fbGet s.cfg s.mem x' y') ∧
        ∀ a, a ≠ pixelAddr s.cfg x.toNat y.toNat → t.mem.read a = s.mem.read a) ∧
    ((s.cfg.width ≤ x.toNat ∨ s.cfg.height ≤ y.toNat) →
      exec (.setpixel x y bit) s =
        .next { s with errFlags := s.errFlags ||| 0b001#3, responses := s.responses ++ [0x0100000000000000#64] })

/-- `GETPIXEL` answers the pixel and changes nothing else, or is rejected (40_framebuffer.md R65). -/
def Obligations.GetpixelAnswersThePixel : Prop :=
  ∀ (s : State) (x y : BitVec 8), s.slot = 0 →
    (x.toNat < s.cfg.width → y.toNat < s.cfg.height →
      ∃ v, (v = 0 ∨ v = 1) ∧
        (v = 1 ↔ (s.mem.read (y.toNat * s.cfg.stride + x.toNat / 8)).getLsbD (7 - x.toNat % 8) = true) ∧
        exec (.getpixel x y) s = .next { s with responses := s.responses ++ [BitVec.ofNat 64 v] }) ∧
    ((s.cfg.width ≤ x.toNat ∨ s.cfg.height ≤ y.toNat) →
      exec (.getpixel x y) s =
        .next { s with errFlags := s.errFlags ||| 0b001#3, responses := s.responses ++ [0x0100000000000000#64] })

/-- `SHIFTREGION` rotates or shifts each row of the window, touches nothing outside it, or is rejected before anything
moves (40_framebuffer.md R66 to R69, R72). -/
def Obligations.ShiftregionMovesTheWindow : Prop :=
  ∀ (s : State) (x y w h : BitVec 8) (shift : BitVec 16) (wrap : Bool), s.slot = 0 →
    (x.toNat + w.toNat ≤ s.cfg.width → y.toNat + h.toNat ≤ s.cfg.height →
      ∃ t, exec (.shiftregion x y w h shift wrap) s = .next t ∧
        t = { s with mem := t.mem, responses := s.responses ++ [0x0000000000000000#64] } ∧
        SameOutside s.cfg s.mem t.mem x.toNat y.toNat w.toNat h.toNat ∧
        ∀ i r, i < w.toNat → r < h.toNat →
          (wrap = true →
            fbGet s.cfg t.mem (x.toNat + (((i : Int) + shift.toInt) % (w.toNat : Int)).toNat) (y.toNat + r) =
              fbGet s.cfg s.mem (x.toNat + i) (y.toNat + r)) ∧
          (wrap = false →
            fbGet s.cfg t.mem (x.toNat + i) (y.toNat + r) =
              if 0 ≤ (i : Int) - shift.toInt ∧ (i : Int) - shift.toInt < (w.toNat : Int) then
                fbGet s.cfg s.mem (x.toNat + ((i : Int) - shift.toInt).toNat) (y.toNat + r)
              else false)) ∧
    ((s.cfg.width < x.toNat + w.toNat ∨ s.cfg.height < y.toNat + h.toNat) →
      exec (.shiftregion x y w h shift wrap) s =
        .next { s with errFlags := s.errFlags ||| 0b001#3, responses := s.responses ++ [0x0100000000000000#64] })

/-- The no-op cases of the region shift answer `OK` and leave the framebuffer as it was: shift 0, an empty window, and a
rotation by a multiple of the width (40_framebuffer.md R70). -/
def Obligations.ShiftNoOpsLeaveTheFramebuffer : Prop :=
  ∀ (s : State) (x y w h : BitVec 8) (shift : BitVec 16) (wrap : Bool), s.slot = 0 → s.mem.wf = true →
    x.toNat + w.toNat ≤ s.cfg.width → y.toNat + h.toNat ≤ s.cfg.height →
    (shift = 0#16 ∨ w = 0#8 ∨ h = 0#8 ∨ (wrap = true ∧ (w.toNat : Int) ∣ shift.toInt)) →
    exec (.shiftregion x y w h shift wrap) s =
      .next { s with responses := s.responses ++ [0x0000000000000000#64] }

/-- `CLRREGION`, an unwrapped shift by the window's own width, zeroes the whole window and nothing else
(30_encoding.md R58, 40_framebuffer.md R71). -/
def Obligations.ClrregionZeroesTheWindow : Prop :=
  ∀ (s : State) (x y w h : BitVec 8), s.slot = 0 →
    x.toNat + w.toNat ≤ s.cfg.width → y.toNat + h.toNat ≤ s.cfg.height →
    ∃ t, exec (Instr.clrregion x y w h) s = .next t ∧
      SameOutside s.cfg s.mem t.mem x.toNat y.toNat w.toNat h.toNat ∧
      ∀ i r, i < w.toNat → r < h.toNat → fbGet s.cfg t.mem (x.toNat + i) (y.toNat + r) = false

/-- On a byte-aligned window of width 8 a wrapped shift by +1 rotates each byte right, by -1 left
(40_framebuffer.md R67; the spec's own inference R75). -/
def Obligations.AlignedShiftRotatesBytes : Prop :=
  ∀ (cfg : Config) (m : Memory) (x y h r : Nat), x % 8 = 0 → x + 8 ≤ cfg.width → y + h ≤ cfg.height → r < h →
    (fbShift cfg m x y 8 h 1 true).read ((y + r) * cfg.stride + x / 8) =
      (m.read ((y + r) * cfg.stride + x / 8)).rotateRight 1 ∧
    (fbShift cfg m x y 8 h (-1) true).read ((y + r) * cfg.stride + x / 8) =
      (m.read ((y + r) * cfg.stride + x / 8)).rotateLeft 1

/-- The laws of repeated shifts: two rotations of a window are one by the sum, `w` rotations by 1 are the identity, and
unwrapped shifts of the same sign add (40_framebuffer.md R67, R68; the spec's own inference R73). -/
def Obligations.RotationsCompose : Prop :=
  ∀ (cfg : Config) (m : Memory) (x y w h : Nat) (s1 s2 : Int), m.wf = true →
    x + w ≤ cfg.width → y + h ≤ cfg.height →
    fbShift cfg (fbShift cfg m x y w h s1 true) x y w h s2 true = fbShift cfg m x y w h (s1 + s2) true ∧
    (fun m => fbShift cfg m x y w h 1 true)^[w] m = m ∧
    (0 ≤ s1 * s2 →
      fbShift cfg (fbShift cfg m x y w h s1 false) x y w h s2 false = fbShift cfg m x y w h (s1 + s2) false)

/-- The word-level form of the shift: the window row as one integer, shifted and masked, is the window row after the
shift (40_framebuffer.md R67, R68; the spec's own inference R76). -/
def Obligations.ShiftIsTheWordLevelForm : Prop :=
  ∀ (cfg : Config) (m : Memory) (x y w h r k v : Nat) (shift : Int), 1 ≤ w → r < h →
    x + w ≤ cfg.width → y + h ≤ cfg.height → v = rowValue cfg m x (y + r) w → k = (shift % (w : Int)).toNat →
    rowValue cfg (fbShift cfg m x y w h shift true) x (y + r) w = ((v >>> k) ||| (v <<< (w - k))) &&& (2 ^ w - 1) ∧
    ((shift ≥ w ∨ shift ≤ -(w : Int)) → rowValue cfg (fbShift cfg m x y w h shift false) x (y + r) w = 0) ∧
    (0 < shift → shift < w → rowValue cfg (fbShift cfg m x y w h shift false) x (y + r) w = v >>> shift.toNat) ∧
    (-(w : Int) < shift → shift < 0 →
      rowValue cfg (fbShift cfg m x y w h shift false) x (y + r) w = (v <<< (-shift).toNat) &&& (2 ^ w - 1))

/-- `REGIONOF` answers the geometry of a registered region packed in four bytes, or is rejected with `UnknownRegion`;
it changes nothing else (41_region_registry.md R83). -/
def Obligations.RegionofAnswersTheGeometry : Prop :=
  ∀ (s : State) (id : BitVec 8), s.slot = 0 → s.cfg.wellFormed = true →
    (∀ g, s.cfg.regions[id.toNat]? = some g →
      exec (.regionof id) s =
        .next { s with
          responses := s.responses ++ [BitVec.ofNat 64 (g.x * 2 ^ 24 + g.y * 2 ^ 16 + g.w * 2 ^ 8 + g.h)] }) ∧
    (s.cfg.nreg ≤ id.toNat →
      exec (.regionof id) s =
        .next { s with errFlags := s.errFlags ||| 0b010#3, responses := s.responses ++ [0x0200000000000000#64] })

/-- `NOP`, `RUN` and `HALT` answer `OK`; `RUN` sets the run bit, `HALT` clears it, and nothing else changes
(45_scheduler_and_control.md R148, R149, R150). -/
def Obligations.NopRunHaltComplete : Prop :=
  ∀ s : State, s.slot = 0 →
    exec .nop s = .next { s with responses := s.responses ++ [0x0000000000000000#64] } ∧
    exec .run s = .next { s with run := true, responses := s.responses ++ [0x0000000000000000#64] } ∧
    exec .halt s = .next { s with run := false, responses := s.responses ++ [0x0000000000000000#64] }

/-- `RDSTATUS` answers `RUN` in bit 0, `MODE` in bit 1, `ERRFLAGS` in bits 10:8 and 0 elsewhere, and changes nothing
(45_scheduler_and_control.md R151). -/
def Obligations.RdstatusReportsTheFlags : Prop :=
  ∀ s : State, s.slot = 0 →
    ∃ r : ResponseWord, exec .rdstatus s = .next { s with responses := s.responses ++ [r] } ∧
      r.getLsbD 0 = s.run ∧ (r.getLsbD 1 = true ↔ s.mode = .frantic) ∧
      r.getLsbD 8 = s.errFlags.getLsbD 0 ∧ r.getLsbD 9 = s.errFlags.getLsbD 1 ∧ r.getLsbD 10 = s.errFlags.getLsbD 2 ∧
      ∀ k, k ≠ 0 → k ≠ 1 → k ≠ 8 → k ≠ 9 → k ≠ 10 → r.getLsbD k = false

/-- Every host command gives one response; one with an error status changes nothing but its sticky flag, and carries no
data (60_exceptions.md R155, 30_encoding.md R52). -/
def Obligations.OneResponseAndCleanRejection : Prop :=
  ∀ (i : Instr) (s : State), i.isHostCommand = true → s.slot = 0 →
    ∃ (t : State) (status : BitVec 8) (data : BitVec 32),
      exec i s = .next t ∧ t.responses = s.responses ++ [(status ++ 0#24 ++ data : BitVec (8 + 24 + 32))] ∧
      (status = 0#8 → t.errFlags = s.errFlags) ∧
      (status ≠ 0#8 →
        data = 0#32 ∧ (status = 1#8 ∧ t.errFlags = s.errFlags ||| 0b001#3 ∨
          status = 2#8 ∧ t.errFlags = s.errFlags ||| 0b010#3) ∧
        t = { s with errFlags := t.errFlags, responses := t.responses })

/-- A word that is no command is rejected with `IllegalCommand` when it is accepted, whatever its operand fields hold
(60_exceptions.md R158, R159).
The port, the response list and the schedule are the model's, notes/assumptions/5.md, 6.md and 8.md. -/
def Obligations.IllegalWordIsRejected : Prop :=
  ∀ (s : State) (c : CommandWord) (rest : List CommandWord) (turns : List Turn),
    s.slot = 0 → s.commands = c :: rest → s.schedule = .host :: turns → (∀ i, decodeCommand c ≠ .ok i) →
    step s =
      .next { s with
        commands := rest
        schedule := turns
        turn := s.turn + 1
        errFlags := s.errFlags ||| 0b100#3
        responses := s.responses ++ [0x0300000000000000#64] }

/-- A host command given inside a cycle waits: it has no effect and gives no response (45_scheduler_and_control.md R143).
That `exec` itself leaves the state as it is is the model's choice, notes/assumptions/6.md. -/
def Obligations.HostCommandWaitsInsideACycle : Prop :=
  ∀ (i : Instr) (s : State), i.isHostCommand = true → s.slot ≠ 0 → exec i s = .next s

/-! ## Slots -/

/-- While `RUN = 0` the sequencer is held (45_scheduler_and_control.md R142). That `exec` itself leaves the state as it
is is the model's choice, notes/assumptions/7.md. -/
def Obligations.SlotIsHeldWhileNotRunning : Prop :=
  ∀ (i : Instr) (s : State), i.isHostCommand = false → s.run = false → exec i s = .next s

/-- `POLL.MODE`: not due, only `SLOT` moves; due and frantic, relaxed for `RELAX_RUN_TIME`; due and relaxed, the next
check after `FAST_RUN_TIME`, frantic when `draw.u < FAST_CHANCE_N` (44_mode_controller.md R131, R132). -/
def Obligations.PollModeCompletes : Prop :=
  ∀ s : State, s.run = true →
    (signedDiff s.cfg s.now s.modeDue < 0 → exec .pollMode s = .next { s with slot := s.slot + 1 }) ∧
    (0 ≤ signedDiff s.cfg s.now s.modeDue → s.mode = .frantic →
      exec .pollMode s =
        .next { s with
          mode := .relaxed, modeDue := (s.now + s.cfg.relaxRunTime) % 2 ^ s.cfg.tickBits, slot := s.slot + 1 }) ∧
    (0 ≤ signedDiff s.cfg s.now s.modeDue → s.mode = .relaxed → s.draw.u < s.cfg.fastChanceN →
      exec .pollMode s =
        .next { s with
          mode := .frantic, modeDue := (s.now + s.cfg.fastRunTime) % 2 ^ s.cfg.tickBits, slot := s.slot + 1 }) ∧
    (0 ≤ signedDiff s.cfg s.now s.modeDue → s.mode = .relaxed → s.cfg.fastChanceN ≤ s.draw.u →
      exec .pollMode s =
        .next { s with
          mode := .relaxed, modeDue := (s.now + s.cfg.fastRunTime) % 2 ^ s.cfg.tickBits, slot := s.slot + 1 })

/-- An animator that is not due: the step changes `SLOT` and nothing else (43_section_animators.md R111). -/
def Obligations.AnimatorNotDueOnlyMovesSlot : Prop :=
  ∀ (i : Instr) (s : State) (region : Nat) (g : Region) (a : Animator),
    animatorRegion i = some region → SlotReady s region g a → signedDiff s.cfg s.now a.nextDue < 0 →
    exec i s = .next { s with slot := s.slot + 1 }

/-- `POLL.PATTERN` due: the seed on the first due tick, most significant bit leftmost; on every later one the region's
pixels rotated by the shift (43_section_animators.md R113, R114). -/
def Obligations.PollPatternCompletes : Prop :=
  ∀ (s : State) (region : Nat) (seed : List Nat) (shift : Int) (period : Nat) (g : Region) (a : Animator),
    SlotReady s region g a → 0 ≤ signedDiff s.cfg s.now a.nextDue →
    ∃ t, exec (.pollPattern region seed shift period) s = .next t ∧
      t = { s with
        mem := t.mem
        animators := s.animators.set (s.slot - 1)
          { a with initDone := true, nextDue := (s.now + period) % 2 ^ s.cfg.tickBits }
        changed := true
        slot := s.slot + 1 } ∧
      SameOutside s.cfg s.mem t.mem g.x g.y g.w g.h ∧
      ∀ r j, r < g.h → j < g.w →
        (a.initDone = false →
          fbGet s.cfg t.mem (g.x + j) (g.y + r) = (seed.getD r 0).testBit (g.w - 1 - j)) ∧
        (a.initDone = true →
          fbGet s.cfg t.mem (g.x + (((j : Int) + shift) % (g.w : Int)).toNat) (g.y + r) =
            fbGet s.cfg s.mem (g.x + j) (g.y + r))

/-- `POLL.CLOCK` due: the low bits of `now`, bit `k` at region pixel `k`, row by row, pixels beyond the tick's width 0
(43_section_animators.md R116 to R118). -/
def Obligations.PollClockCompletes : Prop :=
  ∀ (s : State) (region period : Nat) (g : Region) (a : Animator),
    SlotReady s region g a → 0 ≤ signedDiff s.cfg s.now a.nextDue →
    ∃ t, exec (.pollClock region period) s = .next t ∧
      t = { s with
        mem := t.mem
        animators := s.animators.set (s.slot - 1) { a with nextDue := (s.now + period) % 2 ^ s.cfg.tickBits }
        changed := true
        slot := s.slot + 1 } ∧
      SameOutside s.cfg s.mem t.mem g.x g.y g.w g.h ∧
      ∀ r j, r < g.h → j < g.w →
        fbGet s.cfg t.mem (g.x + j) (g.y + r) =
          (decide (r * g.w + j < s.cfg.tickBits) && s.now.testBit (r * g.w + j))

/-- `POLL.DECAY` due: a reseed on the first due tick and after the reset deadline, else a decrement modulo `2^32`; the
value is rendered as the clock is (43_section_animators.md R119, R120). -/
def Obligations.PollDecayCompletes : Prop :=
  ∀ (s : State) (region period : Nat) (g : Region) (a : Animator) (v : BitVec 32) (deadline : Tick),
    SlotReady s region g a → 0 ≤ signedDiff s.cfg s.now a.nextDue →
    ((a.initDone = false ∨ 0 ≤ signedDiff s.cfg s.now a.nextReset) ∧
        20 * s.cfg.tps ≤ s.draw.resetDelay ∧ s.draw.resetDelay ≤ 60 * s.cfg.tps ∧
        v = s.draw.u32 ∧ deadline = (s.now + s.draw.resetDelay) % 2 ^ s.cfg.tickBits ∨
      (a.initDone = true ∧ signedDiff s.cfg s.now a.nextReset < 0) ∧
        v.toNat = (a.value.toNat + 2 ^ 32 - 1) % 2 ^ 32 ∧ deadline = a.nextReset) →
    ∃ t, exec (.pollDecay region period) s = .next t ∧
      t = { s with
        mem := t.mem
        animators := s.animators.set (s.slot - 1)
          { a with
            value := v
            nextReset := deadline
            initDone := true
            nextDue := (s.now + period) % 2 ^ s.cfg.tickBits }
        changed := true
        slot := s.slot + 1 } ∧
      SameOutside s.cfg s.mem t.mem g.x g.y g.w g.h ∧
      ∀ r j, r < g.h → j < g.w →
        fbGet s.cfg t.mem (g.x + j) (g.y + r) = (decide (r * g.w + j < 32) && v.getLsbD (r * g.w + j))

/-- `POLL.LIFE` due: the record after the tick, a new random board when a trigger fires and the candidate committed
when none does, and the region showing the board (42_life_engine.md R91, R95, R96 to R100, R103). -/
def Obligations.PollLifeCompletes : Prop :=
  ∀ (s : State) (region period : Nat) (g : Region) (a : Animator),
    SlotReady s region g a → 0 ≤ signedDiff s.cfg s.now a.nextDue →
    ∃ t a', exec (.pollLife region period) s = .next t ∧
      t = { s with
        mem := t.mem, animators := s.animators.set (s.slot - 1) a', changed := true, slot := s.slot + 1 } ∧
      SameOutside s.cfg s.mem t.mem g.x g.y g.w g.h ∧
      (∀ r c, r < g.h → c < g.w → fbGet s.cfg t.mem (g.x + c) (g.y + r) = Grid.cell a'.board r c) ∧
      a'.nextDue = (s.now + period) % 2 ^ s.cfg.tickBits ∧ a'.lifeState = true ∧
      a'.initDone = a.initDone ∧ a'.value = a.value ∧ a'.nextReset = a.nextReset ∧
      (LifeMustReseed s g a →
        (∀ r c, r < g.h → c < g.w → Grid.cell a'.board r c = Grid.cell s.draw.cells r c) ∧
          a'.hist1Valid = false ∧ a'.hist2Valid = false ∧ a'.createdAt = s.now) ∧
      (¬LifeMustReseed s g a →
        (∀ r c, r < g.h → c < g.w → Grid.cell a'.board r c = Grid.cell (nextBoard g.h g.w a.board) r c) ∧
          a'.hist1 = a.board ∧ a'.hist1Valid = true ∧ a'.hist2 = a.hist1 ∧ a'.hist2Valid = a.hist1Valid ∧
          a'.createdAt = a.createdAt)

/-- `POLL.NOISE` due: a pixel whose coin is 1 takes the drawn bit, every other keeps its own, and the interval is the
drawn entry of the mode's delay set (43_section_animators.md R122 to R124). -/
def Obligations.PollNoiseCompletes : Prop :=
  ∀ (s : State) (region interval : Nat) (g : Region) (a : Animator),
    SlotReady s region g a → 0 ≤ signedDiff s.cfg s.now a.nextDue →
    (s.mode = .relaxed → s.cfg.slowDelays[s.draw.idx]? = some interval) →
    (s.mode = .frantic → s.cfg.fastDelays[s.draw.idx]? = some interval) →
    ∃ t, exec (.pollNoise region) s = .next t ∧
      t = { s with
        mem := t.mem
        animators := s.animators.set (s.slot - 1) { a with nextDue := (s.now + interval) % 2 ^ s.cfg.tickBits }
        changed := true
        slot := s.slot + 1 } ∧
      SameOutside s.cfg s.mem t.mem g.x g.y g.w g.h ∧
      ∀ r c, r < g.h → c < g.w →
        fbGet s.cfg t.mem (g.x + c) (g.y + r) =
          if Grid.cell s.draw.coin r c then Grid.cell s.draw.val r c else fbGet s.cfg s.mem (g.x + c) (g.y + r)

/-- A draw outside the random contract stops the step that uses it (93_implementation_defined.md U23, U24).
The stop is the model's refusal, notes/assumptions/10.md. -/
def Obligations.DrawOutsideTheContractStops : Prop :=
  ∀ (s : State) (region period : Nat) (g : Region) (a : Animator),
    SlotReady s region g a → 0 ≤ signedDiff s.cfg s.now a.nextDue →
    ((a.initDone = false ∨ 0 ≤ signedDiff s.cfg s.now a.nextReset) →
      (s.draw.resetDelay < 20 * s.cfg.tps ∨ 60 * s.cfg.tps < s.draw.resetDelay) →
      exec (.pollDecay region period) s = .refused .drawOutOfRange) ∧
    (s.mode = .relaxed → s.cfg.slowDelays.length ≤ s.draw.idx → exec (.pollNoise region) s = .refused .drawOutOfRange) ∧
    (s.mode = .frantic → s.cfg.fastDelays.length ≤ s.draw.idx → exec (.pollNoise region) s = .refused .drawOutOfRange)

/-- `PRESENT` emits one event with every framebuffer byte in rising order when something reported a change, clears
`CHANGED`, and goes back to slot 0 (45_scheduler_and_control.md R147). -/
def Obligations.PresentCompletes : Prop :=
  ∀ s : State, s.run = true →
    (s.changed = true →
      ∃ img : List Byte, img.length = s.cfg.height * s.cfg.stride ∧
        (∀ k, k < s.cfg.height * s.cfg.stride → img[k]? = some (s.mem.read k)) ∧
        exec .present s = .next { s with out := s.out ++ [img], changed := false, slot := 0 }) ∧
    (s.changed = false → exec .present s = .next { s with slot := 0 })

/-- The new deadline of an animator whose body ran lies strictly in the future of `now`: no poll before the interval is
over finds it due, and a poll when it is over does (43_section_animators.md R111; the spec's own inference R112). -/
def Obligations.NewDeadlineLiesInTheFuture : Prop :=
  ∀ (i : Instr) (s t : State) (region : Nat) (g : Region) (a : Animator),
    s.cfg.wellFormed = true → i.wellFormed s.cfg = true → animatorRegion i = some region → SlotReady s region g a →
    0 ≤ signedDiff s.cfg s.now a.nextDue → exec i s = .next t →
    ∃ a' d, t.animators[s.slot - 1]? = some a' ∧ 1 ≤ d ∧
      (∀ e, e < d → due s.cfg (tickAdd s.cfg s.now e) a'.nextDue = false) ∧
      ∀ e, d ≤ e → e < d + s.cfg.half → due s.cfg (tickAdd s.cfg s.now e) a'.nextDue = true

/-- The transition coin is looked at once per dwell: after a due check of the relaxed mode, every poll the sequencer makes
within `FAST_RUN_TIME` of it, in whatever cycle and whatever else has changed meanwhile, changes neither the mode nor its
deadline (44_mode_controller.md R131; the spec's own inference R133). -/
def Obligations.OneCoinPerDwell : Prop :=
  ∀ (s t u : State) (e : Nat), s.cfg.wellFormed = true → s.run = true → s.mode = .relaxed →
    0 ≤ signedDiff s.cfg s.now s.modeDue → exec .pollMode s = .next t → e < s.cfg.fastRunTime →
    u.run = true → u.cfg = t.cfg → u.mode = t.mode → u.modeDue = t.modeDue → u.now = tickAdd s.cfg s.now e →
    exec .pollMode u = .next { u with slot := u.slot + 1 }

/-! ## Life -/

/-- The candidate board follows the birth and survival rule on the torus: a cell counts its eight neighbours modulo the
region's own size (42_life_engine.md R92, R93). -/
def Obligations.LifeCandidateFollowsTheRule : Prop :=
  ∀ (h w : Nat) (b : Grid) (r c n : Nat), r < h → c < w →
    n = ∑ dr ∈ Finset.range 3, ∑ dc ∈ Finset.range 3,
      (if dr = 1 ∧ dc = 1 then 0
        else (Grid.cell b ((r + dr + (h - 1)) % h) ((c + dc + (w - 1)) % w)).toNat) →
    (Grid.cell b r c = true → (n < 2 ∨ 3 < n) → Grid.cell (nextBoard h w b) r c = false) ∧
    (Grid.cell b r c = false → n = 3 → Grid.cell (nextBoard h w b) r c = true) ∧
    (Grid.cell b r c = true → (n = 2 ∨ n = 3) → Grid.cell (nextBoard h w b) r c = true) ∧
    (Grid.cell b r c = false → n ≠ 3 → Grid.cell (nextBoard h w b) r c = false)

/-- A committed board is neither the board before it nor the one before that, and is never empty: the display does not
stand still, does not alternate between two boards, and does not stay empty (42_life_engine.md R96 to R100; the spec's own inference R104 d). -/
def Obligations.CommittedBoardIsNew : Prop :=
  ∀ (s : State) (g : Region) (a : Animator), a.lifeState = true →
    (lifeTick s g a).hist1Valid = true →
    (∃ r c, r < g.h ∧ c < g.w ∧ Grid.cell (lifeTick s g a).board r c ≠ Grid.cell a.board r c) ∧
    (a.hist1Valid = true →
      ∃ r c, r < g.h ∧ c < g.w ∧ Grid.cell (lifeTick s g a).board r c ≠ Grid.cell a.hist1 r c) ∧
    ∃ r c, r < g.h ∧ c < g.w ∧ Grid.cell (lifeTick s g a).board r c = true

/-- One step of the engine: where a first history slot that is not valid holds the all-dead board, dropping the test of
its valid bit and testing the triggers in the opposite order gives the same record (42_life_engine.md R95 to R98; the
spec's own inferences R105 and R101). LifeWithoutValidBits says the same of any number of ticks. -/
def Obligations.ClearedHistoryAsDeadBoard : Prop :=
  ∀ (s : State) (g : Region) (a : Animator),
    (a.hist1Valid = false → ∀ r c, r < g.h → c < g.w → Grid.cell a.hist1 r c = false) →
    lifeStep s g a =
      let cand := nextBoard g.h g.w a.board
      if triggerAge s a then lifeReseed s g a
      else if triggerExtinct g cand then lifeReseed s g a
      else if Grid.same g.h g.w cand a.hist1 then lifeReseed s g a
      else if triggerStill g a cand then lifeReseed s g a
      else lifeCommit a cand

/-- `H2` is hidden: states that differ only in their second history slots step to states that differ only there, and
stop together (42_life_engine.md R96 to R100; the spec's own inference 10_state.md R32 a). -/
def Obligations.SecondHistorySlotIsHidden : Prop :=
  ∀ s t : State, s.forgetH2 = t.forgetH2 → outcomeForgetH2 (step s) = outcomeForgetH2 (step t)

/-- After its seed a pattern region shows, `n` shifts later, the seed rotated by `n * shift` columns
(43_section_animators.md R114; the spec's own inference R115). -/
def Obligations.PatternShowsTheRotatedSeed : Prop :=
  ∀ (cfg : Config) (m : Memory) (g : Region) (seed : List Nat) (shift : Int) (n r j : Nat),
    cfg.windowInside g.x g.y g.w g.h = true → r < g.h → j < g.w →
    fbGet cfg ((fun m => fbShift cfg m g.x g.y g.w g.h shift true)^[n] (drawSeed cfg m g seed)) (g.x + j) (g.y + r) =
      (seed.getD r 0).testBit (g.w - 1 - (((j : Int) - n * shift) % (g.w : Int)).toNat)

/-! ## Ticks -/

/-- The signed difference is the one integer of the half range congruent to the difference (00_scope.md R12). -/
def Obligations.SignedDiffIsTheHalfRangeResidue : Prop :=
  ∀ (cfg : Config) (a b : Tick), 1 ≤ cfg.tickBits →
    -((2 ^ (cfg.tickBits - 1) : Nat) : Int) ≤ signedDiff cfg a b ∧
    signedDiff cfg a b < ((2 ^ (cfg.tickBits - 1) : Nat) : Int) ∧
    ((2 ^ cfg.tickBits : Nat) : Int) ∣ (a : Int) - (b : Int) - signedDiff cfg a b

/-- A deadline is found due exactly while the poll comes within the half range after it, across the wrap as well; past
the half range it looks ahead again (00_scope.md R13; the spec's own inference
70_reset_and_hazards.md R179). -/
def Obligations.DueOnlyWithinTheHalfRange : Prop :=
  ∀ (cfg : Config) (t : Tick) (e : Nat), 1 ≤ cfg.tickBits → e < 2 ^ cfg.tickBits →
    (due cfg (tickAdd cfg t e) t = true ↔ e < 2 ^ (cfg.tickBits - 1))

/-! ## The machine -/

/-- The image of a present event holds every pixel: pixel `(x, y)` is bit `7 - (x mod 8)` of byte
`y * STRIDE + x div 8` (10_state.md R20, 20_memory.md R37). -/
def Obligations.ImageHoldsEveryPixel : Prop :=
  ∀ (cfg : Config) (m : Memory) (x y : Nat), x < cfg.width → y < cfg.height →
    (image cfg m).length = cfg.height * ((cfg.width + 7) / 8) ∧
    ∃ v : Byte, (image cfg m)[y * ((cfg.width + 7) / 8) + x / 8]? = some v ∧
      v.getLsbD (7 - x % 8) = fbGet cfg m x y

/-- When the host's command is accepted, the step is the decoded command's execution after the word has left the port
and the turn is used up (45_scheduler_and_control.md R143; the spec's own inference R144).
The port and the schedule are the model's, notes/assumptions/5.md and 6.md. -/
def Obligations.StepRunsTheAcceptedCommand : Prop :=
  ∀ (s : State) (c : CommandWord) (rest : List CommandWord) (turns : List Turn) (i : Instr),
    s.slot = 0 → s.commands = c :: rest → s.schedule = .host :: turns → decodeCommand c = .ok i →
    step s = exec i { s with commands := rest, schedule := turns, turn := s.turn + 1 }

/-- When it is the sequencer's turn, the step is the execution of the slot that `SLOT` names, on the tick and the draw
just taken (45_scheduler_and_control.md R141; the spec's own inference R144).
The supplied inputs, their reduction to the width of their port, and the schedule are the model's,
notes/assumptions/4.md, 5.md and 16.md. -/
def Obligations.StepRunsTheNamedSlot : Prop :=
  ∀ (s : State) (d : SlotDesc) (i : Instr) (inp : SeqInput) (rest : List SeqInput) (turns : List Turn),
    s.run = true → s.schedule = .sequencer :: turns → s.seqInputs = inp :: rest →
    s.cfg.seq[s.slot]? = some d → decodeSlot d = .ok i →
    step s =
      exec i { s with
        schedule := turns
        turn := s.turn + 1
        seqInputs := rest
        now := inp.now % 2 ^ s.cfg.tickBits
        draw := { inp.draw with u := inp.draw.u % 2 ^ s.cfg.uBits } }

/-- With a command pending between cycles and the sequencer running, either step may go first: a schedule that gives the
host the turn runs the host step, one that gives it to the sequencer runs the sequencer step, and with nothing scheduled
it is one of the two and no third thing (45_scheduler_and_control.md R143).
The schedule, and that a free value stands in for an empty one, are the model's, notes/assumptions/5.md and 6.md. -/
def Obligations.EitherAgentMayGoFirst : Prop :=
  ∀ (s : State) (c : CommandWord) (rest : List CommandWord),
    s.slot = 0 → s.run = true → s.commands = c :: rest →
    (∀ turns, s.schedule = .host :: turns →
      step s = hostStep c { s with commands := rest, schedule := turns, turn := s.turn + 1 }) ∧
    (∀ turns, s.schedule = .sequencer :: turns →
      step s = sequencerStep { s with schedule := turns, turn := s.turn + 1 }.sampleInputs) ∧
    (s.schedule = [] →
      step s = hostStep c { s with commands := rest, turn := s.turn + 1 } ∨
      step s = sequencerStep { s with turn := s.turn + 1 }.sampleInputs)

/-- Inside a cycle no command is accepted and none answered: the port, the responses and the error flags stay as they
are unless the reset input acts (45_scheduler_and_control.md R143, 20_memory.md R46).
The port and the response list are the model's, notes/assumptions/6.md and 8.md. -/
def Obligations.NoHostEffectInsideACycle : Prop :=
  ∀ s t : State, s.slot ≠ 0 → (∀ t0, s.nextTurn ≠ .reset t0) → step s = .next t →
    t.commands = s.commands ∧ t.responses = s.responses ∧ t.errFlags = s.errFlags ∧ t.run = s.run

/-- The block waits, with nothing changed but its use of the schedule, when the sequencer is held and no command is
pending (45_scheduler_and_control.md R142, R143; the spec's own inference R144).
The waiting step itself is the model's, notes/assumptions/7.md. -/
def Obligations.BlockWaitsWhenNothingIsEnabled : Prop :=
  ∀ s : State, s.run = false → s.commands = [] → (∀ t0, s.nextTurn ≠ .reset t0) →
    step s = .next { s with schedule := s.schedule.tail, turn := s.turn + 1 }

/-- The reset input sets every state element to its reset value and leaves the configuration
(70_reset_and_hazards.md R171). What stays with the environment is the model's choice, notes/assumptions/9.md. -/
def Obligations.ResetInputResetsTheBlock : Prop :=
  ∀ (s : State) (t0 : Tick) (turns : List Turn), s.schedule = .reset t0 :: turns →
    ∃ t, step s = .next t ∧ t.cfg = s.cfg ∧ (∀ a, t.mem.read a = 0#8) ∧ t.slot = 0 ∧ t.changed = false ∧
      t.run = true ∧ t.mode = .relaxed ∧
      t.modeDue = (t0 % 2 ^ s.cfg.tickBits + s.cfg.fastRunTime) % 2 ^ s.cfg.tickBits ∧ t.errFlags = 0#3 ∧ t.out = [] ∧
      t.animators.length = s.cfg.nanim ∧
      ∀ a ∈ t.animators, a.nextDue = t0 % 2 ^ s.cfg.tickBits ∧ a.initDone = false ∧ a.lifeState = false ∧
        a.hist1Valid = false ∧ a.hist2Valid = false

/-- Which instruction writes which element: `RUN` only `RUN` and `HALT`, `MODE` and `MODE_DUE` only `POLL.MODE`, `OUT`
only `PRESENT`, `ERRFLAGS` and the responses only host commands, `SLOT`, `CHANGED` and the animators only slots, an
animator's record only its own slot, the framebuffer only the drawing ones, the configuration and the ports none
(10_state.md R24 to R31, R33). -/
def Obligations.WritersOfEveryElement : Prop :=
  ∀ (i : Instr) (s t : State), exec i s = .next t →
    (i ≠ .run → i ≠ .halt → t.run = s.run) ∧
    (i ≠ .pollMode → t.mode = s.mode ∧ t.modeDue = s.modeDue) ∧
    (i ≠ .present → t.out = s.out) ∧
    (i.isHostCommand = false → t.errFlags = s.errFlags ∧ t.responses = s.responses) ∧
    (i.isHostCommand = true → t.slot = s.slot ∧ t.changed = s.changed ∧ t.animators = s.animators) ∧
    (i.isAnimator = false → (∀ x y bit, i ≠ .setpixel x y bit) → (∀ x y w h n b, i ≠ .shiftregion x y w h n b) →
      t.mem = s.mem) ∧
    (∀ k, k ≠ s.slot - 1 → t.animators[k]? = s.animators[k]?) ∧
    t.cfg = s.cfg ∧ t.commands = s.commands ∧ t.seqInputs = s.seqInputs ∧ t.schedule = s.schedule ∧
    t.now = s.now ∧ t.draw = s.draw ∧ t.turn = s.turn

/-- An animator changes no pixel and no byte outside its own region (the rules of the bodies in
43_section_animators.md and 42_life_engine.md; the spec's own inference R126). -/
def Obligations.AnimatorStaysInItsRegion : Prop :=
  ∀ (i : Instr) (s t : State) (region : Nat) (g : Region),
    animatorRegion i = some region → s.cfg.regions[region]? = some g → exec i s = .next t →
    SameOutside s.cfg s.mem t.mem g.x g.y g.w g.h

/-- The error flags are sticky: no step but a reset clears one (10_state.md R28, 70_reset_and_hazards.md R171). -/
def Obligations.ErrorFlagsAreSticky : Prop :=
  ∀ s t : State, (∀ t0, s.nextTurn ≠ .reset t0) → step s = .next t →
    ∀ k, s.errFlags.getLsbD k = true → t.errFlags.getLsbD k = true

/-- Present events are never taken back: unless the reset input acts, a step keeps the output history and adds at most
one event, the framebuffer of that moment (10_state.md R33, 70_reset_and_hazards.md R184). -/
def Obligations.OutputHistoryOnlyGrows : Prop :=
  ∀ s t : State, (∀ t0, s.nextTurn ≠ .reset t0) → step s = .next t →
    t.out = s.out ∨ (t.out = s.out ++ [image s.cfg s.mem] ∧ t.mem = s.mem ∧ t.slot = 0 ∧ s.changed = true)

/-- A block is built exactly from a configuration that passes the three checks (70_reset_and_hazards.md R174, R176 to
R178). -/
def Obligations.ConstructionChecks : Prop :=
  ∀ (cfg : Config) (t0 : Tick),
    (construct cfg t0 = .next (State.resetAt cfg t0) ∨ construct cfg t0 = .refused .malformedConfiguration) ∧
    (construct cfg t0 = .next (State.resetAt cfg t0) ↔
      (1 ≤ cfg.width ∧ cfg.width ≤ 255 ∧ 1 ≤ cfg.height ∧ cfg.height ≤ 255 ∧ cfg.regions.length ≤ 256 ∧
        ∀ g ∈ cfg.regions, 1 ≤ g.w ∧ 1 ≤ g.h ∧ g.x + g.w ≤ cfg.width ∧ g.y + g.h ≤ cfg.height) ∧
      (2 ≤ cfg.tickBits ∧ 1 ≤ cfg.tps ∧ 1 ≤ cfg.uBits ∧ cfg.fastChanceN ≤ 2 ^ cfg.uBits ∧
        cfg.slowDelays ≠ [] ∧ cfg.fastDelays ≠ [] ∧ 60 * cfg.tps < 2 ^ (cfg.tickBits - 1) - 1 ∧
        ∀ d, (d = cfg.relaxRunTime ∨ d = cfg.fastRunTime ∨ d = 60 * cfg.tps ∨ d ∈ cfg.slowDelays ∨ d ∈ cfg.fastDelays) →
          1 ≤ d ∧ d < 2 ^ (cfg.tickBits - 1)) ∧
      (2 ≤ cfg.seq.length ∧
        (∃ d, cfg.seq[0]? = some d ∧ d.kind = 0x00#8) ∧
        (∃ d, cfg.seq[cfg.seq.length - 1]? = some d ∧ d.kind = 0x0F#8) ∧
        ∀ k d, 1 ≤ k → k < cfg.seq.length - 1 → cfg.seq[k]? = some d →
          ∃ g, cfg.regions[d.region]? = some g ∧
            (d.kind = 0x01#8 ∧ d.seed.length = g.h ∧ (∀ v ∈ d.seed, v < 2 ^ g.w) ∧
                1 ≤ d.period ∧ d.period < 2 ^ (cfg.tickBits - 1) ∨
              (d.kind = 0x02#8 ∨ d.kind = 0x03#8 ∨ d.kind = 0x04#8) ∧
                1 ≤ d.period ∧ d.period < 2 ^ (cfg.tickBits - 1) ∨
              d.kind = 0x05#8)))

/-- A block built from a well-formed configuration meets the invariant right after reset, whatever the tick at reset.
The values at reset that the spec leaves unspecified are notes/assumptions/3.md. -/
def Obligations.InvHoldsAtReset : Prop :=
  ∀ (cfg : Config) (t0 : Tick), cfg.wellFormed = true → (State.resetAt cfg t0).Inv

/-- This hardware's reset state meets the invariant (00_scope.md R9).
The tick at reset is notes/assumptions/2.md. -/
def Obligations.InvHoldsAtThisReset : Prop := State.reset.Inv

/-- Every step keeps the invariant: a well-formed configuration, a canonical framebuffer inside its range, padding 0,
`SLOT` a slot, `CHANGED = 0` at `SLOT = 0`, `RUN = 0` only at `SLOT = 0`, one record per animator slot, tick-valued
deadlines and sample, whole images (10_state.md R20, R21, R24 to R27, R29, R33; 00_scope.md R14).
The canonical form is notes/assumptions/13.md. -/
def Obligations.StepKeepsInv : Prop := ∀ s t : State, s.Inv → step s = .next t → t.Inv

/-- No stuck state and no fault: from every state that meets the invariant, with a draw the random source can give, the
block takes its step (45_scheduler_and_control.md section 1; the spec's own inference R144).
That a draw outside the contract stops is notes/assumptions/10.md. -/
def Obligations.EveryStepAnswers : Prop := ∀ s : State, s.Inv → s.nextInputLegal = true → Answers (step s)

/-- A cycle is `NSLOT` sequencer steps from `SLOT = 0` back to it, and emits at most one event, with the framebuffer as
it stands at the end; with no event it has changed no pixel and no animator (45_scheduler_and_control.md R140, R141, R147;
the spec's own inference R145). The draws supplied for its animator slots are in contract for the mode its check leaves.
The schedule and the supplied inputs are the model's, notes/assumptions/4.md and 5.md. -/
def Obligations.CycleRunsToItsPresent : Prop :=
  ∀ s : State, s.Inv → s.slot = 0 → s.run = true → s.cycleInputsLegal = true →
    s.schedule.take s.cfg.nslot = List.replicate s.cfg.nslot .sequencer →
    ∃ t : State, Host.Core.run Sys2Proof.core s.cfg.nslot s = .next t ∧ t.slot = 0 ∧ t.run = true ∧
      t.changed = false ∧ t.cfg = s.cfg ∧ t.commands = s.commands ∧ t.responses = s.responses ∧
      t.errFlags = s.errFlags ∧
      (t.out = s.out ∧ t.mem = s.mem ∧ t.animators = s.animators ∨ t.out = s.out ++ [image t.cfg t.mem])

/-- From reset, a poll of the mode controller one tick before `FAST_RUN_TIME` has elapsed changes nothing but `SLOT`, and
one exactly then turns frantic on a draw of 0 when the chance is positive, and stays relaxed on the largest draw when
the chance is below 1 (44_mode_controller.md R131, R132; the spec's own inference R136). -/
def Obligations.ModeFromReset : Prop :=
  ∀ (cfg : Config) (t0 : Tick) (d : Draw) (s : State), cfg.wellFormed = true →
    s = { State.resetAt cfg t0 with draw := d } →
    (exec .pollMode { s with now := tickAdd cfg t0 (cfg.fastRunTime - 1) } =
      .next { s with now := tickAdd cfg t0 (cfg.fastRunTime - 1), slot := 1 }) ∧
    (d.u = 0 → 1 ≤ cfg.fastChanceN →
      ∃ t, exec .pollMode { s with now := tickAdd cfg t0 cfg.fastRunTime } = .next t ∧ t.mode = .frantic) ∧
    (d.u = 2 ^ cfg.uBits - 1 → cfg.fastChanceN < 2 ^ cfg.uBits →
      ∃ t, exec .pollMode { s with now := tickAdd cfg t0 cfg.fastRunTime } = .next t ∧ t.mode = .relaxed)

/-- The Life engine without the valid bits, whose cleared history slots hold the all-dead board and whose triggers are
tested in the opposite order, goes through the same records, tick by tick, over any number of ticks: the same boards,
reseeds at the same ticks, and a history that is dead where the engine's own is not valid (42_life_engine.md R95 to R100,
R103; the spec's own inferences R105 and R101). -/
def Obligations.LifeWithoutValidBits : Prop :=
  ∀ (g : Region) (ticks : List State) (a : Animator),
    (ticks.foldl (fun a s => lifeTick s g a) a).withDeadHistory g =
      ticks.foldl (fun a s => lifeTickNoValid s g a) (a.withDeadHistory g)
end

