-- ==== Sys2Proof/Laws/Config.lean ====
section
/-! SUPPORT. The construction checks read as propositions. -/

namespace Sys2Proof

theorem legalInterval_iff {cfg : Config} {d : Nat} :
    cfg.legalInterval d = true ↔ 1 ≤ d ∧ d < 2 ^ (cfg.tickBits - 1) := by
  simp only [Config.legalInterval, Bool.and_eq_true, decide_eq_true_eq]; rfl

theorem Config.wellFormed_iff {cfg : Config} :
    cfg.wellFormed = true ↔ cfg.geometryOk = true ∧ cfg.numbersOk = true ∧ cfg.slotProgramOk = true := by
  simp only [Config.wellFormed, Bool.and_eq_true, and_assoc]

/-- What the number check gives (70_reset_and_hazards.md R177). -/
structure Config.Numbers (cfg : Config) : Prop where
  tickBits : 2 ≤ cfg.tickBits
  tps : 1 ≤ cfg.tps
  uBits : 1 ≤ cfg.uBits
  chance : cfg.fastChanceN ≤ 2 ^ cfg.uBits
  relax : cfg.legalInterval cfg.relaxRunTime = true
  fast : cfg.legalInterval cfg.fastRunTime = true
  slow_ne : cfg.slowDelays ≠ []
  slow : ∀ d ∈ cfg.slowDelays, cfg.legalInterval d = true
  fast_ne : cfg.fastDelays ≠ []
  fasts : ∀ d ∈ cfg.fastDelays, cfg.legalInterval d = true
  reset : cfg.legalInterval cfg.decayResetMax = true
  age : cfg.maxAgeTicks < cfg.half - 1

theorem Config.numbersOk_iff {cfg : Config} : cfg.numbersOk = true ↔ cfg.Numbers := by
  simp only [Config.numbersOk, Bool.and_eq_true, decide_eq_true_eq, List.all_eq_true, Bool.not_eq_true',
    List.isEmpty_eq_false_iff]
  constructor
  · rintro ⟨⟨⟨⟨⟨⟨⟨⟨⟨⟨⟨a, b⟩, c⟩, d⟩, e⟩, f⟩, g⟩, h⟩, i⟩, j⟩, k⟩, l⟩
    exact ⟨a, b, c, d, e, f, g, h, i, j, k, l⟩
  · rintro ⟨a, b, c, d, e, f, g, h, i, j, k, l⟩
    exact ⟨⟨⟨⟨⟨⟨⟨⟨⟨⟨⟨a, b⟩, c⟩, d⟩, e⟩, f⟩, g⟩, h⟩, i⟩, j⟩, k⟩, l⟩

theorem Config.wellFormed_numbers {cfg : Config} (h : cfg.wellFormed = true) : cfg.Numbers :=
  Config.numbersOk_iff.mp (Config.wellFormed_iff.mp h).2.1

/-- Every region of a well-formed configuration lies inside the surface (70_reset_and_hazards.md R176). -/
theorem Config.wellFormed_region {cfg : Config} (h : cfg.wellFormed = true) {n : Nat} {g : Region}
    (hg : cfg.regions[n]? = some g) : 1 ≤ g.w ∧ 1 ≤ g.h ∧ cfg.windowInside g.x g.y g.w g.h = true := by
  have h1 := (Config.wellFormed_iff.mp h).1
  simp only [Config.geometryOk, Bool.and_eq_true, List.all_eq_true] at h1
  have h2 := h1.2 g (List.mem_of_getElem? hg)
  simp only [Region.wellFormed, Bool.and_eq_true, decide_eq_true_eq, and_assoc] at h2
  exact h2

/-- Every slot of a well-formed slot program between the first and the last holds a well-formed animator
(70_reset_and_hazards.md R178). -/
theorem Config.wellFormed_animator {cfg : Config} (h : cfg.wellFormed = true) {k : Nat} {d : SlotDesc} (h1 : 1 ≤ k)
    (h2 : k < cfg.nslot - 1) (hd : cfg.seq[k]? = some d) :
    ∃ i, decodeSlot d = .ok i ∧ i.isAnimator = true ∧ i.wellFormed cfg = true := by
  have h3 := (Config.wellFormed_iff.mp h).2.2
  simp only [Config.slotProgramOk, Bool.and_eq_true, List.all_eq_true] at h3
  have hok := h3.2 d (by
    rw [List.mem_iff_getElem?]
    refine ⟨k - 1, ?_⟩
    rw [List.getElem?_take, if_pos (by unfold Config.nanim; omega), List.getElem?_drop, show 1 + (k - 1) = k by omega,
      hd])
  unfold SlotDesc.animatorOk at hok
  split at hok
  · next i hi => simp only [Bool.and_eq_true] at hok; exact ⟨i, hi, hok⟩
  · cases hok

/-- Slot 0 of a well-formed slot program is MODE and the last is PRESENT (70_reset_and_hazards.md R178). -/
theorem Config.wellFormed_ends {cfg : Config} (h : cfg.wellFormed = true) :
    2 ≤ cfg.nslot ∧ cfg.seq[0]?.map decodeSlot = some (.ok .pollMode) ∧
      cfg.seq[cfg.nslot - 1]?.map decodeSlot = some (.ok .present) := by
  have h3 := (Config.wellFormed_iff.mp h).2.2
  simp only [Config.slotProgramOk, Bool.and_eq_true, decide_eq_true_eq] at h3
  exact ⟨h3.1.1.1, h3.1.1.2, h3.1.2⟩

namespace Machine

theorem resetDelayLegal_iff {cfg : Config} {d : Nat} :
    resetDelayLegal cfg d = true ↔ 20 * cfg.tps ≤ d ∧ d ≤ 60 * cfg.tps := by
  simp only [resetDelayLegal, Bool.and_eq_true, decide_eq_true_eq]; rfl

end Machine

end Sys2Proof
end

