-- ==== Sys2Proof/Laws/Decode.lean ====
section
/-! SUPPORT. The command word and its fields: packing and taking apart are inverse, and masks act field by field. -/

namespace Sys2Proof

/-- A packed word as a number. -/
theorem packCommand_toNat (op a x y w h : BitVec 8) (s : BitVec 16) :
    (packCommand op a x y w h s).toNat =
      op.toNat * 2 ^ 56 + a.toNat * 2 ^ 48 + x.toNat * 2 ^ 40 + y.toNat * 2 ^ 32 + w.toNat * 2 ^ 24 +
        h.toNat * 2 ^ 16 + s.toNat := by
  have key : ∀ p q k : Nat, q < 2 ^ k → p <<< k ||| q = p * 2 ^ k + q := fun p q k hq => by
    rw [← Nat.shiftLeft_add_eq_or_of_lt hq, Nat.shiftLeft_eq]
  have h1 : (packCommand op a x y w h s).toNat =
      (op ++ a ++ x ++ y ++ w ++ h ++ s : BitVec (8 + 8 + 8 + 8 + 8 + 8 + 16)).toNat := rfl
  rw [h1]
  simp only [BitVec.toNat_append]
  rw [key _ _ 8 a.isLt, key _ _ 8 x.isLt, key _ _ 8 y.isLt, key _ _ 8 w.isLt, key _ _ 8 h.isLt, key _ _ 16 s.isLt]
  ring

@[simp] theorem fieldOp_pack (op a x y w h : BitVec 8) (s : BitVec 16) :
    fieldOp (packCommand op a x y w h s) = op := by
  apply BitVec.eq_of_toNat_eq
  have := packCommand_toNat op a x y w h s
  simp only [fieldOp, BitVec.extractLsb'_toNat, Nat.shiftRight_eq_div_pow]
  omega

@[simp] theorem fieldA_pack (op a x y w h : BitVec 8) (s : BitVec 16) :
    fieldA (packCommand op a x y w h s) = a := by
  apply BitVec.eq_of_toNat_eq
  have := packCommand_toNat op a x y w h s
  simp only [fieldA, BitVec.extractLsb'_toNat, Nat.shiftRight_eq_div_pow]
  omega

@[simp] theorem fieldX_pack (op a x y w h : BitVec 8) (s : BitVec 16) :
    fieldX (packCommand op a x y w h s) = x := by
  apply BitVec.eq_of_toNat_eq
  have := packCommand_toNat op a x y w h s
  simp only [fieldX, BitVec.extractLsb'_toNat, Nat.shiftRight_eq_div_pow]
  omega

@[simp] theorem fieldY_pack (op a x y w h : BitVec 8) (s : BitVec 16) :
    fieldY (packCommand op a x y w h s) = y := by
  apply BitVec.eq_of_toNat_eq
  have := packCommand_toNat op a x y w h s
  simp only [fieldY, BitVec.extractLsb'_toNat, Nat.shiftRight_eq_div_pow]
  omega

@[simp] theorem fieldW_pack (op a x y w h : BitVec 8) (s : BitVec 16) :
    fieldW (packCommand op a x y w h s) = w := by
  apply BitVec.eq_of_toNat_eq
  have := packCommand_toNat op a x y w h s
  simp only [fieldW, BitVec.extractLsb'_toNat, Nat.shiftRight_eq_div_pow]
  omega

@[simp] theorem fieldH_pack (op a x y w h : BitVec 8) (s : BitVec 16) :
    fieldH (packCommand op a x y w h s) = h := by
  apply BitVec.eq_of_toNat_eq
  have := packCommand_toNat op a x y w h s
  simp only [fieldH, BitVec.extractLsb'_toNat, Nat.shiftRight_eq_div_pow]
  omega

@[simp] theorem fieldS_pack (op a x y w h : BitVec 8) (s : BitVec 16) :
    fieldS (packCommand op a x y w h s) = s := by
  apply BitVec.eq_of_toNat_eq
  have := packCommand_toNat op a x y w h s
  simp only [fieldS, BitVec.extractLsb'_toNat, Nat.shiftRight_eq_div_pow]
  omega

/-- A word is the packing of its fields. -/
theorem pack_fields (c : CommandWord) :
    packCommand (fieldOp c) (fieldA c) (fieldX c) (fieldY c) (fieldW c) (fieldH c) (fieldS c) = c := by
  apply BitVec.eq_of_toNat_eq
  rw [packCommand_toNat]
  simp only [fieldOp, fieldA, fieldX, fieldY, fieldW, fieldH, fieldS, BitVec.extractLsb'_toNat,
    Nat.shiftRight_eq_div_pow]
  omega

theorem pack_inj {op a x y w h op' a' x' y' w' h' : BitVec 8} {s s' : BitVec 16} :
    packCommand op a x y w h s = packCommand op' a' x' y' w' h' s' ↔
      op = op' ∧ a = a' ∧ x = x' ∧ y = y' ∧ w = w' ∧ h = h' ∧ s = s' := by
  constructor
  · intro e
    have e1 := packCommand_toNat op a x y w h s
    have e2 := packCommand_toNat op' a' x' y' w' h' s'
    rw [e] at e1
    refine ⟨?_, ?_, ?_, ?_, ?_, ?_, ?_⟩ <;> apply BitVec.eq_of_toNat_eq <;> omega
  · rintro ⟨rfl, rfl, rfl, rfl, rfl, rfl, rfl⟩; rfl

/-- A mask acts field by field. -/
theorem and_pack (op a x y w h op' a' x' y' w' h' : BitVec 8) (s s' : BitVec 16) :
    packCommand op a x y w h s &&& packCommand op' a' x' y' w' h' s' =
      packCommand (op &&& op') (a &&& a') (x &&& x') (y &&& y') (w &&& w') (h &&& h') (s &&& s') := by
  apply BitVec.eq_of_getLsbD_eq
  intro i hi
  have key : ∀ (p1 p2 p3 p4 p5 p6 : BitVec 8) (p7 : BitVec 16), (packCommand p1 p2 p3 p4 p5 p6 p7).getLsbD i =
      (p1 ++ p2 ++ p3 ++ p4 ++ p5 ++ p6 ++ p7 : BitVec (8 + 8 + 8 + 8 + 8 + 8 + 16)).getLsbD i :=
    fun _ _ _ _ _ _ _ => rfl
  rw [BitVec.getLsbD_and, key, key, key]
  simp only [BitVec.getLsbD_append, BitVec.getLsbD_and]
  repeat' split
  all_goals rfl

theorem and_ones_8 (v : BitVec 8) : v &&& 0xFF#8 = v := BitVec.and_allOnes
theorem and_ones_16 (v : BitVec 16) : v &&& 0xFFFF#16 = v := BitVec.and_allOnes

/-- The flag of a word is bit 0 of its argument byte. -/
theorem fieldFlag_eq (c : CommandWord) : fieldFlag c = (fieldA c).getLsbD 0 := by
  simp [fieldFlag, fieldA]

@[simp] theorem flagByte_bit (b : Bool) : (flagByte b).getLsbD 0 = b := by cases b <;> rfl

/-- A byte whose bits 7:1 are zero is the argument byte of its own flag. -/
theorem flagByte_of_mask {a : BitVec 8} (h : a &&& 0xFE#8 = 0#8) : a = flagByte (a.getLsbD 0) := by
  revert a; decide

@[simp] theorem flagByte_mask (b : Bool) : flagByte b &&& 0xFE#8 = 0#8 := by cases b <;> decide

/-! ## Which row selects a word -/

/-- A row selects a word when, field by field, the masked word is the row's pattern. -/
theorem selects_pack {op a x y w h op1 a1 x1 y1 w1 h1 op2 a2 x2 y2 w2 h2 : BitVec 8} {s s1 s2 : BitVec 16} :
    CommandRow.selects ⟨packCommand op1 a1 x1 y1 w1 h1 s1, packCommand op2 a2 x2 y2 w2 h2 s2⟩
        (packCommand op a x y w h s) = true ↔
      op &&& op1 = op2 ∧ a &&& a1 = a2 ∧ x &&& x1 = x2 ∧ y &&& y1 = y2 ∧ w &&& w1 = w2 ∧ h &&& h1 = h2 ∧
        s &&& s1 = s2 := by
  simp [CommandRow.selects, and_pack, pack_inj]

theorem rowNop_selects (op a x y w h : BitVec 8) (s : BitVec 16) :
    rowNop.selects (packCommand op a x y w h s) = true ↔
      op = 0x00#8 ∧ a = 0#8 ∧ x = 0#8 ∧ y = 0#8 ∧ w = 0#8 ∧ h = 0#8 ∧ s = 0#16 := by
  rw [show rowNop = ⟨packCommand 255 255 255 255 255 255 0xFFFF, packCommand 0x00 0 0 0 0 0 0⟩ by decide, selects_pack]
  simp [and_ones_8, and_ones_16]

theorem rowRun_selects (op a x y w h : BitVec 8) (s : BitVec 16) :
    rowRun.selects (packCommand op a x y w h s) = true ↔
      op = 0x10#8 ∧ a = 0#8 ∧ x = 0#8 ∧ y = 0#8 ∧ w = 0#8 ∧ h = 0#8 ∧ s = 0#16 := by
  rw [show rowRun = ⟨packCommand 255 255 255 255 255 255 0xFFFF, packCommand 0x10 0 0 0 0 0 0⟩ by decide, selects_pack]
  simp [and_ones_8, and_ones_16]

theorem rowHalt_selects (op a x y w h : BitVec 8) (s : BitVec 16) :
    rowHalt.selects (packCommand op a x y w h s) = true ↔
      op = 0x11#8 ∧ a = 0#8 ∧ x = 0#8 ∧ y = 0#8 ∧ w = 0#8 ∧ h = 0#8 ∧ s = 0#16 := by
  rw [show rowHalt = ⟨packCommand 255 255 255 255 255 255 0xFFFF, packCommand 0x11 0 0 0 0 0 0⟩ by decide, selects_pack]
  simp [and_ones_8, and_ones_16]

theorem rowRdstatus_selects (op a x y w h : BitVec 8) (s : BitVec 16) :
    rowRdstatus.selects (packCommand op a x y w h s) = true ↔
      op = 0x12#8 ∧ a = 0#8 ∧ x = 0#8 ∧ y = 0#8 ∧ w = 0#8 ∧ h = 0#8 ∧ s = 0#16 := by
  rw [show rowRdstatus = ⟨packCommand 255 255 255 255 255 255 0xFFFF, packCommand 0x12 0 0 0 0 0 0⟩ by decide, selects_pack]
  simp [and_ones_8, and_ones_16]

theorem rowSetpixel_selects (op a x y w h : BitVec 8) (s : BitVec 16) :
    rowSetpixel.selects (packCommand op a x y w h s) = true ↔
      op = 0x01#8 ∧ a &&& 0xFE#8 = 0#8 ∧ w = 0#8 ∧ h = 0#8 ∧ s = 0#16 := by
  rw [show rowSetpixel = ⟨packCommand 255 0xFE 0 0 255 255 0xFFFF, packCommand 0x01 0 0 0 0 0 0⟩ by decide, selects_pack]
  simp [and_ones_8, and_ones_16]

theorem rowGetpixel_selects (op a x y w h : BitVec 8) (s : BitVec 16) :
    rowGetpixel.selects (packCommand op a x y w h s) = true ↔
      op = 0x02#8 ∧ a = 0#8 ∧ w = 0#8 ∧ h = 0#8 ∧ s = 0#16 := by
  rw [show rowGetpixel = ⟨packCommand 255 255 0 0 255 255 0xFFFF, packCommand 0x02 0 0 0 0 0 0⟩ by decide, selects_pack]
  simp [and_ones_8, and_ones_16]

theorem rowShiftregion_selects (op a x y w h : BitVec 8) (s : BitVec 16) :
    rowShiftregion.selects (packCommand op a x y w h s) = true ↔
      op = 0x03#8 ∧ a &&& 0xFE#8 = 0#8 := by
  rw [show rowShiftregion = ⟨packCommand 255 0xFE 0 0 0 0 0, packCommand 0x03 0 0 0 0 0 0⟩ by decide, selects_pack]
  simp [and_ones_8]

theorem rowRegionof_selects (op a x y w h : BitVec 8) (s : BitVec 16) :
    rowRegionof.selects (packCommand op a x y w h s) = true ↔
      op = 0x04#8 ∧ x = 0#8 ∧ y = 0#8 ∧ w = 0#8 ∧ h = 0#8 ∧ s = 0#16 := by
  rw [show rowRegionof = ⟨packCommand 255 0 255 255 255 255 0xFFFF, packCommand 0x04 0 0 0 0 0 0⟩ by decide, selects_pack]
  simp [and_ones_8, and_ones_16]

/-- A row that selects a word has the word's `op`: every mask covers the whole of the `op` field. -/
theorem selects_op {row : CommandRow} {c : CommandWord} (hr : row ∈ commandRows) (h : row.selects c = true) :
    fieldOp c = fieldOp row.pattern := by
  have hm : fieldOp row.mask = 0xFF#8 := (by decide : ∀ row ∈ commandRows, fieldOp row.mask = 0xFF#8) row hr
  simp only [CommandRow.selects, beq_iff_eq] at h
  rw [← h, show fieldOp (c &&& row.mask) = fieldOp c &&& fieldOp row.mask from BitVec.extractLsb'_and, hm, and_ones_8]

/-- At most one row selects a word. -/
theorem row_unique {r1 r2 : CommandRow} {c : CommandWord} (m1 : r1 ∈ commandRows) (m2 : r2 ∈ commandRows)
    (h1 : r1.selects c = true) (h2 : r2.selects c = true) : r1 = r2 := by
  have e : fieldOp r1.pattern = fieldOp r2.pattern := by rw [← selects_op m1 h1, selects_op m2 h2]
  exact (by decide : ∀ r1 ∈ commandRows, ∀ r2 ∈ commandRows, fieldOp r1.pattern = fieldOp r2.pattern → r1 = r2)
    r1 m1 r2 m2 e

/-- Where one row selects a word, another does not. -/
theorem row_other {r1 r2 : CommandRow} {c : CommandWord} (m1 : r1 ∈ commandRows) (m2 : r2 ∈ commandRows)
    (h1 : r1.selects c = true) (hne : r2 ≠ r1) : ¬r2.selects c = true :=
  fun h2 => hne (row_unique m2 m1 h2 h1)

end Sys2Proof
end

