-- ==== Sys2Proof/Laws/Memory.lean ====
section
/-! SUPPORT. The framebuffer bytes: read after write, and the canonical form that every write keeps. -/

namespace Sys2Proof.Machine

@[simp] theorem Memory.read_nil (a : Nat) : Memory.read [] a = Memory.unlisted := rfl

@[simp] theorem Memory.read_cons (c : Host.Cell) (m : Memory) (a : Nat) :
    Memory.read (c :: m) a = if c.1 = a then c.2 else Memory.read m a := rfl

theorem Memory.mem_erase {m : Memory} {a : Nat} {c : Host.Cell} : c ∈ m.erase a ↔ c ∈ m ∧ c.1 ≠ a := by
  simp [Memory.erase]

theorem Memory.read_erase (m : Memory) (a b : Nat) :
    (m.erase a).read b = if b = a then Memory.unlisted else m.read b := by
  induction m with
  | nil => simp [Memory.erase]
  | cons c m ih =>
    simp only [Memory.erase] at ih
    by_cases hc : c.1 = a <;> by_cases hb : b = a <;> by_cases hcb : c.1 = b <;>
      simp_all [Memory.erase]

theorem Memory.read_place_same (m : Memory) (a : Nat) (v : Byte) (h : ∀ c ∈ m, c.1 ≠ a) :
    (Memory.place m a v).read a = v := by
  induction m with
  | nil => simp [Memory.place]
  | cons c m ih =>
    have hc : c.1 ≠ a := h c (by simp)
    simp only [Memory.place]
    split
    · simp
    · simpa [hc] using ih fun d hd => h d (by simp [hd])

theorem Memory.read_place_other (m : Memory) (a b : Nat) (v : Byte) (h : b ≠ a) :
    (Memory.place m a v).read b = m.read b := by
  induction m with
  | nil => simp [Memory.place, Ne.symm h]
  | cons c m ih =>
    simp only [Memory.place]
    split
    · simp [Ne.symm h]
    · simp [ih]

/-- A byte written reads back; every other byte reads as before. It needs no canonical form. -/
theorem Memory.read_write (m : Memory) (a b : Nat) (v : Byte) :
    (m.write a v).read b = if b = a then v else m.read b := by
  unfold Memory.write
  split
  · next h => simp [Memory.read_erase, h]
  · by_cases hb : b = a
    · subst hb
      simp [Memory.read_place_same _ _ _ fun c hc => (Memory.mem_erase.mp hc).2]
    · simp [Memory.read_place_other _ _ _ _ hb, Memory.read_erase, hb]

theorem Memory.mem_place {m : Memory} {a : Nat} {v : Byte} {c : Host.Cell} :
    c ∈ Memory.place m a v ↔ c = (a, v) ∨ c ∈ m := by
  induction m with
  | nil => simp [Memory.place]
  | cons d m ih =>
    simp only [Memory.place]
    split
    · simp
    · simp only [List.mem_cons, ih]; tauto

/-- Every entry after a write is the one written or an earlier one. -/
theorem Memory.mem_write {m : Memory} {a : Nat} {v : Byte} {c : Host.Cell} (h : c ∈ m.write a v) :
    c = (a, v) ∨ c ∈ m := by
  unfold Memory.write at h
  split at h
  · exact .inr (Memory.mem_erase.mp h).1
  · rcases Memory.mem_place.mp h with h | h
    · exact .inl h
    · exact .inr (Memory.mem_erase.mp h).1

theorem Memory.wf_iff {m : Memory} :
    m.wf = true ↔ m.Pairwise (fun c d => c.1 < d.1) ∧ ∀ c ∈ m, c.2 ≠ Memory.unlisted := by
  simp [Memory.wf]

theorem Memory.place_pairwise {m : Memory} {a : Nat} {v : Byte} (hm : m.Pairwise fun c d => c.1 < d.1)
    (h : ∀ c ∈ m, c.1 ≠ a) : (Memory.place m a v).Pairwise fun c d => c.1 < d.1 := by
  induction m with
  | nil => simp [Memory.place]
  | cons c m ih =>
    rw [List.pairwise_cons] at hm
    have hc : c.1 ≠ a := h c (by simp)
    simp only [Memory.place]
    split
    · next hlt =>
      refine List.pairwise_cons.mpr ⟨fun d hd => ?_, List.pairwise_cons.mpr hm⟩
      rcases List.mem_cons.mp hd with rfl | hd
      · exact hlt
      · exact lt_trans hlt (hm.1 d hd)
    · refine List.pairwise_cons.mpr ⟨fun d hd => ?_, ih hm.2 fun d hd => h d (by simp [hd])⟩
      rcases Memory.mem_place.mp hd with rfl | hd
      · exact lt_of_le_of_ne (by omega) hc
      · exact hm.1 d hd

@[simp] theorem Memory.wf_nil : Memory.wf [] = true := rfl

/-- A write keeps the canonical form. -/
theorem Memory.write_wf {m : Memory} (a : Nat) (v : Byte) (h : m.wf = true) : (m.write a v).wf = true := by
  obtain ⟨hp, hu⟩ := Memory.wf_iff.mp h
  have hpe : (m.erase a).Pairwise fun c d => c.1 < d.1 := hp.filter _
  unfold Memory.write
  split
  · exact Memory.wf_iff.mpr ⟨hpe, fun c hc => hu c (Memory.mem_erase.mp hc).1⟩
  · next hv =>
    refine Memory.wf_iff.mpr ⟨Memory.place_pairwise hpe fun c hc => (Memory.mem_erase.mp hc).2, fun c hc => ?_⟩
    rcases Memory.mem_place.mp hc with rfl | hc
    · exact hv
    · exact hu c (Memory.mem_erase.mp hc).1

/-- A write inside a range of addresses leaves every entry inside it. -/
theorem Memory.write_inside {m : Memory} {a n : Nat} {v : Byte} (h : ∀ c ∈ m, c.1 < n) (ha : a < n) :
    ∀ c ∈ m.write a v, c.1 < n := by
  intro c hc
  rcases Memory.mem_write hc with rfl | hc
  · exact ha
  · exact h c hc

/-- An address no entry has reads as the unlisted byte. -/
theorem Memory.read_unlisted {m : Memory} {a : Nat} (h : ∀ c ∈ m, c.1 ≠ a) : m.read a = Memory.unlisted := by
  induction m with
  | nil => rfl
  | cons c m ih => simp [h c (by simp), ih fun d hd => h d (by simp [hd])]

/-- Canonical memories that read alike everywhere are equal. -/
theorem Memory.ext_of_wf {m n : Memory} (hm : m.wf = true) (hn : n.wf = true) (h : ∀ a, m.read a = n.read a) :
    m = n := by
  obtain ⟨hmp, hmu⟩ := Memory.wf_iff.mp hm
  obtain ⟨hnp, hnu⟩ := Memory.wf_iff.mp hn
  clear hm hn
  induction m generalizing n with
  | nil =>
    cases n with
    | nil => rfl
    | cons d n => exact absurd (by simpa using (h d.1).symm) (hnu d (by simp))
  | cons c m ih =>
    rw [List.pairwise_cons] at hmp
    cases n with
    | nil => exact absurd (by simpa using h c.1) (hmu c (by simp))
    | cons d n =>
      rw [List.pairwise_cons] at hnp
      have hmr : ∀ b, b ≤ c.1 → Memory.read m b = Memory.unlisted := fun b hb =>
        Memory.read_unlisted fun e he => by have := hmp.1 e he; omega
      have hnr : ∀ b, b ≤ d.1 → Memory.read n b = Memory.unlisted := fun b hb =>
        Memory.read_unlisted fun e he => by have := hnp.1 e he; omega
      have hc := h c.1
      have hd := h d.1
      simp only [Memory.read_cons, if_true] at hc hd
      have hcd : c.1 = d.1 := by
        rcases lt_trichotomy c.1 d.1 with hlt | heq | hgt
        · rw [if_neg (by omega), hnr _ (by omega)] at hc
          exact absurd hc (hmu c (by simp))
        · exact heq
        · rw [if_neg (by omega), hmr _ (by omega)] at hd
          exact absurd hd.symm (hnu d (by simp))
      have hcd2 : c.2 = d.2 := by simpa [hcd] using hc
      have : c = d := Prod.ext hcd hcd2
      subst this
      refine congrArg _ (ih (fun a => ?_) hmp.2 (fun e he => hmu e (by simp [he])) hnp.2
        fun e he => hnu e (by simp [he]))
      by_cases ha : a ≤ c.1
      · rw [hmr a ha, hnr a ha]
      · have := h a
        simpa [show c.1 ≠ a by omega] using this

/-- Writing back the byte already there changes nothing. -/
theorem Memory.write_read_self {m : Memory} (h : m.wf = true) (a : Nat) : m.write a (m.read a) = m :=
  Memory.ext_of_wf (Memory.write_wf _ _ h) h fun b => by
    rw [Memory.read_write]; split <;> simp_all

end Sys2Proof.Machine
end

