-- ==== Sys2Proof/Laws/Framebuffer.lean ====
section
/-! SUPPORT. Pixels: what one pixel write and one drawing operation do to every pixel and every byte, padding included. -/

namespace Sys2Proof.Machine

/-! ## One pixel -/

theorem width_le_stride (cfg : Config) : cfg.width ≤ 8 * cfg.stride := by
  unfold Config.stride; omega

theorem stride_pos_of_lt {cfg : Config} {x : Nat} (h : x < 8 * cfg.stride) : 0 < cfg.stride := by omega

/-- Distinct places of the byte rows, padding included, are distinct bits of distinct bytes. -/
theorem pixel_place_inj {cfg : Config} {x y x' y' : Nat} (hx : x < 8 * cfg.stride) (hx' : x' < 8 * cfg.stride)
    (ha : pixelAddr cfg x y = pixelAddr cfg x' y') (hb : pixelBit x = pixelBit x') : x = x' ∧ y = y' := by
  unfold pixelAddr at ha
  unfold pixelBit at hb
  have h1 : x / 8 < cfg.stride := by omega
  have h2 : x' / 8 < cfg.stride := by omega
  have hy : y = y' := by
    rcases lt_trichotomy y y' with h | h | h
    · have := Nat.mul_le_mul_right cfg.stride (Nat.succ_le_of_lt h)
      rw [Nat.succ_mul] at this; omega
    · exact h
    · have := Nat.mul_le_mul_right cfg.stride (Nat.succ_le_of_lt h)
      rw [Nat.succ_mul] at this; omega
  subst hy
  exact ⟨by omega, rfl⟩

theorem pixelAddr_lt {cfg : Config} {x y : Nat} (hx : x < 8 * cfg.stride) (hy : y < cfg.height) :
    pixelAddr cfg x y < cfg.fbBytes := by
  unfold pixelAddr Config.fbBytes
  have h1 : x / 8 < cfg.stride := by omega
  have := Nat.mul_le_mul_right cfg.stride (Nat.succ_le_of_lt hy)
  rw [Nat.succ_mul] at this; omega

theorem pixelMask_bit (x i : Nat) : (pixelMask x).getLsbD i = decide (i = pixelBit x) := by
  unfold pixelMask pixelBit
  have h : x % 8 < 8 := Nat.mod_lt _ (by decide)
  generalize x % 8 = k at *
  by_cases hi : i < 8
  · interval_cases k <;> interval_cases i <;> decide
  · rw [BitVec.getLsbD_of_ge _ _ (by omega)]
    exact (decide_eq_false (by omega)).symm

/-- A pixel write sets its own bit of its own byte and no other bit of the framebuffer (20_memory.md R40). -/
theorem read_fbSet (cfg : Config) (m : Memory) (x y a i : Nat) (b : Bool) :
    ((fbSet cfg m x y b).read a).getLsbD i =
      if a = pixelAddr cfg x y ∧ i = pixelBit x then b else (m.read a).getLsbD i := by
  unfold fbSet
  simp only [Memory.read_write]
  by_cases ha : a = pixelAddr cfg x y
  · subst ha
    have hlt : pixelBit x < 8 := by unfold pixelBit; omega
    by_cases hi : i = pixelBit x
    · subst hi; cases b <;> simp [pixelMask_bit, hlt]
    · cases b <;> simp [pixelMask_bit, hi]
      intro h
      exact BitVec.lt_of_getLsbD h
  · simp [ha]

/-- A pixel write leaves every other byte alone. -/
theorem read_fbSet_other (cfg : Config) (m : Memory) (x y a : Nat) (b : Bool) (h : a ≠ pixelAddr cfg x y) :
    (fbSet cfg m x y b).read a = m.read a := by
  simp [fbSet, Memory.read_write, h]

/-- After a pixel write that pixel reads the bit, and every other place of the rows reads as before (R63). -/
theorem fbGet_fbSet {cfg : Config} (m : Memory) {x y x' y' : Nat} (b : Bool) (hx : x < 8 * cfg.stride)
    (hx' : x' < 8 * cfg.stride) :
    fbGet cfg (fbSet cfg m x y b) x' y' = if x' = x ∧ y' = y then b else fbGet cfg m x' y' := by
  unfold fbGet
  rw [read_fbSet]
  by_cases h : x' = x ∧ y' = y
  · obtain ⟨rfl, rfl⟩ := h; simp
  · rw [if_neg h, if_neg]
    rintro ⟨ha, hb⟩
    exact h (pixel_place_inj hx' hx ha hb)

theorem fbSet_wf {cfg : Config} {m : Memory} (x y : Nat) (b : Bool) (h : m.wf = true) :
    (fbSet cfg m x y b).wf = true := Memory.write_wf _ _ h

theorem fbSet_inside {cfg : Config} {m : Memory} {x y : Nat} {b : Bool} (h : ∀ c ∈ m, c.1 < cfg.fbBytes)
    (hx : x < 8 * cfg.stride) (hy : y < cfg.height) : ∀ c ∈ fbSet cfg m x y b, c.1 < cfg.fbBytes :=
  Memory.write_inside h (pixelAddr_lt hx hy)

/-! ## Drawing operations -/

/-- Drawing keeps whatever every pixel write inside the drawn window keeps. -/
theorem paintRow_keeps {cfg : Config} {P : Memory → Prop} {x y : Nat} {f : Nat → Option Bool} {n : Nat}
    (hset : ∀ m j b, j < n → P m → P (fbSet cfg m (x + j) y b)) {m : Memory} (h : P m) :
    P (paintRow cfg x y f n m) := by
  induction n with
  | zero => exact h
  | succ n ih =>
    have hr := ih (fun m j b hj => hset m j b (by omega))
    simp only [paintRow]
    cases f n with
    | none => exact hr
    | some b => exact hset _ n b (by omega) hr

/-- Drawing keeps whatever every pixel write inside the drawn window keeps. -/
theorem paint_keeps {cfg : Config} {P : Memory → Prop} {x y w : Nat} {f : Nat → Nat → Option Bool} {n : Nat}
    (hset : ∀ m j r b, j < w → r < n → P m → P (fbSet cfg m (x + j) (y + r) b)) {m : Memory} (h : P m) :
    P (paint cfg x y w f n m) := by
  induction n with
  | zero => exact h
  | succ n ih =>
    exact paintRow_keeps (fun m j b hj => hset m j n b hj (by omega)) (ih fun m j r b hj hr => hset m j r b hj (by omega))

theorem paint_wf {cfg : Config} {x y w n : Nat} {f : Nat → Nat → Option Bool} {m : Memory} (h : m.wf = true) :
    (paint cfg x y w f n m).wf = true :=
  paint_keeps (P := fun m => m.wf = true) (fun _ _ _ _ _ _ h => fbSet_wf _ _ _ h) h

theorem paint_inside {cfg : Config} {x y w n : Nat} {f : Nat → Nat → Option Bool} {m : Memory}
    (hw : cfg.windowInside x y w n = true) (h : ∀ c ∈ m, c.1 < cfg.fbBytes) :
    ∀ c ∈ paint cfg x y w f n m, c.1 < cfg.fbBytes := by
  have hw' : x + w ≤ cfg.width ∧ y + n ≤ cfg.height := by simpa [Config.windowInside] using hw
  have := width_le_stride cfg
  exact paint_keeps (P := fun m => ∀ c ∈ m, c.1 < cfg.fbBytes)
    (fun m j r b hj hr h => fbSet_inside h (by omega) (by omega)) h

/-- A drawing operation leaves a byte alone that holds no pixel of the window. -/
theorem read_paint_other {cfg : Config} {x y w n : Nat} {f : Nat → Nat → Option Bool} {m : Memory} {a : Nat}
    (ha : ∀ j r, j < w → r < n → a ≠ pixelAddr cfg (x + j) (y + r)) :
    (paint cfg x y w f n m).read a = m.read a :=
  paint_keeps (P := fun m' => Memory.read m' a = Memory.read m a)
    (fun m' j r b hj hr h => by rw [read_fbSet_other _ _ _ _ _ _ (ha j r hj hr), h]) rfl

theorem fbGet_paintRow {cfg : Config} {x y : Nat} {f : Nat → Option Bool} {n : Nat} {m : Memory} {x' y' : Nat}
    (hn : x + n ≤ 8 * cfg.stride) (hx' : x' < 8 * cfg.stride) :
    fbGet cfg (paintRow cfg x y f n m) x' y' =
      if x ≤ x' ∧ x' < x + n ∧ y' = y then (f (x' - x)).getD (fbGet cfg m x' y') else fbGet cfg m x' y' := by
  induction n with
  | zero => rw [paintRow, if_neg (by omega)]
  | succ n ih =>
    have ih := ih (by omega)
    simp only [paintRow]
    by_cases hp : x' = x + n ∧ y' = y
    · obtain ⟨rfl, rfl⟩ := hp
      rw [if_neg (by omega)] at ih
      rw [if_pos (by omega), show x + n - x = n by omega]
      cases f n with
      | none => simpa [fbPut] using ih
      | some b => simp [fbPut, fbGet_fbSet _ _ hx' hx']
    · have hprev : fbGet cfg (fbPut cfg (paintRow cfg x y f n m) (x + n) y (f n)) x' y' =
          fbGet cfg (paintRow cfg x y f n m) x' y' := by
        cases f n with
        | none => rfl
        | some b => simp only [fbPut]; rw [fbGet_fbSet _ _ (by omega) hx', if_neg hp]
      rw [hprev, ih]
      by_cases hin : x ≤ x' ∧ x' < x + n ∧ y' = y
      · rw [if_pos hin, if_pos (by omega)]
      · rw [if_neg hin, if_neg (by omega)]

/-- What a drawing operation does, once for all: a pixel of the window takes its bit where there is one, and every
other place of the rows, padding included, reads as before. -/
theorem fbGet_paint {cfg : Config} {x y w : Nat} {f : Nat → Nat → Option Bool} {n : Nat} {m : Memory} {x' y' : Nat}
    (hw : x + w ≤ 8 * cfg.stride) (hx' : x' < 8 * cfg.stride) :
    fbGet cfg (paint cfg x y w f n m) x' y' =
      if x ≤ x' ∧ x' < x + w ∧ y ≤ y' ∧ y' < y + n then (f (y' - y) (x' - x)).getD (fbGet cfg m x' y')
      else fbGet cfg m x' y' := by
  induction n with
  | zero => rw [paint, if_neg (by omega)]
  | succ n ih =>
    rw [paint, fbGet_paintRow hw hx', ih]
    by_cases hrow : x ≤ x' ∧ x' < x + w ∧ y' = y + n
    · rw [if_pos hrow, if_neg (by omega), if_pos (by omega)]
      obtain ⟨-, -, rfl⟩ := hrow
      rw [show y + n - y = n by omega]
    · rw [if_neg hrow]
      by_cases hin : x ≤ x' ∧ x' < x + w ∧ y ≤ y' ∧ y' < y + n
      · rw [if_pos hin, if_pos (by omega)]
      · rw [if_neg hin, if_neg (by omega)]

/-- Drawing inside the surface keeps the padding bits 0 (10_state.md R21). -/
theorem paint_padding {cfg : Config} {x y w n : Nat} {f : Nat → Nat → Option Bool} {m : Memory} {x' y' : Nat}
    (hw : x + w ≤ cfg.width) (hx : cfg.width ≤ x') (hx' : x' < 8 * cfg.stride) :
    fbGet cfg (paint cfg x y w f n m) x' y' = fbGet cfg m x' y' := by
  have := width_le_stride cfg
  rw [fbGet_paint (by omega) hx', if_neg (by omega)]

/-! ## The region shift -/

theorem fbShift_wf {cfg : Config} {m : Memory} {x y w h : Nat} {shift : Int} {wrap : Bool} (hm : m.wf = true) :
    (fbShift cfg m x y w h shift wrap).wf = true := by
  unfold fbShift; split
  · exact hm
  · exact paint_wf hm

theorem fbShift_inside {cfg : Config} {m : Memory} {x y w h : Nat} {shift : Int} {wrap : Bool}
    (hw : cfg.windowInside x y w h = true) (hm : ∀ c ∈ m, c.1 < cfg.fbBytes) :
    ∀ c ∈ fbShift cfg m x y w h shift wrap, c.1 < cfg.fbBytes := by
  unfold fbShift; split
  · exact hm
  · exact paint_inside hw hm

theorem wrapIndex_lt {n : Nat} (hn : 0 < n) (i : Int) : wrapIndex n i < n := by
  have h1 := Int.emod_nonneg i (b := (n : Int)) (by omega)
  have h2 := Int.emod_lt_of_pos i (b := (n : Int)) (by omega)
  unfold wrapIndex; omega

theorem wrapIndex_self {n i : Nat} (h : i < n) : wrapIndex n (i : Int) = i := by
  unfold wrapIndex; rw [Int.emod_eq_of_lt (by omega) (by omega)]; rfl

theorem wrapIndex_coe {n : Nat} (hn : 0 < n) (i : Int) : ((wrapIndex n i : Nat) : Int) = i % n := by
  unfold wrapIndex; exact Int.toNat_of_nonneg (Int.emod_nonneg _ (by omega))

theorem wrapIndex_congr {n : Nat} {i j : Int} (h : i % n = j % n) : wrapIndex n i = wrapIndex n j := by
  unfold wrapIndex; rw [h]

end Sys2Proof.Machine
end

