-- ==== Sys2Proof/Laws/Life.lean ====
section
/-! SUPPORT. Grids cell by cell, and the two things a Life tick can do. -/

namespace Sys2Proof.Machine

@[simp] theorem Grid.cell_nil (r c : Nat) : Grid.cell [] r c = false := by simp [Grid.cell]

theorem Grid.cell_ofFn {h w : Nat} {f : Nat → Nat → Bool} {r c : Nat} (hr : r < h) (hc : c < w) :
    Grid.cell (Grid.ofFn h w f) r c = f r c := by
  simp [Grid.cell, Grid.ofFn, List.getD_eq_getElem?_getD, hr, hc]

theorem Grid.same_iff {h w : Nat} {x y : Grid} :
    Grid.same h w x y = true ↔ ∀ r c, r < h → c < w → Grid.cell x r c = Grid.cell y r c := by
  simp only [Grid.same, List.all_eq_true, List.mem_range, beq_iff_eq]
  exact ⟨fun h r c hr hc => h r hr c hc, fun h r hr c hc => h r c hr hc⟩

theorem boardEmpty_iff {h w : Nat} {x : Grid} :
    boardEmpty h w x = true ↔ ∀ r c, r < h → c < w → Grid.cell x r c = false := by
  simp only [boardEmpty, List.all_eq_true, List.mem_range, Bool.not_eq_true']
  exact ⟨fun h r c hr hc => h r hr c hc, fun h r hr c hc => h r c hr hc⟩

/-- A Life tick must reseed exactly when the engine is uninitialized or one of the four triggers fires. -/
theorem lifeMustReseed_iff {s : State} {g : Region} {a : Animator} :
    LifeMustReseed s g a ↔
      a.lifeState = false ∨ triggerStill g a (nextBoard g.h g.w a.board) = true ∨
        triggerBlink g a (nextBoard g.h g.w a.board) = true ∨
        triggerExtinct g (nextBoard g.h g.w a.board) = true ∨ triggerAge s a = true := by
  simp only [LifeMustReseed, triggerStill, triggerBlink, triggerExtinct, triggerAge, Bool.and_eq_true,
    Grid.same_iff, boardEmpty_iff, decide_eq_true_eq]

/-- The record after a Life tick that must reseed. -/
theorem lifeTick_reseeds {s : State} {g : Region} {a : Animator} (h : LifeMustReseed s g a) :
    lifeTick s g a = { lifeReseed s g a with lifeState := true } := by
  rw [lifeMustReseed_iff] at h
  unfold lifeTick
  by_cases hl : a.lifeState = true
  · rw [if_pos hl]
    unfold lifeStep
    simp only [hl, Bool.true_eq_false, false_or] at h
    have e : lifeReseed s g a = { lifeReseed s g a with lifeState := true } := by simp [lifeReseed, hl]
    rw [← e]
    dsimp only
    rcases h with h | h | h | h <;> rw [h] <;> simp
  · rw [if_neg hl]

/-- The record after a Life tick that need not reseed. -/
theorem lifeTick_commits {s : State} {g : Region} {a : Animator} (h : ¬LifeMustReseed s g a) :
    a.lifeState = true ∧ lifeTick s g a = lifeCommit a (nextBoard g.h g.w a.board) := by
  rw [lifeMustReseed_iff] at h
  simp only [not_or, Bool.not_eq_true, Bool.not_eq_false] at h
  obtain ⟨h0, h1, h2, h3, h4⟩ := h
  refine ⟨h0, ?_⟩
  unfold lifeTick
  rw [if_pos h0]
  unfold lifeStep
  dsimp only
  rw [h1, h2, h3, h4]
  rfl

end Sys2Proof.Machine
end

