-- ==== Sys2Proof/Laws/State.lean ====
section
/-! SUPPORT. One lemma per field per update of the state, so that no later proof unfolds a record update. -/

namespace Sys2Proof.Machine

/-! ## `State.respond` -/

@[simp] theorem State.respond_mem (s : State) (d : BitVec 32) : (s.respond d).mem = s.mem := rfl
@[simp] theorem State.respond_slot (s : State) (d : BitVec 32) : (s.respond d).slot = s.slot := rfl
@[simp] theorem State.respond_changed (s : State) (d : BitVec 32) : (s.respond d).changed = s.changed := rfl
@[simp] theorem State.respond_run (s : State) (d : BitVec 32) : (s.respond d).run = s.run := rfl
@[simp] theorem State.respond_mode (s : State) (d : BitVec 32) : (s.respond d).mode = s.mode := rfl
@[simp] theorem State.respond_modeDue (s : State) (d : BitVec 32) : (s.respond d).modeDue = s.modeDue := rfl
@[simp] theorem State.respond_errFlags (s : State) (d : BitVec 32) : (s.respond d).errFlags = s.errFlags := rfl
@[simp] theorem State.respond_animators (s : State) (d : BitVec 32) : (s.respond d).animators = s.animators := rfl
@[simp] theorem State.respond_out (s : State) (d : BitVec 32) : (s.respond d).out = s.out := rfl
@[simp] theorem State.respond_cfg (s : State) (d : BitVec 32) : (s.respond d).cfg = s.cfg := rfl
@[simp] theorem State.respond_commands (s : State) (d : BitVec 32) : (s.respond d).commands = s.commands := rfl
@[simp] theorem State.respond_responses (s : State) (d : BitVec 32) :
    (s.respond d).responses = s.responses ++ [responseWord statusOk d] := rfl
@[simp] theorem State.respond_seqInputs (s : State) (d : BitVec 32) : (s.respond d).seqInputs = s.seqInputs := rfl
@[simp] theorem State.respond_schedule (s : State) (d : BitVec 32) : (s.respond d).schedule = s.schedule := rfl
@[simp] theorem State.respond_now (s : State) (d : BitVec 32) : (s.respond d).now = s.now := rfl
@[simp] theorem State.respond_draw (s : State) (d : BitVec 32) : (s.respond d).draw = s.draw := rfl
@[simp] theorem State.respond_turn (s : State) (d : BitVec 32) : (s.respond d).turn = s.turn := rfl

/-! ## `State.reject` -/

@[simp] theorem State.reject_mem (s : State) (e : ErrorKind) : (s.reject e).mem = s.mem := rfl
@[simp] theorem State.reject_slot (s : State) (e : ErrorKind) : (s.reject e).slot = s.slot := rfl
@[simp] theorem State.reject_changed (s : State) (e : ErrorKind) : (s.reject e).changed = s.changed := rfl
@[simp] theorem State.reject_run (s : State) (e : ErrorKind) : (s.reject e).run = s.run := rfl
@[simp] theorem State.reject_mode (s : State) (e : ErrorKind) : (s.reject e).mode = s.mode := rfl
@[simp] theorem State.reject_modeDue (s : State) (e : ErrorKind) : (s.reject e).modeDue = s.modeDue := rfl
@[simp] theorem State.reject_errFlags (s : State) (e : ErrorKind) : (s.reject e).errFlags = s.errFlags ||| e.flag := rfl
@[simp] theorem State.reject_animators (s : State) (e : ErrorKind) : (s.reject e).animators = s.animators := rfl
@[simp] theorem State.reject_out (s : State) (e : ErrorKind) : (s.reject e).out = s.out := rfl
@[simp] theorem State.reject_cfg (s : State) (e : ErrorKind) : (s.reject e).cfg = s.cfg := rfl
@[simp] theorem State.reject_commands (s : State) (e : ErrorKind) : (s.reject e).commands = s.commands := rfl
@[simp] theorem State.reject_responses (s : State) (e : ErrorKind) :
    (s.reject e).responses = s.responses ++ [responseWord e.code 0#32] := rfl
@[simp] theorem State.reject_seqInputs (s : State) (e : ErrorKind) : (s.reject e).seqInputs = s.seqInputs := rfl
@[simp] theorem State.reject_schedule (s : State) (e : ErrorKind) : (s.reject e).schedule = s.schedule := rfl
@[simp] theorem State.reject_now (s : State) (e : ErrorKind) : (s.reject e).now = s.now := rfl
@[simp] theorem State.reject_draw (s : State) (e : ErrorKind) : (s.reject e).draw = s.draw := rfl
@[simp] theorem State.reject_turn (s : State) (e : ErrorKind) : (s.reject e).turn = s.turn := rfl

/-! ## `State.advanceSlot` -/

@[simp] theorem State.advanceSlot_mem (s : State) : s.advanceSlot.mem = s.mem := rfl
@[simp] theorem State.advanceSlot_slot (s : State) : s.advanceSlot.slot = s.slot + 1 := rfl
@[simp] theorem State.advanceSlot_changed (s : State) : s.advanceSlot.changed = s.changed := rfl
@[simp] theorem State.advanceSlot_run (s : State) : s.advanceSlot.run = s.run := rfl
@[simp] theorem State.advanceSlot_mode (s : State) : s.advanceSlot.mode = s.mode := rfl
@[simp] theorem State.advanceSlot_modeDue (s : State) : s.advanceSlot.modeDue = s.modeDue := rfl
@[simp] theorem State.advanceSlot_errFlags (s : State) : s.advanceSlot.errFlags = s.errFlags := rfl
@[simp] theorem State.advanceSlot_animators (s : State) : s.advanceSlot.animators = s.animators := rfl
@[simp] theorem State.advanceSlot_out (s : State) : s.advanceSlot.out = s.out := rfl
@[simp] theorem State.advanceSlot_cfg (s : State) : s.advanceSlot.cfg = s.cfg := rfl
@[simp] theorem State.advanceSlot_commands (s : State) : s.advanceSlot.commands = s.commands := rfl
@[simp] theorem State.advanceSlot_responses (s : State) : s.advanceSlot.responses = s.responses := rfl
@[simp] theorem State.advanceSlot_seqInputs (s : State) : s.advanceSlot.seqInputs = s.seqInputs := rfl
@[simp] theorem State.advanceSlot_schedule (s : State) : s.advanceSlot.schedule = s.schedule := rfl
@[simp] theorem State.advanceSlot_now (s : State) : s.advanceSlot.now = s.now := rfl
@[simp] theorem State.advanceSlot_draw (s : State) : s.advanceSlot.draw = s.draw := rfl
@[simp] theorem State.advanceSlot_turn (s : State) : s.advanceSlot.turn = s.turn := rfl

/-! ## `State.finishBody` -/

@[simp] theorem State.finishBody_mem (s : State) (b : BodyResult) : (s.finishBody b).mem = b.mem := rfl
@[simp] theorem State.finishBody_slot (s : State) (b : BodyResult) : (s.finishBody b).slot = s.slot + 1 := rfl
@[simp] theorem State.finishBody_changed (s : State) (b : BodyResult) : (s.finishBody b).changed = true := rfl
@[simp] theorem State.finishBody_run (s : State) (b : BodyResult) : (s.finishBody b).run = s.run := rfl
@[simp] theorem State.finishBody_mode (s : State) (b : BodyResult) : (s.finishBody b).mode = s.mode := rfl
@[simp] theorem State.finishBody_modeDue (s : State) (b : BodyResult) : (s.finishBody b).modeDue = s.modeDue := rfl
@[simp] theorem State.finishBody_errFlags (s : State) (b : BodyResult) : (s.finishBody b).errFlags = s.errFlags := rfl
@[simp] theorem State.finishBody_animators (s : State) (b : BodyResult) :
    (s.finishBody b).animators = s.animators.set s.animatorIndex { b.anim with nextDue := tickAdd s.cfg s.now b.interval } := rfl
@[simp] theorem State.finishBody_out (s : State) (b : BodyResult) : (s.finishBody b).out = s.out := rfl
@[simp] theorem State.finishBody_cfg (s : State) (b : BodyResult) : (s.finishBody b).cfg = s.cfg := rfl
@[simp] theorem State.finishBody_commands (s : State) (b : BodyResult) : (s.finishBody b).commands = s.commands := rfl
@[simp] theorem State.finishBody_responses (s : State) (b : BodyResult) :
    (s.finishBody b).responses = s.responses := rfl
@[simp] theorem State.finishBody_seqInputs (s : State) (b : BodyResult) :
    (s.finishBody b).seqInputs = s.seqInputs := rfl
@[simp] theorem State.finishBody_schedule (s : State) (b : BodyResult) : (s.finishBody b).schedule = s.schedule := rfl
@[simp] theorem State.finishBody_now (s : State) (b : BodyResult) : (s.finishBody b).now = s.now := rfl
@[simp] theorem State.finishBody_draw (s : State) (b : BodyResult) : (s.finishBody b).draw = s.draw := rfl
@[simp] theorem State.finishBody_turn (s : State) (b : BodyResult) : (s.finishBody b).turn = s.turn := rfl

/-! ## `State.passTurn` -/

@[simp] theorem State.passTurn_mem (s : State) : s.passTurn.mem = s.mem := rfl
@[simp] theorem State.passTurn_slot (s : State) : s.passTurn.slot = s.slot := rfl
@[simp] theorem State.passTurn_changed (s : State) : s.passTurn.changed = s.changed := rfl
@[simp] theorem State.passTurn_run (s : State) : s.passTurn.run = s.run := rfl
@[simp] theorem State.passTurn_mode (s : State) : s.passTurn.mode = s.mode := rfl
@[simp] theorem State.passTurn_modeDue (s : State) : s.passTurn.modeDue = s.modeDue := rfl
@[simp] theorem State.passTurn_errFlags (s : State) : s.passTurn.errFlags = s.errFlags := rfl
@[simp] theorem State.passTurn_animators (s : State) : s.passTurn.animators = s.animators := rfl
@[simp] theorem State.passTurn_out (s : State) : s.passTurn.out = s.out := rfl
@[simp] theorem State.passTurn_cfg (s : State) : s.passTurn.cfg = s.cfg := rfl
@[simp] theorem State.passTurn_commands (s : State) : s.passTurn.commands = s.commands := rfl
@[simp] theorem State.passTurn_responses (s : State) : s.passTurn.responses = s.responses := rfl
@[simp] theorem State.passTurn_seqInputs (s : State) : s.passTurn.seqInputs = s.seqInputs := rfl
@[simp] theorem State.passTurn_schedule (s : State) : s.passTurn.schedule = s.schedule.tail := rfl
@[simp] theorem State.passTurn_now (s : State) : s.passTurn.now = s.now := rfl
@[simp] theorem State.passTurn_draw (s : State) : s.passTurn.draw = s.draw := rfl
@[simp] theorem State.passTurn_turn (s : State) : s.passTurn.turn = s.turn + 1 := rfl

/-! ## `State.acceptCommand` -/

@[simp] theorem State.acceptCommand_mem (s : State) : s.acceptCommand.mem = s.mem := rfl
@[simp] theorem State.acceptCommand_slot (s : State) : s.acceptCommand.slot = s.slot := rfl
@[simp] theorem State.acceptCommand_changed (s : State) : s.acceptCommand.changed = s.changed := rfl
@[simp] theorem State.acceptCommand_run (s : State) : s.acceptCommand.run = s.run := rfl
@[simp] theorem State.acceptCommand_mode (s : State) : s.acceptCommand.mode = s.mode := rfl
@[simp] theorem State.acceptCommand_modeDue (s : State) : s.acceptCommand.modeDue = s.modeDue := rfl
@[simp] theorem State.acceptCommand_errFlags (s : State) : s.acceptCommand.errFlags = s.errFlags := rfl
@[simp] theorem State.acceptCommand_animators (s : State) : s.acceptCommand.animators = s.animators := rfl
@[simp] theorem State.acceptCommand_out (s : State) : s.acceptCommand.out = s.out := rfl
@[simp] theorem State.acceptCommand_cfg (s : State) : s.acceptCommand.cfg = s.cfg := rfl
@[simp] theorem State.acceptCommand_commands (s : State) : s.acceptCommand.commands = s.commands.tail := rfl
@[simp] theorem State.acceptCommand_responses (s : State) : s.acceptCommand.responses = s.responses := rfl
@[simp] theorem State.acceptCommand_seqInputs (s : State) : s.acceptCommand.seqInputs = s.seqInputs := rfl
@[simp] theorem State.acceptCommand_schedule (s : State) : s.acceptCommand.schedule = s.schedule := rfl
@[simp] theorem State.acceptCommand_now (s : State) : s.acceptCommand.now = s.now := rfl
@[simp] theorem State.acceptCommand_draw (s : State) : s.acceptCommand.draw = s.draw := rfl
@[simp] theorem State.acceptCommand_turn (s : State) : s.acceptCommand.turn = s.turn := rfl

/-! ## `State.applyReset` -/

@[simp] theorem State.applyReset_mem (s : State) (t0 : Tick) : (s.applyReset t0).mem = [] := rfl
@[simp] theorem State.applyReset_slot (s : State) (t0 : Tick) : (s.applyReset t0).slot = 0 := rfl
@[simp] theorem State.applyReset_changed (s : State) (t0 : Tick) : (s.applyReset t0).changed = false := rfl
@[simp] theorem State.applyReset_run (s : State) (t0 : Tick) : (s.applyReset t0).run = true := rfl
@[simp] theorem State.applyReset_mode (s : State) (t0 : Tick) : (s.applyReset t0).mode = .relaxed := rfl
@[simp] theorem State.applyReset_modeDue (s : State) (t0 : Tick) :
    (s.applyReset t0).modeDue = tickAdd s.cfg (t0 % s.cfg.tickSpan) s.cfg.fastRunTime := rfl
@[simp] theorem State.applyReset_errFlags (s : State) (t0 : Tick) : (s.applyReset t0).errFlags = 0#3 := rfl
@[simp] theorem State.applyReset_animators (s : State) (t0 : Tick) :
    (s.applyReset t0).animators = List.replicate s.cfg.nanim (Animator.fresh (t0 % s.cfg.tickSpan)) := rfl
@[simp] theorem State.applyReset_out (s : State) (t0 : Tick) : (s.applyReset t0).out = [] := rfl
@[simp] theorem State.applyReset_cfg (s : State) (t0 : Tick) : (s.applyReset t0).cfg = s.cfg := rfl
@[simp] theorem State.applyReset_commands (s : State) (t0 : Tick) : (s.applyReset t0).commands = s.commands := rfl
@[simp] theorem State.applyReset_responses (s : State) (t0 : Tick) : (s.applyReset t0).responses = [] := rfl
@[simp] theorem State.applyReset_seqInputs (s : State) (t0 : Tick) : (s.applyReset t0).seqInputs = s.seqInputs := rfl
@[simp] theorem State.applyReset_schedule (s : State) (t0 : Tick) : (s.applyReset t0).schedule = s.schedule := rfl
@[simp] theorem State.applyReset_now (s : State) (t0 : Tick) : (s.applyReset t0).now = t0 % s.cfg.tickSpan := rfl
@[simp] theorem State.applyReset_draw (s : State) (t0 : Tick) : (s.applyReset t0).draw = Draw.zero := rfl
@[simp] theorem State.applyReset_turn (s : State) (t0 : Tick) : (s.applyReset t0).turn = s.turn := rfl

/-! ## `State.sampleInputs`: the supplied tick and draw, else free ones, and no other change -/

@[simp] theorem State.sampleInputs_mem (s : State) : s.sampleInputs.mem = s.mem := by
  unfold State.sampleInputs; split <;> rfl
@[simp] theorem State.sampleInputs_slot (s : State) : s.sampleInputs.slot = s.slot := by
  unfold State.sampleInputs; split <;> rfl
@[simp] theorem State.sampleInputs_changed (s : State) : s.sampleInputs.changed = s.changed := by
  unfold State.sampleInputs; split <;> rfl
@[simp] theorem State.sampleInputs_run (s : State) : s.sampleInputs.run = s.run := by
  unfold State.sampleInputs; split <;> rfl
@[simp] theorem State.sampleInputs_mode (s : State) : s.sampleInputs.mode = s.mode := by
  unfold State.sampleInputs; split <;> rfl
@[simp] theorem State.sampleInputs_modeDue (s : State) : s.sampleInputs.modeDue = s.modeDue := by
  unfold State.sampleInputs; split <;> rfl
@[simp] theorem State.sampleInputs_errFlags (s : State) : s.sampleInputs.errFlags = s.errFlags := by
  unfold State.sampleInputs; split <;> rfl
@[simp] theorem State.sampleInputs_animators (s : State) : s.sampleInputs.animators = s.animators := by
  unfold State.sampleInputs; split <;> rfl
@[simp] theorem State.sampleInputs_out (s : State) : s.sampleInputs.out = s.out := by
  unfold State.sampleInputs; split <;> rfl
@[simp] theorem State.sampleInputs_cfg (s : State) : s.sampleInputs.cfg = s.cfg := by
  unfold State.sampleInputs; split <;> rfl
@[simp] theorem State.sampleInputs_commands (s : State) : s.sampleInputs.commands = s.commands := by
  unfold State.sampleInputs; split <;> rfl
@[simp] theorem State.sampleInputs_responses (s : State) : s.sampleInputs.responses = s.responses := by
  unfold State.sampleInputs; split <;> rfl
@[simp] theorem State.sampleInputs_seqInputs (s : State) : s.sampleInputs.seqInputs = s.seqInputs.tail := by
  unfold State.sampleInputs; split <;> simp [*]
@[simp] theorem State.sampleInputs_schedule (s : State) : s.sampleInputs.schedule = s.schedule := by
  unfold State.sampleInputs; split <;> rfl
@[simp] theorem State.sampleInputs_turn (s : State) : s.sampleInputs.turn = s.turn := by
  unfold State.sampleInputs; split <;> rfl

theorem State.sampleInputs_cons {s : State} {inp : SeqInput} {rest : List SeqInput} (h : s.seqInputs = inp :: rest) :
    s.sampleInputs =
      { s with
        now := inp.now % s.cfg.tickSpan
        draw := { inp.draw with u := inp.draw.u % 2 ^ s.cfg.uBits }
        seqInputs := rest } := by
  unfold State.sampleInputs; rw [h]

theorem State.sampleInputs_nil {s : State} (h : s.seqInputs = []) :
    s.sampleInputs =
      { s with now := Config.freeTick s.turn % s.cfg.tickSpan, draw := freeDraw s.cfg s.mode s.turn } := by
  unfold State.sampleInputs; rw [h]

theorem tickSpan_pos (cfg : Config) : 0 < cfg.tickSpan := Nat.two_pow_pos _

theorem State.sampleInputs_now_lt (s : State) : s.sampleInputs.now < s.cfg.tickSpan := by
  unfold State.sampleInputs
  split <;> exact Nat.mod_lt _ (tickSpan_pos _)

/-! ## `modeCheck` writes `MODE` and `MODE_DUE` only -/

@[simp] theorem modeCheck_mem (s : State) : (modeCheck s).mem = s.mem := by
  unfold modeCheck; split <;> rfl
@[simp] theorem modeCheck_slot (s : State) : (modeCheck s).slot = s.slot := by
  unfold modeCheck; split <;> rfl
@[simp] theorem modeCheck_changed (s : State) : (modeCheck s).changed = s.changed := by
  unfold modeCheck; split <;> rfl
@[simp] theorem modeCheck_run (s : State) : (modeCheck s).run = s.run := by
  unfold modeCheck; split <;> rfl
@[simp] theorem modeCheck_errFlags (s : State) : (modeCheck s).errFlags = s.errFlags := by
  unfold modeCheck; split <;> rfl
@[simp] theorem modeCheck_animators (s : State) : (modeCheck s).animators = s.animators := by
  unfold modeCheck; split <;> rfl
@[simp] theorem modeCheck_out (s : State) : (modeCheck s).out = s.out := by
  unfold modeCheck; split <;> rfl
@[simp] theorem modeCheck_cfg (s : State) : (modeCheck s).cfg = s.cfg := by
  unfold modeCheck; split <;> rfl
@[simp] theorem modeCheck_commands (s : State) : (modeCheck s).commands = s.commands := by
  unfold modeCheck; split <;> rfl
@[simp] theorem modeCheck_responses (s : State) : (modeCheck s).responses = s.responses := by
  unfold modeCheck; split <;> rfl
@[simp] theorem modeCheck_seqInputs (s : State) : (modeCheck s).seqInputs = s.seqInputs := by
  unfold modeCheck; split <;> rfl
@[simp] theorem modeCheck_schedule (s : State) : (modeCheck s).schedule = s.schedule := by
  unfold modeCheck; split <;> rfl
@[simp] theorem modeCheck_now (s : State) : (modeCheck s).now = s.now := by
  unfold modeCheck; split <;> rfl
@[simp] theorem modeCheck_draw (s : State) : (modeCheck s).draw = s.draw := by
  unfold modeCheck; split <;> rfl
@[simp] theorem modeCheck_turn (s : State) : (modeCheck s).turn = s.turn := by
  unfold modeCheck; split <;> rfl

end Sys2Proof.Machine
end

