-- ==== Sys2Proof/Laws/Ops.lean ====
section
/-! SUPPORT. What each shared operation can do, said once: host commands, slots, the animator discipline and its bodies. -/

namespace Sys2Proof.Machine

/-! ## When a step is enabled -/

theorem hostCommand_accepts {s : State} {f : State → State} (h : s.slot = 0) : hostCommand s f = .next (f s) :=
  if_pos h

theorem hostCommand_waits {s : State} {f : State → State} (h : s.slot ≠ 0) : hostCommand s f = .next s := if_neg h

/-- A host command always answers: its effect between cycles, nothing inside one. -/
theorem hostCommand_cases {s t : State} {f : State → State} (h : hostCommand s f = .next t) :
    (s.slot = 0 ∧ t = f s) ∨ (s.slot ≠ 0 ∧ t = s) := by
  unfold hostCommand at h
  split at h
  · exact .inl ⟨‹_›, (Host.Outcome.next.inj h).symm⟩
  · exact .inr ⟨‹_›, (Host.Outcome.next.inj h).symm⟩

theorem sequencerSlot_runs {s : State} {f : State → Host.Outcome State Fault Refusal} (h : s.run = true) :
    sequencerSlot s f = f s := if_pos h

theorem sequencerSlot_holds {s : State} {f : State → Host.Outcome State Fault Refusal} (h : s.run = false) :
    sequencerSlot s f = .next s := by simp [sequencerSlot, h]

theorem sequencerSlot_cases {s t : State} {f : State → Host.Outcome State Fault Refusal}
    (h : sequencerSlot s f = .next t) : (s.run = false ∧ t = s) ∨ (s.run = true ∧ f s = .next t) := by
  cases hr : s.run
  · exact .inl ⟨rfl, by rw [sequencerSlot_holds hr] at h; exact (Host.Outcome.next.inj h).symm⟩
  · exact .inr ⟨rfl, by rwa [sequencerSlot_runs hr] at h⟩

/-! ## Draws -/

theorem Draw.legal_iff {cfg : Config} {mode : Mode} {d : Draw} :
    d.legal cfg mode = true ↔ resetDelayLegal cfg d.resetDelay = true ∧ d.idx < (delaySet cfg mode).length := by
  simp only [Draw.legal, Bool.and_eq_true, decide_eq_true_eq]

/-! ## The animator discipline -/

theorem State.animator?_eq {s : State} {a : Animator} :
    s.animator? = some a ↔ 1 ≤ s.slot ∧ s.animators[s.slot - 1]? = some a := by
  unfold State.animator? State.animatorIndex
  by_cases h : s.slot = 0
  · simp [h]
  · simp only [h, if_false]; exact ⟨fun x => ⟨by omega, x⟩, fun x => x.2⟩

/-- A ready animator slot: the body when due, else only `SLOT` moves. -/
theorem pollAnimator_ready {s : State} {region : Nat} {g : Region} {a : Animator}
    {body : Region → Animator → Except Refusal BodyResult} (h : SlotReady s region g a) :
    pollAnimator s region body =
      if due s.cfg s.now a.nextDue then
        match body g a with
        | .ok b => .next (s.finishBody b)
        | .error r => .refused r
      else .next s.advanceSlot := by
  obtain ⟨hr, hg, hi, h1, ha⟩ := h
  simp only [pollAnimator, sequencerSlot_runs hr, hg, hi, State.animator?_eq.mpr ⟨h1, ha⟩, if_true] <;> rfl

/-- Everything an animator slot can do when it answers: it is held, it is not due, or its body ran. -/
theorem pollAnimator_cases {s t : State} {region : Nat} {body : Region → Animator → Except Refusal BodyResult}
    (h : pollAnimator s region body = .next t) :
    (s.run = false ∧ t = s) ∨
      ∃ g a, SlotReady s region g a ∧
        ((due s.cfg s.now a.nextDue = false ∧ t = s.advanceSlot) ∨
          ∃ b, due s.cfg s.now a.nextDue = true ∧ body g a = .ok b ∧ t = s.finishBody b) := by
  rcases sequencerSlot_cases h with h | ⟨hr, h⟩
  · exact .inl h
  · refine .inr ?_
    split at h
    · cases h
    · next g hg =>
      split at h
      · next hi =>
        split at h
        · cases h
        · next a ha =>
          have ha' := State.animator?_eq.mp ha
          refine ⟨g, a, ⟨hr, hg, hi, ha'.1, ha'.2⟩, ?_⟩
          split at h
          · next hd =>
            split at h
            · next b hb => exact .inr ⟨b, hd, hb, (Host.Outcome.next.inj h).symm⟩
            · cases h
          · next hd => exact .inl ⟨by simpa using hd, (Host.Outcome.next.inj h).symm⟩
      · cases h

/-! ## Drawing stays in its window -/

theorem SameOutside.refl (cfg : Config) (m : Memory) (x y w h : Nat) : SameOutside cfg m m x y w h :=
  ⟨fun _ _ => rfl, fun _ _ _ _ => rfl⟩

theorem paint_sameOutside {cfg : Config} {m : Memory} {x y w n : Nat} {f : Nat → Nat → Option Bool}
    (hw : x + w ≤ 8 * cfg.stride) : SameOutside cfg m (paint cfg x y w f n m) x y w n := by
  refine ⟨fun a ha => read_paint_other fun j r hj hr hx => ha ⟨j, r, hj, hr, hx⟩, fun x' y' hx' hin => ?_⟩
  rw [fbGet_paint hw hx']; exact if_neg hin

theorem windowInside_iff {cfg : Config} {x y w h : Nat} :
    cfg.windowInside x y w h = true ↔ x + w ≤ cfg.width ∧ y + h ≤ cfg.height := by
  simp [Config.windowInside]

theorem windowInside_stride {cfg : Config} {x y w h : Nat} (hw : cfg.windowInside x y w h = true) :
    x + w ≤ 8 * cfg.stride := by
  have := width_le_stride cfg
  have := (windowInside_iff.mp hw).1
  omega

/-- A pixel of a painted window takes the bit it is given. -/
theorem fbGet_paint_in {cfg : Config} {m : Memory} {x y w n j r : Nat} {f : Nat → Nat → Option Bool}
    (hw : x + w ≤ 8 * cfg.stride) (hj : j < w) (hr : r < n) :
    fbGet cfg (paint cfg x y w f n m) (x + j) (y + r) = (f r j).getD (fbGet cfg m (x + j) (y + r)) := by
  rw [fbGet_paint hw (by omega), if_pos (by omega), Nat.add_sub_cancel_left, Nat.add_sub_cancel_left]

theorem fbShift_sameOutside {cfg : Config} {m : Memory} {x y w h : Nat} {shift : Int} {wrap : Bool}
    (hw : cfg.windowInside x y w h = true) :
    SameOutside cfg m (fbShift cfg m x y w h shift wrap) x y w h := by
  unfold fbShift; split
  · exact SameOutside.refl ..
  · exact paint_sameOutside (windowInside_stride hw)

/-- What the region shift puts on a pixel of the window: the row rotated or shifted (40_framebuffer.md R67, R68). -/
theorem fbGet_fbShift {cfg : Config} {m : Memory} {x y w h i r : Nat} {shift : Int} {wrap : Bool}
    (hw : cfg.windowInside x y w h = true) (hi : i < w) (hr : r < h) :
    fbGet cfg (fbShift cfg m x y w h shift wrap) (x + i) (y + r) =
      if wrap then fbGet cfg m (x + wrapIndex w ((i : Int) - shift)) (y + r)
      else if 0 ≤ (i : Int) - shift ∧ (i : Int) - shift < (w : Int) then
        fbGet cfg m (x + ((i : Int) - shift).toNat) (y + r)
      else false := by
  unfold fbShift
  by_cases hs : shift = 0
  · subst hs
    have h0 : (0 : Int) ≤ (i : Int) - 0 ∧ (i : Int) - 0 < (w : Int) := by omega
    have h1 : ((i : Int) - 0).toNat = i := by omega
    have h2 : wrapIndex w ((i : Int) - 0) = i := by rw [sub_zero, wrapIndex_self hi]
    simp [wrapIndex_self hi, hi]
  · rw [if_neg (by omega), fbGet_paint_in (windowInside_stride hw) hi hr]
    cases wrap <;> simp [rot, shl]

/-- Two framebuffers in canonical form that agree outside a window and on every pixel of it are one. -/
theorem eq_of_window {cfg : Config} {m m' : Memory} {x y w h : Nat} (hm : m.wf = true) (hm' : m'.wf = true)
    (hw : cfg.windowInside x y w h = true) (ho : SameOutside cfg m m' x y w h)
    (hi : ∀ i r, i < w → r < h → fbGet cfg m' (x + i) (y + r) = fbGet cfg m (x + i) (y + r)) : m' = m := by
  apply Memory.ext_of_wf hm' hm
  intro a
  by_cases hwb : windowByte cfg x y w h a
  · obtain ⟨j, r, hj, hr, rfl⟩ := hwb
    have hst := windowInside_stride hw
    apply BitVec.eq_of_getLsbD_eq
    intro k hk
    have e : ∀ n : Memory, (n.read (pixelAddr cfg (x + j) (y + r))).getLsbD k =
        fbGet cfg n (8 * ((x + j) / 8) + (7 - k)) (y + r) := by
      intro n
      unfold fbGet pixelAddr pixelBit
      rw [show (8 * ((x + j) / 8) + (7 - k)) / 8 = (x + j) / 8 by omega,
        show 7 - (8 * ((x + j) / 8) + (7 - k)) % 8 = k by omega]
    rw [e, e]
    by_cases hin : inWindow x y w h (8 * ((x + j) / 8) + (7 - k)) (y + r)
    · obtain ⟨h1, h2, -, -⟩ := hin
      have := hi (8 * ((x + j) / 8) + (7 - k) - x) r (by omega) hr
      rwa [show x + (8 * ((x + j) / 8) + (7 - k) - x) = 8 * ((x + j) / 8) + (7 - k) by omega] at this
    · exact ho.2 _ _ (by omega) hin
  · exact ho.1 a hwb

theorem SameOutside.trans {cfg : Config} {m m' m'' : Memory} {x y w h : Nat} (h1 : SameOutside cfg m m' x y w h)
    (h2 : SameOutside cfg m' m'' x y w h) : SameOutside cfg m m'' x y w h :=
  ⟨fun a ha => (h2.1 a ha).trans (h1.1 a ha), fun x' y' hx hin => (h2.2 x' y' hx hin).trans (h1.2 x' y' hx hin)⟩

theorem SameOutside.symm {cfg : Config} {m m' : Memory} {x y w h : Nat} (h1 : SameOutside cfg m m' x y w h) :
    SameOutside cfg m' m x y w h := ⟨fun a ha => (h1.1 a ha).symm, fun x' y' hx hin => (h1.2 x' y' hx hin).symm⟩

theorem paddingClear_iff {cfg : Config} {m : Memory} :
    paddingClear cfg m = true ↔
      ∀ x y, y < cfg.height → x < 8 * cfg.stride → cfg.width ≤ x → fbGet cfg m x y = false := by
  simp only [paddingClear, List.all_eq_true, List.mem_range, Bool.or_eq_true, decide_eq_true_eq, Bool.not_eq_true']
  constructor
  · intro h x y hy hx hw
    rcases h y hy x hx with h | h
    · omega
    · exact h
  · intro h y hy x hx
    by_cases hw : x < cfg.width
    · exact .inl hw
    · exact .inr (h x y hy hx (by omega))

/-- What changes nothing outside a window inside the surface leaves the padding clear. -/
theorem SameOutside.paddingClear {cfg : Config} {m m' : Memory} {x y w h : Nat} (hs : SameOutside cfg m m' x y w h)
    (hw : x + w ≤ cfg.width) (hp : paddingClear cfg m = true) : paddingClear cfg m' = true := by
  rw [paddingClear_iff] at *
  intro x' y' h1 h2 h3
  rw [hs.2 _ _ h2 (by rintro ⟨a, b, c, d⟩; omega)]
  exact hp x' y' h1 h2 h3

/-! ## Row values -/

theorem rowValue_lt (cfg : Config) (m : Memory) (x y n : Nat) : rowValue cfg m x y n < 2 ^ n := by
  induction n with
  | zero => simp [rowValue]
  | succ n ih =>
    have := Bool.toNat_lt (fbGet cfg m (x + n) y)
    simp only [rowValue]
    rw [pow_succ]
    omega

/-- Bit `k` of a row's value is the pixel `k` places from the right end. -/
theorem rowValue_bit (cfg : Config) (m : Memory) (x y n k : Nat) :
    (rowValue cfg m x y n).testBit k = if k < n then fbGet cfg m (x + (n - 1 - k)) y else false := by
  split
  · next hk =>
    induction n generalizing k with
    | zero => omega
    | succ n ih =>
      cases k with
      | zero => rw [rowValue]; simp [Nat.testBit_zero]; cases fbGet cfg m (x + n) y <;> simp
      | succ k =>
        have := Bool.toNat_lt (fbGet cfg m (x + n) y)
        rw [rowValue, Nat.testBit_succ,
          show (2 * rowValue cfg m x y n + (fbGet cfg m (x + n) y).toNat) / 2 = rowValue cfg m x y n by omega,
          ih k (by omega), show n - 1 - k = n + 1 - 1 - (k + 1) by omega]
  · apply Nat.testBit_lt_two_pow
    exact lt_of_lt_of_le (rowValue_lt ..) (Nat.pow_le_pow_right (by omega) (by omega))

/-! ## What the bodies of the animators draw -/

theorem drawSeed_sameOutside {cfg : Config} {m : Memory} {g : Region} {seed : List Nat}
    (hw : cfg.windowInside g.x g.y g.w g.h = true) :
    SameOutside cfg m (drawSeed cfg m g seed) g.x g.y g.w g.h := paint_sameOutside (windowInside_stride hw)

theorem render_sameOutside {cfg : Config} {m : Memory} {g : Region} {v nbits : Nat}
    (hw : cfg.windowInside g.x g.y g.w g.h = true) :
    SameOutside cfg m (render cfg m g v nbits) g.x g.y g.w g.h := paint_sameOutside (windowInside_stride hw)

theorem applyNoise_sameOutside {cfg : Config} {m : Memory} {g : Region} {coin val : Grid}
    (hw : cfg.windowInside g.x g.y g.w g.h = true) :
    SameOutside cfg m (applyNoise cfg m g coin val) g.x g.y g.w g.h := paint_sameOutside (windowInside_stride hw)

theorem drawBoard_sameOutside {cfg : Config} {m : Memory} {g : Region} {b : Grid}
    (hw : cfg.windowInside g.x g.y g.w g.h = true) :
    SameOutside cfg m (drawBoard cfg m g b) g.x g.y g.w g.h := paint_sameOutside (windowInside_stride hw)

/-- What an animator's body leaves of the framebuffer: a region shift or one painting of its own region. -/
def DrawsRegion (cfg : Config) (m m' : Memory) (g : Region) : Prop :=
  (∃ shift wrap, m' = fbShift cfg m g.x g.y g.w g.h shift wrap) ∨ ∃ f, m' = paint cfg g.x g.y g.w f g.h m

theorem DrawsRegion.sameOutside {cfg : Config} {m m' : Memory} {g : Region} (h : DrawsRegion cfg m m' g)
    (hw : cfg.windowInside g.x g.y g.w g.h = true) : SameOutside cfg m m' g.x g.y g.w g.h := by
  rcases h with ⟨shift, wrap, rfl⟩ | ⟨f, rfl⟩
  · exact fbShift_sameOutside hw
  · exact paint_sameOutside (windowInside_stride hw)

theorem DrawsRegion.wf {cfg : Config} {m m' : Memory} {g : Region} (h : DrawsRegion cfg m m' g)
    (hm : m.wf = true) : m'.wf = true := by
  rcases h with ⟨shift, wrap, rfl⟩ | ⟨f, rfl⟩
  · exact fbShift_wf hm
  · exact paint_wf hm

theorem DrawsRegion.inside {cfg : Config} {m m' : Memory} {g : Region} (h : DrawsRegion cfg m m' g)
    (hw : cfg.windowInside g.x g.y g.w g.h = true) (hm : ∀ c ∈ m, c.1 < cfg.fbBytes) :
    ∀ c ∈ m', c.1 < cfg.fbBytes := by
  rcases h with ⟨shift, wrap, rfl⟩ | ⟨f, rfl⟩
  · exact fbShift_inside hw hm
  · exact paint_inside hw hm

/-! ## What the bodies of the animators do to their record -/

theorem lifeReseed_createdAt (s : State) (g : Region) (a : Animator) : (lifeReseed s g a).createdAt = s.now := rfl

theorem lifeReseed_nextReset (s : State) (g : Region) (a : Animator) : (lifeReseed s g a).nextReset = a.nextReset := rfl

/-- A running Life tick reseeds or commits, nothing else. -/
theorem lifeStep_cases (s : State) (g : Region) (a : Animator) :
    lifeStep s g a = lifeReseed s g a ∨ lifeStep s g a = lifeCommit a (nextBoard g.h g.w a.board) := by
  unfold lifeStep
  dsimp only
  repeat' split
  all_goals first | exact .inl rfl | exact .inr rfl

/-- What a body gives when it gives anything: a drawing of its region, the other deadlines still tick values, and an
interval of its own. -/
theorem lifeTick_ticks (s : State) (g : Region) (a : Animator) :
    (lifeTick s g a).nextReset = a.nextReset ∧
      ((lifeTick s g a).createdAt = a.createdAt ∨ (lifeTick s g a).createdAt = s.now) := by
  unfold lifeTick
  split
  · rcases lifeStep_cases s g a with h | h <;> rw [h] <;> simp [lifeReseed, lifeCommit]
  · simp [lifeReseed]

/-- The body of an animator slot, and what it can give. -/
structure BodyLaw (s : State) (body : Region → Animator → Except Refusal BodyResult) (i : Instr) : Prop where
  draws : ∀ g a b, body g a = .ok b → DrawsRegion s.cfg s.mem b.mem g
  resets : ∀ g a b, body g a = .ok b → b.anim.nextReset = a.nextReset ∨
    ∃ d, b.anim.nextReset = tickAdd s.cfg s.now d
  created : ∀ g a b, body g a = .ok b → b.anim.createdAt = a.createdAt ∨ b.anim.createdAt = s.now
  interval : ∀ g a b, body g a = .ok b → i.wellFormed s.cfg = true → s.cfg.numbersOk = true →
    s.cfg.legalInterval b.interval = true

theorem patternBody_law (s : State) (region : Nat) (seed : List Nat) (shift : Int) (period : Nat) :
    BodyLaw s (patternBody s seed shift period) (.pollPattern region seed shift period) := by
  constructor <;> intro g a b h
  all_goals
    unfold patternBody at h
    split at h <;> obtain rfl := Except.ok.inj h
  · exact .inl ⟨shift, true, rfl⟩
  · exact .inr ⟨_, rfl⟩
  · exact .inl rfl
  · exact .inl rfl
  · exact .inl rfl
  · exact .inl rfl
  all_goals
    intro hi _
    simp only [Instr.wellFormed] at hi
    split at hi
    · cases hi
    · simp only [Bool.and_eq_true] at hi; exact hi.2

theorem clockBody_law (s : State) (region period : Nat) : BodyLaw s (clockBody s period) (.pollClock region period) := by
  constructor <;> intro g a b h <;> obtain rfl := Except.ok.inj h
  · exact .inr ⟨_, rfl⟩
  · exact .inl rfl
  · exact .inl rfl
  · intro hi _
    simp only [Instr.wellFormed, Bool.and_eq_true] at hi; exact hi.2

theorem decayBody_law (s : State) (region period : Nat) : BodyLaw s (decayBody s period) (.pollDecay region period) := by
  constructor <;> intro g a b h
  all_goals
    unfold decayBody at h
    split at h
    · split at h
      · obtain rfl := Except.ok.inj h
        first
        | exact .inr ⟨_, rfl⟩
        | exact .inl rfl
        | (intro hi _; simp only [Instr.wellFormed, Bool.and_eq_true] at hi; exact hi.2)
      · cases h
    · obtain rfl := Except.ok.inj h
      first
      | exact .inl rfl
      | exact .inr ⟨_, rfl⟩
      | (intro hi _; simp only [Instr.wellFormed, Bool.and_eq_true] at hi; exact hi.2)

theorem lifeBody_law (s : State) (region period : Nat) : BodyLaw s (lifeBody s period) (.pollLife region period) := by
  constructor <;> intro g a b h <;> obtain rfl := Except.ok.inj h
  · exact .inr ⟨_, rfl⟩
  · exact .inl (lifeTick_ticks s g a).1
  · exact (lifeTick_ticks s g a).2
  · intro hi _
    simp only [Instr.wellFormed, Bool.and_eq_true] at hi; exact hi.2

theorem noiseBody_law (s : State) (region : Nat) : BodyLaw s (noiseBody s) (.pollNoise region) := by
  constructor <;> intro g a b h
  all_goals
    unfold noiseBody at h
    split at h
    · next interval hint =>
      obtain rfl := Except.ok.inj h
      first
      | exact .inr ⟨_, rfl⟩
      | exact .inl rfl
      | (intro _ hn
         have hmem := List.mem_of_getElem? hint
         simp only [Config.numbersOk, Bool.and_eq_true, List.all_eq_true] at hn
         unfold delaySet at hmem
         split at hmem
         · exact hn.1.1.1.1.2 _ hmem
         · exact hn.1.1.2 _ hmem)
    · cases h

/-- Every animator instruction is the shared discipline over a lawful body. -/
theorem exec_animator {i : Instr} {region : Nat} (h : animatorRegion i = some region) (s : State) :
    ∃ body, exec i s = pollAnimator s region body ∧ BodyLaw s body i := by
  cases i with
  | pollPattern r seed shift period =>
    cases h; exact ⟨_, rfl, patternBody_law s region seed shift period⟩
  | pollClock r period => cases h; exact ⟨_, rfl, clockBody_law s region period⟩
  | pollDecay r period => cases h; exact ⟨_, rfl, decayBody_law s region period⟩
  | pollLife r period => cases h; exact ⟨_, rfl, lifeBody_law s region period⟩
  | pollNoise r => cases h; exact ⟨_, rfl, noiseBody_law s region⟩
  | nop => cases h
  | setpixel x y bit => cases h
  | getpixel x y => cases h
  | shiftregion x y w h' n b => cases h
  | regionof id => cases h
  | run => cases h
  | halt => cases h
  | rdstatus => cases h
  | pollMode => cases h
  | present => cases h

theorem isAnimator_region {i : Instr} (h : i.isAnimator = true) : ∃ region, animatorRegion i = some region := by
  cases i <;> first | exact ⟨_, rfl⟩ | cases h

theorem animatorRegion_isAnimator {i : Instr} {region : Nat} (h : animatorRegion i = some region) :
    i.isAnimator = true := by
  cases i <;> first | rfl | cases h

end Sys2Proof.Machine
end

