-- ==== Sys2Proof/Laws/PerInstr.lean ====
section
/-! SUPPORT. A statement about every instruction as syntax, one lemma per constructor. -/

namespace Sys2Proof.Laws.EncodesInItsFormat

/-- A host command encodes to a command word, a slot operation to a slot descriptor, and to nothing else
(30_encoding.md R50, R54). -/
def Statement (i : Instr) : Prop :=
  (i.isHostCommand = true → ∃ c, encode i = .word c) ∧ (i.isHostCommand = false → ∃ d, encode i = .slot d)

theorem nop : Statement .nop := ⟨fun _ => ⟨_, rfl⟩, fun h => nomatch h⟩
theorem setpixel (x y : BitVec 8) (bit : Bool) : Statement (.setpixel x y bit) :=
  ⟨fun _ => ⟨_, rfl⟩, fun h => nomatch h⟩
theorem getpixel (x y : BitVec 8) : Statement (.getpixel x y) := ⟨fun _ => ⟨_, rfl⟩, fun h => nomatch h⟩
theorem shiftregion (x y w h : BitVec 8) (shift : BitVec 16) (wrap : Bool) :
    Statement (.shiftregion x y w h shift wrap) := ⟨fun _ => ⟨_, rfl⟩, fun h => nomatch h⟩
theorem regionof (id : BitVec 8) : Statement (.regionof id) := ⟨fun _ => ⟨_, rfl⟩, fun h => nomatch h⟩
theorem run : Statement .run := ⟨fun _ => ⟨_, rfl⟩, fun h => nomatch h⟩
theorem halt : Statement .halt := ⟨fun _ => ⟨_, rfl⟩, fun h => nomatch h⟩
theorem rdstatus : Statement .rdstatus := ⟨fun _ => ⟨_, rfl⟩, fun h => nomatch h⟩
theorem pollMode : Statement .pollMode := ⟨fun h => (nomatch h), fun _ => ⟨_, rfl⟩⟩
theorem pollPattern (region : Nat) (seed : List Nat) (shift : Int) (period : Nat) :
    Statement (.pollPattern region seed shift period) := ⟨fun h => (nomatch h), fun _ => ⟨_, rfl⟩⟩
theorem pollClock (region period : Nat) : Statement (.pollClock region period) :=
  ⟨fun h => (nomatch h), fun _ => ⟨_, rfl⟩⟩
theorem pollDecay (region period : Nat) : Statement (.pollDecay region period) :=
  ⟨fun h => (nomatch h), fun _ => ⟨_, rfl⟩⟩
theorem pollLife (region period : Nat) : Statement (.pollLife region period) :=
  ⟨fun h => (nomatch h), fun _ => ⟨_, rfl⟩⟩
theorem pollNoise (region : Nat) : Statement (.pollNoise region) := ⟨fun h => (nomatch h), fun _ => ⟨_, rfl⟩⟩
theorem present : Statement .present := ⟨fun h => (nomatch h), fun _ => ⟨_, rfl⟩⟩

end Sys2Proof.Laws.EncodesInItsFormat
end

