-- ==== Sys2Proof/Laws/Step.lean ====
section
/-! SUPPORT. Everything one step of the block can do when it answers. -/

namespace Sys2Proof.Machine

theorem hostReady_iff {s : State} {c : CommandWord} :
    s.hostReady = some c ↔ s.slot = 0 ∧ s.commands.head? = some c := by
  unfold State.hostReady
  split <;> simp [*]

/-- A slot descriptor decodes to a slot operation. -/
theorem decodeSlot_not_host {d : SlotDesc} {i : Instr} (h : decodeSlot d = .ok i) : i.isHostCommand = false := by
  unfold decodeSlot at h
  repeat' split at h
  all_goals cases h <;> rfl

/-- A command word decodes to a host command. -/
theorem decodeCommand_host {c : CommandWord} {i : Instr} (h : decodeCommand c = .ok i) : i.isHostCommand = true := by
  unfold decodeCommand at h
  repeat' split at h
  all_goals cases h <;> rfl

/-- Sampling the inputs of a sequencer step changes the sampled inputs and nothing else. -/
theorem State.sampleInputs_frame (s : State) :
    s.sampleInputs = { s with
      now := s.sampleInputs.now, draw := s.sampleInputs.draw, seqInputs := s.sampleInputs.seqInputs } := by
  unfold State.sampleInputs
  split <;> rfl

/-- Who acts in a step, and what enables it. -/
theorem agent_cases (s : State) :
    (∃ t0, s.nextTurn = .reset t0 ∧ s.agent = .reset t0) ∨
      ((∀ t0, s.nextTurn ≠ .reset t0) ∧
        ((s.run = false ∧ s.hostReady = none ∧ s.agent = .idle) ∨
          (∃ c, s.hostReady = some c ∧ s.agent = .host c) ∨ (s.run = true ∧ s.agent = .sequencer))) := by
  unfold State.agent
  rcases hn : s.nextTurn with _ | _ | t0
  · refine .inr ⟨fun _ h => (by cases h), ?_⟩
    rcases hh : s.hostReady with _ | c
    · cases hr : s.run <;> simp
    · simp
  · refine .inr ⟨fun _ h => (by cases h), ?_⟩
    rcases hh : s.hostReady with _ | c <;> cases hr : s.run <;> simp
  · exact .inl ⟨t0, rfl, rfl⟩

/-- Everything a step can do when it answers: the reset input acts; the block waits; a pending command is executed or
rejected between cycles; or the slot that `SLOT` names is executed on the inputs just sampled. -/
theorem step_cases {s t : State} (h : step s = .next t) :
    (∃ t0, s.nextTurn = .reset t0 ∧ t = s.passTurn.applyReset t0) ∨
      ((∀ t0, s.nextTurn ≠ .reset t0) ∧
        ((s.run = false ∧ s.hostReady = none ∧ t = s.passTurn) ∨
          (∃ c, s.hostReady = some c ∧
            ((∃ i, decodeCommand c = .ok i ∧ exec i s.passTurn.acceptCommand = .next t) ∨
              ((∃ e, decodeCommand c = .error e) ∧ t = s.passTurn.acceptCommand.reject .illegalCommand))) ∨
          ∃ d i, s.run = true ∧ s.cfg.seq[s.slot]? = some d ∧ decodeSlot d = .ok i ∧
            exec i s.passTurn.sampleInputs = .next t)) := by
  unfold step at h
  rcases agent_cases s with ⟨t0, hn, ha⟩ | ⟨hn, ⟨hr, hh, ha⟩ | ⟨c, hh, ha⟩ | ⟨hr, ha⟩⟩ <;> rw [ha] at h
  · exact .inl ⟨t0, hn, (Host.Outcome.next.inj h).symm⟩
  · exact .inr ⟨hn, .inl ⟨hr, hh, (Host.Outcome.next.inj h).symm⟩⟩
  · refine .inr ⟨hn, .inr (.inl ⟨c, hh, ?_⟩)⟩
    dsimp only [hostStep] at h
    split at h
    · next i hi => exact .inl ⟨i, hi, h⟩
    · next e he => exact .inr ⟨⟨e, he⟩, (Host.Outcome.next.inj h).symm⟩
  · refine .inr ⟨hn, .inr (.inr ?_)⟩
    dsimp only [sequencerStep] at h
    rw [State.sampleInputs_frame] at h
    split at h
    · cases h
    · next d hd =>
      split at h
      · next i hi => exact ⟨d, i, hr, hd, hi, by rw [State.sampleInputs_frame]; exact h⟩
      · cases h

/-- A run of one step more is the step and then the run, on any machine. -/
theorem core_run_succ (m : Host.Core) {n : Nat} {s t : m.State} (h : m.step s = .next t) :
    Host.Core.run m (n + 1) s = Host.Core.run m n t := by rw [Host.Core.run, h]

theorem run_succ {n : Nat} {s t : State} (h : step s = .next t) :
    Host.Core.run Sys2Proof.core (n + 1) s = Host.Core.run Sys2Proof.core n t := core_run_succ Sys2Proof.core h

end Sys2Proof.Machine
end

