-- ==== Sys2Proof/Laws/Ticks.lean ====
section
/-! SUPPORT. Tick arithmetic: the range of a tick sum, and the value of the signed difference on both halves of the range. -/

namespace Sys2Proof

theorem tickAdd_lt (cfg : Config) (t d : Nat) : tickAdd cfg t d < cfg.tickSpan :=
  Nat.mod_lt _ (Nat.two_pow_pos _)

theorem tickSpan_eq_two_half {cfg : Config} (h : 1 ≤ cfg.tickBits) : cfg.tickSpan = 2 * cfg.half := by
  obtain ⟨n, hn⟩ : ∃ n, cfg.tickBits = n + 1 := ⟨cfg.tickBits - 1, by omega⟩
  simp [Config.tickSpan, Config.half, hn, pow_succ]; ring

/-- The signed difference through the residue `k` of the difference: `k` itself in the lower half, `k` less the span in
the upper. -/
theorem signedDiff_of_residue {cfg : Config} {a b k : Nat}
    (h : ((a : Int) - (b : Int)) % (cfg.tickSpan : Int) = k) :
    signedDiff cfg a b = if k < cfg.half then (k : Int) else (k : Int) - (cfg.tickSpan : Int) := by
  unfold signedDiff sext
  rw [h]
  rfl

/-- Two sums on one tick: their difference is the difference of the durations modulo the span. -/
theorem tickAdd_sub_emod (cfg : Config) (t d e : Nat) :
    ((tickAdd cfg t e : Int) - (tickAdd cfg t d : Int)) % (cfg.tickSpan : Int) =
      ((e : Int) - (d : Int)) % (cfg.tickSpan : Int) := by
  unfold tickAdd
  push_cast
  rw [Int.sub_emod, Int.emod_emod_of_dvd _ (dvd_refl _), Int.emod_emod_of_dvd _ (dvd_refl _), ← Int.sub_emod]
  congr 1; ring

/-- A poll `e` ticks after `t` finds the deadline `d` ticks after `t` due when `d ≤ e`, within the half range. -/
theorem due_tickAdd {cfg : Config} (t : Nat) {d e : Nat} (hb : 1 ≤ cfg.tickBits) (h1 : d ≤ e)
    (h2 : e < d + cfg.half) : due cfg (tickAdd cfg t e) (tickAdd cfg t d) = true := by
  have hs := tickSpan_eq_two_half hb
  have hk : ((tickAdd cfg t e : Int) - (tickAdd cfg t d : Int)) % (cfg.tickSpan : Int) = ((e - d : Nat) : Int) := by
    rw [tickAdd_sub_emod, Int.emod_eq_of_lt (by omega) (by omega)]; omega
  unfold due
  rw [signedDiff_of_residue hk, if_pos (by omega)]
  exact decide_eq_true (by omega)

/-- A poll `e` ticks after `t` does not find the deadline `d` ticks after `t` due when `e < d`, within the half range. -/
theorem not_due_tickAdd {cfg : Config} (t : Nat) {d e : Nat} (hb : 1 ≤ cfg.tickBits) (h1 : e < d)
    (h2 : d ≤ e + cfg.half) : due cfg (tickAdd cfg t e) (tickAdd cfg t d) = false := by
  have hs := tickSpan_eq_two_half hb
  have hk : ((tickAdd cfg t e : Int) - (tickAdd cfg t d : Int)) % (cfg.tickSpan : Int) =
      ((cfg.tickSpan - (d - e) : Nat) : Int) := by
    rw [tickAdd_sub_emod, ← Int.add_emod_right, Int.emod_eq_of_lt (by omega) (by omega)]; omega
  unfold due
  rw [signedDiff_of_residue hk, if_neg (by omega)]
  exact decide_eq_false (by omega)

end Sys2Proof
end

