-- ==== Sys2Proof/Tests/Slice0.lean ====
section
/-! SUPPORT. The model's own tests. Expected values are those of 95_test_vectors.md (a vector's id is named) or of the
examples of a rule. -/

namespace Sys2Proof.Tests
open Sys2Proof.Machine

/-! ## Fixtures (95_test_vectors.md) -/

/-- `CFG_T8` -/
def cfgT8 : Config where
  width := 8
  height := 8
  tickBits := 8
  tps := 1
  uBits := 16
  relaxRunTime := 20
  fastRunTime := 10
  fastChanceN := 16384
  slowDelays := [9, 12]
  fastDelays := [2, 3]
  regions := [⟨"board", 0, 0, 8, 8⟩]
  seq := [SlotDesc.mk 0x00#8 0 [] 0 0, SlotDesc.mk 0x0F#8 0 [] 0 0]

/-- `CFG_L8` -/
def cfgL8 : Config := { cfgT8 with
  seq := [SlotDesc.mk 0x00#8 0 [] 0 0, SlotDesc.mk 0x04#8 0 [] 0 5, SlotDesc.mk 0x0F#8 0 [] 0 0] }

/-- The seed of slot 3 of `CFG_A18`. -/
def seedA18 : List Nat := [0x11, 0x0A, 0x04, 0x1F]

/-- `CFG_A18` -/
def cfgA18 : Config := { cfgT8 with
  width := 18
  height := 4
  regions := [⟨"a", 0, 0, 4, 4⟩, ⟨"b", 4, 0, 4, 4⟩, ⟨"c", 8, 0, 5, 4⟩, ⟨"d", 13, 0, 5, 4⟩]
  seq :=
    [ SlotDesc.mk 0x00#8 0 [] 0 0, SlotDesc.mk 0x02#8 0 [] 0 4, SlotDesc.mk 0x03#8 1 [] 0 6,
      SlotDesc.mk 0x01#8 2 seedA18 (-2) 3, SlotDesc.mk 0x05#8 3 [] 0 0, SlotDesc.mk 0x0F#8 0 [] 0 0 ] }

/-- A grid written one number per row, most significant bit leftmost. -/
def gridOf (w : Nat) (rows : List Nat) : Grid := rows.map fun v => (List.range w).map fun c => v.testBit (w - 1 - c)

/-- A field of the next state, where there is one. -/
def after {α : Type} (o : Host.Outcome State Fault Refusal) (f : State → α) : Option α :=
  match o with
  | .next s => some (f s)
  | .fault _ => none
  | .refused _ => none

/-- The reason a step was refused. -/
def refusal (o : Host.Outcome State Fault Refusal) : Option Refusal :=
  match o with
  | .refused r => some r
  | .next _ => none
  | .fault _ => none

/-- This hardware right after a reset at tick 0, with these framebuffer bytes. -/
def withBytes (m : Memory) : State := { State.reset with mem := m }

/-- The block of `cfg` after a reset at tick 0, about to run slot `k` on the tick `now` and the draw `d`. -/
def atSlot (cfg : Config) (k now : Nat) (d : Draw) : State := { State.resetAt cfg 0 with slot := k, now := now, draw := d }

/-- The bytes at these addresses. -/
def bytes (l : List Nat) (s : State) : List Byte := l.map s.mem.read

/-! ## Well-formedness: every check refuses an ill-formed term -/

theorem test_fixtures_are_well_formed :
    cfgWopr.wellFormed = true ∧ cfgT8.wellFormed = true ∧ cfgL8.wellFormed = true ∧ cfgA18.wellFormed = true := by
  decide

theorem test_instr_check_refuses_region :
    Instr.wellFormed cfgT8 (.pollPattern 1 [] 0 1) = false ∧ Instr.wellFormed cfgT8 (.pollClock 1 1) = false ∧
    Instr.wellFormed cfgT8 (.pollDecay 1 1) = false ∧ Instr.wellFormed cfgT8 (.pollLife 1 1) = false ∧
    Instr.wellFormed cfgT8 (.pollNoise 1) = false := by decide

theorem test_instr_check_refuses_seed_length : Instr.wellFormed cfgA18 (.pollPattern 2 [1, 2, 3] 0 1) = false := by decide
theorem test_instr_check_refuses_wide_seed : Instr.wellFormed cfgA18 (.pollPattern 2 [1, 2, 3, 32] 0 1) = false := by decide

theorem test_instr_check_refuses_period :
    Instr.wellFormed cfgA18 (.pollPattern 2 seedA18 0 0) = false ∧ Instr.wellFormed cfgT8 (.pollClock 0 0) = false ∧
    Instr.wellFormed cfgT8 (.pollDecay 0 128) = false ∧ Instr.wellFormed cfgT8 (.pollLife 0 128) = false ∧
    Instr.wellFormed cfgT8 (.pollClock 0 127) = true := by decide

set_option maxRecDepth 8000 in
theorem test_geometry_check_refuses :
    ({ cfgT8 with width := 0 } : Config).geometryOk = false ∧ ({ cfgT8 with width := 256 } : Config).geometryOk = false ∧
    ({ cfgT8 with height := 0 } : Config).geometryOk = false ∧ ({ cfgT8 with height := 256 } : Config).geometryOk = false ∧
    ({ cfgT8 with regions := List.replicate 257 ⟨"r", 0, 0, 1, 1⟩ } : Config).geometryOk = false ∧
    ({ cfgT8 with regions := [⟨"r", 0, 0, 0, 1⟩] } : Config).geometryOk = false ∧
    ({ cfgT8 with regions := [⟨"r", 0, 0, 1, 0⟩] } : Config).geometryOk = false ∧
    ({ cfgT8 with regions := [⟨"r", 1, 0, 8, 1⟩] } : Config).geometryOk = false ∧
    ({ cfgT8 with regions := [⟨"r", 0, 1, 1, 8⟩] } : Config).geometryOk = false := by decide

theorem test_number_check_refuses :
    ({ cfgT8 with tickBits := 1 } : Config).numbersOk = false ∧ ({ cfgT8 with tps := 0 } : Config).numbersOk = false ∧
    ({ cfgT8 with uBits := 0, fastChanceN := 0 } : Config).numbersOk = false ∧
    ({ cfgT8 with fastChanceN := 65537 } : Config).numbersOk = false ∧
    ({ cfgT8 with relaxRunTime := 0 } : Config).numbersOk = false ∧
    ({ cfgT8 with fastRunTime := 128 } : Config).numbersOk = false ∧
    ({ cfgT8 with slowDelays := [] } : Config).numbersOk = false ∧
    ({ cfgT8 with slowDelays := [9, 0] } : Config).numbersOk = false ∧
    ({ cfgT8 with fastDelays := [] } : Config).numbersOk = false ∧
    ({ cfgT8 with fastDelays := [128] } : Config).numbersOk = false ∧
    ({ cfgT8 with tps := 3 } : Config).numbersOk = false := by decide

theorem test_slot_check_refuses :
    ({ cfgT8 with seq := [] } : Config).slotProgramOk = false ∧
    ({ cfgT8 with seq := [⟨0x0F#8, 0, [], 0, 0⟩, ⟨0x0F#8, 0, [], 0, 0⟩] } : Config).slotProgramOk = false ∧
    ({ cfgT8 with seq := [⟨0x00#8, 0, [], 0, 0⟩, ⟨0x00#8, 0, [], 0, 0⟩] } : Config).slotProgramOk = false ∧
    ({ cfgT8 with seq := [⟨0x00#8, 0, [], 0, 0⟩, ⟨0x0F#8, 0, [], 0, 0⟩, ⟨0x0F#8, 0, [], 0, 0⟩] } : Config).slotProgramOk =
      false ∧
    ({ cfgT8 with seq := [⟨0x00#8, 0, [], 0, 0⟩, ⟨0x06#8, 0, [], 0, 1⟩, ⟨0x0F#8, 0, [], 0, 0⟩] } : Config).slotProgramOk =
      false ∧
    ({ cfgT8 with seq := [⟨0x00#8, 0, [], 0, 0⟩, ⟨0x05#8, 1, [], 0, 0⟩, ⟨0x0F#8, 0, [], 0, 0⟩] } : Config).slotProgramOk =
      false := by decide

theorem test_construct_refuses :
    refusal (construct { cfgT8 with width := 0 } 0) = some .malformedConfiguration ∧
    after (construct cfgT8 0xF8) State.modeDue = some 0x02 := by decide

/-! ## Decoding: words written out from the encoding tables (E1 to E19) -/

theorem test_decode_nop : decodeTableWord 64 0x0000000000000000 = some .nop := by decide
theorem test_decode_setpixel : decodeTableWord 64 0x0101250300000000 = some (.setpixel 37 3 true) := by decide
theorem test_decode_clrpixel : decodeTableWord 64 0x0100250300000000 = some (Instr.clrpixel 37 3) := by decide
theorem test_decode_getpixel : decodeTableWord 64 0x0200600000000000 = some (.getpixel 96 0) := by decide
theorem test_decode_shiftregion :
    decodeTableWord 64 0x030024020403FFFF = some (.shiftregion 36 2 4 3 (BitVec.ofInt 16 (-1)) false) := by decide
theorem test_decode_rotregion : decodeTableWord 64 0x0301000008080001 = some (Instr.rotregion 0 0 8 8 1) := by decide
theorem test_decode_clrregion : decodeTableWord 64 0x030018000C01000C = some (Instr.clrregion 24 0 12 1) := by decide
theorem test_decode_regionof : decodeTableWord 64 0x0403000000000000 = some (.regionof 3) := by decide
theorem test_decode_run : decodeTableWord 64 0x1000000000000000 = some .run := by decide
theorem test_decode_halt : decodeTableWord 64 0x1100000000000000 = some .halt := by decide
theorem test_decode_rdstatus : decodeTableWord 64 0x1200000000000000 = some .rdstatus := by decide
theorem test_decode_pollMode : decodeTableWord 8 0x00 = some .pollMode := by decide
theorem test_decode_pollPattern : decodeSlot ⟨0x01#8, 2, seedA18, -2, 3⟩ = .ok (.pollPattern 2 seedA18 (-2) 3) := by decide
theorem test_decode_pollClock : decodeSlot ⟨0x02#8, 2, [], 0, 50⟩ = .ok (.pollClock 2 50) := by decide
theorem test_decode_pollDecay : decodeSlot ⟨0x03#8, 5, [], 0, 125⟩ = .ok (.pollDecay 5 125) := by decide
theorem test_decode_pollLife : decodeSlot ⟨0x04#8, 3, [], 0, 200⟩ = .ok (.pollLife 3 200) := by decide
theorem test_decode_pollNoise : decodeSlot ⟨0x05#8, 6, [], 0, 0⟩ = .ok (.pollNoise 6) := by decide
theorem test_decode_present : decodeTableWord 8 0x0F = some .present := by decide

theorem test_decode_refuses :
    [0x0500000000000000, 0x0F00000000000000, 0x1300000000000000, 0xFFFFFFFFFFFFFFFF, 0x0200C80001000000,
      0x0201000000000000, 0x0102000000000000, 0x0101000000000001, 0x0000000000000001, 0x1000010000000000,
      0x1101000000000000, 0x1200000000010000, 0x0403000100000000, 0x0302000008080001, 0x0303000008080001].all
      (fun w => decodeTableWord 64 w = none) = true ∧
    decodeTableWord 8 0x06 = none ∧ decodeTableWord 8 0x10 = none := by decide

theorem test_decode_names_its_refusal :
    decodeCommand 0x0500000000000000#64 = .error (.unknownOpcode 0x05#8) ∧
    decodeCommand 0x0200C80001000000#64 = .error (.unusedBitSet 0x02#8) ∧
    decodeSlot ⟨0x06#8, 0, [], 0, 0⟩ = .error (.unknownSlotKind 0x06#8) := by decide

theorem test_assemble :
    assemble ⟨"SHIFTREGION", [.num 36, .num 2, .num 4, .num 3, .num (-1), .nowrap]⟩ = some 0x030024020403FFFF#64 ∧
    assemble ⟨"ROTREGION", [.num 0, .num 0, .num 8, .num 8, .num 1]⟩ = some 0x0301000008080001#64 ∧
    assemble ⟨"CLRREGION", [.num 24, .num 0, .num 12, .num 1]⟩ = some 0x030018000C01000C#64 ∧
    assemble ⟨"SETPIXEL", [.num 95, .num 7, .num 1]⟩ = some 0x01015F0700000000#64 ∧
    assemble ⟨"SETPIXEL", [.num 0, .num 0, .num 2]⟩ = none ∧
    assembleSlot ⟨"LIFE", [.num 3, .num 200]⟩ = some ⟨0x04#8, 3, [], 0, 200⟩ := by decide

/-! ## Host commands -/

/-- F3 -/
theorem test_setpixel_sets :
    after (exec (.setpixel 37 3 true) State.reset) (fun t => (t.mem, t.responses)) =
      some ([(40, 0x04#8)], [0x0000000000000000#64]) := by decide
/-- F7 -/
theorem test_setpixel_out_of_bounds :
    after (exec (.setpixel 96 0 true) State.reset) (fun t => (t.mem, t.responses, t.errFlags)) =
      some ([], [0x0100000000000000#64], 1#3) := by decide
/-- F4 -/
theorem test_getpixel_reads :
    after (exec (.getpixel 37 3) (withBytes [(40, 0x04#8)])) State.responses = some [0x0000000000000001#64] := by
  decide
/-- F5 -/
theorem test_getpixel_neighbour :
    after (exec (.getpixel 36 3) (withBytes [(40, 0x04#8)])) State.responses = some [0x0000000000000000#64] := by
  decide
/-- F16 -/
theorem test_shiftregion_rotates :
    after (exec (.shiftregion 20 0 12 1 5 true) (withBytes [(2, 0xA9#8), (3, 0x3C#8), (4, 0x5A#8)])) (bytes [2, 3, 4]) =
      some [0xAE#8, 0x49#8, 0x5A#8] := by decide
/-- F34 -/
theorem test_shiftregion_shifts_left :
    after (exec (.shiftregion 36 2 4 3 0xFFFF false)
        (withBytes [(16, 0x0F#8), (28, 0x09#8), (40, 0x0C#8), (52, 0x03#8), (64, 0x0F#8)])) (bytes [16, 28, 40, 52, 64]) =
      some [0x0F#8, 0x02#8, 0x08#8, 0x06#8, 0x0F#8] := by decide
/-- G6 -/
theorem test_regionof_answers :
    after (exec (.regionof 6) State.reset) State.responses = some [0x0000000050001008#64] := by decide
/-- G7 -/
theorem test_regionof_unknown :
    after (exec (.regionof 7) State.reset) (fun t => (t.responses, t.errFlags)) =
      some ([0x0200000000000000#64], 2#3) := by decide
theorem test_nop_answers : after (exec .nop State.reset) State.responses = some [0x0000000000000000#64] := by
  decide
theorem test_run_runs : after (exec .run { State.reset with run := false }) State.run = some true := by decide
theorem test_halt_halts : after (exec .halt State.reset) State.run = some false := by decide
/-- X1 -/
theorem test_rdstatus_after_reset : after (exec .rdstatus State.reset) State.responses = some [0x0000000000000001#64] := by
  decide
/-- X4, and the frantic bit of X7 -/
theorem test_rdstatus_flags :
    after (exec .rdstatus { State.reset with errFlags := 7#3, mode := .frantic }) State.responses =
      some [0x0000000000000703#64] := by decide

/-! ## Slots -/

/-- M3 and M4, on a reset at tick 1000 -/
theorem test_pollMode_coin :
    after (exec .pollMode { State.resetAt cfgWopr 1000 with now := 4000, draw := { Draw.zero with u := 16383 } })
        (fun t => (t.mode, t.modeDue)) = some (.frantic, 7000) ∧
    after (exec .pollMode { State.resetAt cfgWopr 1000 with now := 4000, draw := { Draw.zero with u := 16384 } })
        (fun t => (t.mode, t.modeDue)) = some (.relaxed, 7000) := by decide
/-- M6 -/
theorem test_pollMode_drops :
    after (exec .pollMode { State.resetAt cfgWopr 1000 with mode := .frantic, modeDue := 7000, now := 7003 })
      (fun t => (t.mode, t.modeDue, t.slot)) = some (.relaxed, 15003, 1) := by decide
set_option maxRecDepth 8000 in
/-- A2, first due tick, rows 0 and 7 of region program-a -/
theorem test_pollPattern_seed :
    after (exec (.pollPattern 1 seedProgramA (-1) 250) (atSlot cfgWopr 2 0 Draw.zero))
      (fun t => (bytes [3, 4, 87, 88] t, t.changed, t.slot, (t.animators.getD 1 default).nextDue)) =
      some ([0x80#8, 0x10#8, 0x0F#8, 0x00#8], true, 3, 250) := by decide
set_option maxRecDepth 8000 in
/-- A2, second due tick, row 0: 801 becomes 003 -/
theorem test_pollPattern_shift :
    after (exec (.pollPattern 1 seedProgramA (-1) 250)
        { atSlot cfgWopr 2 0 Draw.zero with
          mem := [(3, 0x80#8), (4, 0x10#8)], animators := List.replicate 7 { Animator.fresh 0 with initDone := true } })
      (bytes [3, 4]) = some [0x00#8, 0x30#8] := by decide
set_option maxRecDepth 8000 in
/-- A4 -/
theorem test_pollClock_renders :
    after (exec (.pollClock 2 50) (atSlot cfgWopr 3 0xA7 Draw.zero))
      (fun t => (bytes [4, 16, 28] t, (t.animators.getD 2 default).nextDue)) =
      some ([0x0E#8, 0x05#8, 0x00#8], 0xD9) := by decide
/-- A6 -/
theorem test_pollClock_not_due :
    after (exec (.pollClock 2 50) (atSlot cfgWopr 3 0xDEADBEEF Draw.zero)) (fun t => (t.mem, t.changed, t.slot)) =
      some ([], false, 4) := by decide
set_option maxRecDepth 8000 in
/-- A10 -/
theorem test_pollDecay_reseeds :
    after (exec (.pollDecay 5 125) (atSlot cfgWopr 6 0 { Draw.zero with u32 := 1, resetDelay := 20000 }))
      (fun t => (bytes [9, 21] t, (t.animators.getD 5 default).value, (t.animators.getD 5 default).nextReset)) =
      some ([0x08#8, 0x00#8], 1#32, 20000) := by decide
set_option maxRecDepth 8000 in
/-- A13 -/
theorem test_pollDecay_wraps :
    after (exec (.pollDecay 5 125)
        { atSlot cfgWopr 6 250 Draw.zero with
          animators := List.replicate 7 { Animator.fresh 250 with initDone := true, nextReset := 20000 } })
      (fun t => (bytes [9, 93] t, (t.animators.getD 5 default).value)) =
      some ([0x0F#8, 0x0F#8], 0xFFFFFFFF#32) := by decide
set_option maxRecDepth 8000 in
/-- L2: the first board in Running state commits -/
theorem test_pollLife_commits :
    after (exec (.pollLife 0 5)
        { atSlot cfgL8 1 0 Draw.zero with
          animators := [{ Animator.fresh 0 with lifeState := true, board := gridOf 8 [0, 0, 0, 0x38, 0, 0, 0, 0] }] })
      (bytes [1, 2, 3, 4, 5]) = some [0x00#8, 0x10#8, 0x10#8, 0x10#8, 0x00#8] := by decide
set_option maxRecDepth 8000 in
/-- L1: a still life makes a new random board -/
theorem test_pollLife_reseeds :
    after (exec (.pollLife 0 5)
        { atSlot cfgL8 1 0 { Draw.zero with cells := gridOf 8 [0, 0, 0, 0, 0, 0, 0, 1] } with
          animators := [{ Animator.fresh 0 with lifeState := true, board := gridOf 8 [0, 0, 0, 0x18, 0x18, 0, 0, 0] }] })
      (fun t => (bytes [3, 4, 7] t, (t.animators.getD 0 default).hist1Valid)) =
      some ([0x00#8, 0x00#8, 0x01#8], false) := by decide
set_option maxRecDepth 8000 in
/-- A17, row 0 and row 7, on a framebuffer that is not zero -/
theorem test_pollNoise_applies :
    after (exec (.pollNoise 6)
        { atSlot cfgWopr 7 1007 { Draw.zero with
            coin := gridOf 16 [0xFFFF, 0, 0, 0, 0, 0, 0, 0x1234], val := gridOf 16 [0xA5A5, 0, 0, 0, 0, 0, 0, 0xFFFF] } with
          mem := [(10, 0xFF#8), (95, 0x01#8)] })
      (fun t => (bytes [10, 11, 94, 95] t, (t.animators.getD 6 default).nextDue)) =
      some ([0xA5#8, 0xA5#8, 0x12#8, 0x35#8], 1307) := by decide
/-- A18 -/
theorem test_pollNoise_fast :
    after (exec (.pollNoise 6) { atSlot cfgWopr 7 4007 { Draw.zero with idx := 3 } with mode := .frantic })
      (fun t => (t.mem, t.changed, (t.animators.getD 6 default).nextDue)) = some ([], true, 4057) := by decide
theorem test_present_emits :
    after (exec .present { atSlot cfgT8 1 0 Draw.zero with changed := true, mem := [(7, 0x01#8)] })
      (fun t => (t.out, t.changed, t.slot)) = some ([[0#8, 0#8, 0#8, 0#8, 0#8, 0#8, 0#8, 1#8]], false, 0) := by decide
theorem test_present_is_silent :
    after (exec .present (atSlot cfgT8 1 0 Draw.zero)) (fun t => (t.out, t.slot)) = some ([], 0) := by decide

/-! ## Ticks and Life boards -/

/-- T1 to T6 -/
theorem test_signedDiff :
    signedDiff cfgT8 0x02 0xFE = 4 ∧ signedDiff cfgT8 0xFE 0x02 = -4 ∧ signedDiff cfgT8 0x8A 0x0A = -128 ∧
    due cfgT8 0x0A 0x0A = true ∧ due cfgT8 0x89 0x0A = true ∧ due cfgT8 0x8A 0x0A = false := by decide

/-- L4, L11, L13, L19 -/
theorem test_nextBoard :
    nextBoard 8 8 (gridOf 8 [0x83, 0, 0, 0, 0, 0, 0, 0]) = gridOf 8 [1, 1, 0, 0, 0, 0, 0, 1] ∧
    nextBoard 8 8 (gridOf 8 [0xFF, 0, 0, 0, 0, 0, 0, 0]) = gridOf 8 [0xFF, 0xFF, 0, 0, 0, 0, 0, 0xFF] ∧
    nextBoard 2 2 (gridOf 2 [3, 3]) = gridOf 2 [0, 0] ∧ nextBoard 1 4 (gridOf 4 [0xC]) = gridOf 4 [0x3] := by
  decide

/-! ## Steps -/

/-- E10: an illegal word is rejected, and the block goes on. -/
theorem test_step_rejects :
    after (step { State.reset with commands := [0x0500000000000000#64], schedule := [.host] })
      (fun t => (t.responses, t.errFlags, t.commands)) = some ([0x0300000000000000#64], 4#3, []) := by decide

/-- A host command does not run inside a cycle: the sequencer steps instead. -/
theorem test_step_keeps_host_waiting :
    after (step { atSlot cfgL8 2 0 Draw.zero with
        commands := [0x1100000000000000#64], schedule := [.host], seqInputs := [⟨0, Draw.zero⟩] })
      (fun t => (t.slot, t.commands.length)) = some (0, 1) := by decide

theorem test_step_reset :
    after (step { State.reset with errFlags := 7#3, mem := [(3, 1#8)], schedule := [.reset 5] })
      (fun t => (t.mem, t.errFlags, t.modeDue)) = some ([], 0#3, 3005) := by decide

theorem test_fetch_word :
    after (step (State.reset.withFetchWord 64 0x1200000000000000)) State.responses = some [0x0000000000000001#64] ∧
    after (step (State.reset.withFetchWord 8 0x02)) (fun t => (t.changed, t.slot)) = some (true, 2) ∧
    after (step (State.reset.withFetchWord 8 0x0F)) State.slot = some 0 := by decide

/-! ## Witnesses: for every statement with hypotheses, a state and operands that meet them, at a boundary of each clause -/

theorem test_meets_EncodeOfDecodedCommand : decodeCommand 0x01015F0700000000#64 = .ok (.setpixel 95 7 true) := by decide

theorem test_meets_LegalWordsFieldByField :
    (0x03 = (0x030024020403FFFF#64).toNat / 2 ^ 56 ∧ 0x00 = (0x030024020403FFFF#64).toNat / 2 ^ 48 % 256 ∧
      36 = (0x030024020403FFFF#64).toNat / 2 ^ 40 % 256 ∧ 2 = (0x030024020403FFFF#64).toNat / 2 ^ 32 % 256 ∧
      4 = (0x030024020403FFFF#64).toNat / 2 ^ 24 % 256 ∧ 3 = (0x030024020403FFFF#64).toNat / 2 ^ 16 % 256 ∧
      0xFFFF = (0x030024020403FFFF#64).toNat % 65536) := by decide

theorem test_meets_OperandsAreTheWordsFields :
    decodeCommand 0x0101FFFF00000000#64 = .ok (.setpixel 255 255 true) ∧
    decodeCommand 0x0200FFFF00000000#64 = .ok (.getpixel 255 255) ∧
    decodeCommand 0x0301FFFFFFFF8000#64 = .ok (.shiftregion 255 255 255 255 0x8000 true) ∧
    decodeCommand 0x04FF000000000000#64 = .ok (.regionof 255) := by decide

/-- The last legal pixel, and the first illegal column and row. -/
theorem test_meets_PixelStatements :
    State.reset.slot = 0 ∧ ((95#8).toNat < State.reset.cfg.width ∧ (7#8).toNat < State.reset.cfg.height) ∧
    State.reset.cfg.width ≤ (96#8).toNat ∧ State.reset.cfg.height ≤ (8#8).toNat := by decide

/-- A window that ends at the last column and row, the empty one beyond it, and those one too wide and one too high. -/
theorem test_meets_WindowStatements :
    State.reset.slot = 0 ∧
    ((90#8).toNat + (6#8).toNat ≤ State.reset.cfg.width ∧ (7#8).toNat + (1#8).toNat ≤ State.reset.cfg.height) ∧
    ((96#8).toNat + (0#8).toNat ≤ State.reset.cfg.width ∧ (8#8).toNat + (0#8).toNat ≤ State.reset.cfg.height) ∧
    State.reset.cfg.width < (90#8).toNat + (7#8).toNat ∧ State.reset.cfg.height < (7#8).toNat + (2#8).toNat := by decide

/-- The four no-op cases: shift 0, no columns, no rows, a rotation by the width. -/
theorem test_meets_ShiftNoOps :
    State.reset.slot = 0 ∧ State.reset.mem.wf = true ∧ (88#8).toNat + (8#8).toNat ≤ State.reset.cfg.width ∧
    (0#8).toNat + (8#8).toNat ≤ State.reset.cfg.height ∧ (0#16 = 0#16) ∧ (0#8 = 0#8) ∧
    (true = true ∧ (((8#8).toNat : Nat) : Int) ∣ (0xFFF8#16).toInt) := by decide

theorem test_meets_AlignedShift : 88 % 8 = 0 ∧ 88 + 8 ≤ cfgWopr.width ∧ 7 + 1 ≤ cfgWopr.height ∧ 0 < 1 := by decide

theorem test_meets_RotationsCompose :
    Memory.wf [(3, 0x80#8)] = true ∧ 24 + 12 ≤ cfgWopr.width ∧ 0 + 8 ≤ cfgWopr.height ∧ (0 : Int) ≤ (-3) * (-4) ∧
    (0 : Int) ≤ 0 * (-4) := by decide

theorem test_meets_ShiftIsTheWordLevelForm :
    1 ≤ 5 ∧ 0 < 1 ∧ 0 + 5 ≤ cfgT8.width ∧ 0 + 1 ≤ cfgT8.height ∧ 0x12 = rowValue cfgT8 [(0, 0x90#8)] 0 0 5 ∧
    1 = ((6 : Int) % 5).toNat ∧ ((5 : Int) ≥ 5 ∧ (-5 : Int) ≤ -5 ∧ (0 : Int) < 4 ∧ (4 : Int) < 5 ∧ (-5 : Int) < -4) := by
  decide

set_option maxRecDepth 8000 in
theorem test_meets_RegionofAnswersTheGeometry :
    State.reset.slot = 0 ∧ State.reset.cfg.wellFormed = true ∧
    State.reset.cfg.regions[(6#8).toNat]? = some ⟨"random", 80, 0, 16, 8⟩ ∧ State.reset.cfg.nreg ≤ (7#8).toNat := by decide

theorem test_meets_OneResponseAndCleanRejection :
    Instr.isHostCommand (.getpixel 96 0) = true ∧ State.reset.slot = 0 := by decide

/-- For IllegalWordIsRejected and StepRunsTheAcceptedCommand. -/
theorem test_meets_CommandSteps :
    State.slot { State.reset with commands := [0x0500000000000000#64], schedule := [.host] } = 0 ∧
    (∀ i, decodeCommand 0x0500000000000000#64 ≠ .ok i) ∧ decodeCommand 0x1100000000000000#64 = .ok .halt := by
  refine ⟨by decide, fun i h => ?_, by decide⟩
  rw [show decodeCommand 0x0500000000000000#64 = .error (.unknownOpcode 0x05#8) by decide] at h
  cases h

theorem test_meets_HostCommandWaitsInsideACycle :
    Instr.isHostCommand .halt = true ∧ (atSlot cfgWopr 1 0 Draw.zero).slot ≠ 0 := by decide

theorem test_meets_SlotIsHeldWhileNotRunning :
    Instr.isHostCommand .pollMode = false ∧ State.run { State.reset with run := false } = false := by decide

/-- M1, M2, M3, M4 and M6: one tick early, and the four due cases at the boundary of the draw. -/
theorem test_meets_PollModeCompletes :
    (State.resetAt cfgWopr 1000).run = true ∧ signedDiff cfgWopr 3999 4000 < 0 ∧ 0 ≤ signedDiff cfgWopr 4000 4000 ∧
    16383 < cfgWopr.fastChanceN ∧ cfgWopr.fastChanceN ≤ 16384 ∧ (State.resetAt cfgWopr 1000).mode = .relaxed ∧
    State.mode { State.reset with mode := .frantic } = .frantic := by decide

/-- Region, record and slot of each animator kind of this hardware, due at tick 0 and not due one tick before. -/
theorem test_meets_AnimatorSlots :
    SlotReady (atSlot cfgWopr 2 0 Draw.zero) 1 ⟨"program-a", 24, 0, 12, 8⟩ (Animator.fresh 0) ∧
    SlotReady (atSlot cfgWopr 3 0 Draw.zero) 2 ⟨"a-counter", 36, 0, 4, 8⟩ (Animator.fresh 0) ∧
    SlotReady (atSlot cfgWopr 4 0 Draw.zero) 3 ⟨"life", 40, 0, 24, 8⟩ (Animator.fresh 0) ∧
    SlotReady (atSlot cfgWopr 6 0 Draw.zero) 5 ⟨"b-counter", 76, 0, 4, 8⟩ (Animator.fresh 0) ∧
    SlotReady (atSlot cfgWopr 7 0 Draw.zero) 6 ⟨"random", 80, 0, 16, 8⟩ (Animator.fresh 0) ∧
    SlotReady (atSlot cfgWopr 7 0xFFFFFFFF Draw.zero) 6 ⟨"random", 80, 0, 16, 8⟩ (Animator.fresh 0) ∧
    0 ≤ signedDiff cfgWopr 0 (Animator.fresh 0).nextDue ∧ signedDiff cfgWopr 0xFFFFFFFF (Animator.fresh 0).nextDue < 0 ∧
    animatorRegion (.pollNoise 6) = some 6 ∧ (Animator.fresh 0).initDone = false := by
  unfold SlotReady
  decide

/-- The two cases of a DECAY tick: a reseed with the shortest reset delay, and a decrement of 0 one tick before the
reset deadline. -/
theorem test_meets_PollDecayCompletes :
    let s := atSlot cfgWopr 6 0 { Draw.zero with resetDelay := 20000 }
    let a := { Animator.fresh 0 with initDone := true, nextReset := 1 }
    let u := { s with animators := List.replicate 7 a }
    (SlotReady s 5 ⟨"b-counter", 76, 0, 4, 8⟩ (Animator.fresh 0) ∧ 0 ≤ signedDiff s.cfg s.now (Animator.fresh 0).nextDue ∧
      (Animator.fresh 0).initDone = false ∧ 20 * s.cfg.tps ≤ s.draw.resetDelay ∧ s.draw.resetDelay ≤ 60 * s.cfg.tps ∧
      0#32 = s.draw.u32 ∧ 20000 = (s.now + s.draw.resetDelay) % 2 ^ s.cfg.tickBits) ∧
    (SlotReady u 5 ⟨"b-counter", 76, 0, 4, 8⟩ a ∧ 0 ≤ signedDiff u.cfg u.now a.nextDue ∧ a.initDone = true ∧
      signedDiff u.cfg u.now a.nextReset < 0 ∧
      (0xFFFFFFFF#32).toNat = (a.value.toNat + 2 ^ 32 - 1) % 2 ^ 32 ∧ 1 = a.nextReset) := by
  unfold SlotReady
  decide

/-- The last entry of the slow set in relaxed mode, and of the fast set in frantic mode. -/
theorem test_meets_PollNoiseCompletes :
    let s := atSlot cfgWopr 7 0 { Draw.zero with idx := 3 }
    let u := { s with mode := Mode.frantic }
    (SlotReady s 6 ⟨"random", 80, 0, 16, 8⟩ (Animator.fresh 0) ∧ 0 ≤ signedDiff s.cfg s.now (Animator.fresh 0).nextDue ∧
      (s.mode = .relaxed → s.cfg.slowDelays[s.draw.idx]? = some 900) ∧
      (s.mode = .frantic → s.cfg.fastDelays[s.draw.idx]? = some 900)) ∧
    (SlotReady u 6 ⟨"random", 80, 0, 16, 8⟩ (Animator.fresh 0) ∧ 0 ≤ signedDiff u.cfg u.now (Animator.fresh 0).nextDue ∧
      (u.mode = .relaxed → u.cfg.slowDelays[u.draw.idx]? = some 50) ∧
      (u.mode = .frantic → u.cfg.fastDelays[u.draw.idx]? = some 50)) := by
  unfold SlotReady
  decide

/-- Draws one beyond either end of the reset delay's range, and one beyond the last index of either set. -/
theorem test_meets_DrawOutsideTheContractStops :
    let s := atSlot cfgWopr 7 0 { Draw.zero with idx := 4, resetDelay := 19999 }
    SlotReady s 6 ⟨"random", 80, 0, 16, 8⟩ (Animator.fresh 0) ∧ 0 ≤ signedDiff s.cfg s.now (Animator.fresh 0).nextDue ∧
    (Animator.fresh 0).initDone = false ∧ s.draw.resetDelay < 20 * s.cfg.tps ∧ 60 * s.cfg.tps < 60001 ∧
    s.mode = .relaxed ∧ s.cfg.slowDelays.length ≤ s.draw.idx ∧
    State.mode { s with mode := .frantic } = .frantic ∧ s.cfg.fastDelays.length ≤ s.draw.idx := by
  unfold SlotReady
  decide

theorem test_meets_PresentCompletes :
    (atSlot cfgT8 1 0 Draw.zero).run = true ∧ State.changed { atSlot cfgT8 1 0 Draw.zero with changed := true } = true ∧
    (atSlot cfgT8 1 0 Draw.zero).changed = false := by decide

set_option maxRecDepth 8000 in
theorem test_meets_NewDeadlineLiesInTheFuture :
    let s := atSlot cfgWopr 3 0 Draw.zero
    s.cfg.wellFormed = true ∧ Instr.wellFormed s.cfg (.pollClock 2 50) = true ∧
    animatorRegion (.pollClock 2 50) = some 2 ∧ SlotReady s 2 ⟨"a-counter", 36, 0, 4, 8⟩ (Animator.fresh 0) ∧
    0 ≤ signedDiff s.cfg s.now (Animator.fresh 0).nextDue ∧
    after (exec (.pollClock 2 50) s) State.slot = some 4 := by
  unfold SlotReady
  decide

/-- A relaxed block at its check, and a poll of a later cycle, in slot 0 again, one tick before the dwell is over. -/
def dwellAt (mode : Mode) (modeDue now : Tick) : State :=
  { State.resetAt cfgA18 1000 with mode := mode, modeDue := modeDue, now := now }

set_option maxRecDepth 8000 in
theorem test_meets_OneCoinPerDwell :
    (dwellAt .relaxed 4000 4000).cfg.wellFormed = true ∧ (dwellAt .relaxed 4000 4000).run = true ∧
    0 ≤ signedDiff cfgA18 4000 4000 ∧ cfgA18.fastRunTime - 1 < cfgA18.fastRunTime ∧
    after (exec .pollMode (dwellAt .relaxed 4000 4000)) (fun t => (t.run, t.cfg, t.mode, t.modeDue)) =
      some (true, cfgA18, .frantic, tickAdd cfgA18 4000 cfgA18.fastRunTime) ∧
    (let u := dwellAt .frantic (tickAdd cfgA18 4000 cfgA18.fastRunTime) (tickAdd cfgA18 4000 (cfgA18.fastRunTime - 1))
     u.slot = 0 ∧ u.run = true ∧ u.cfg = cfgA18 ∧ after (exec .pollMode u) State.slot = some 1) := by decide

/-- The four cases of the rule: a live cell that dies of one neighbour, a birth, a survival with two, a dead cell with
two. -/
theorem test_meets_LifeCandidateFollowsTheRule :
    0 < 4 ∧ 3 < 4 ∧ Grid.cell (gridOf 4 [0, 7, 0, 0]) 1 1 = true ∧ neighbours 4 4 (gridOf 4 [0, 7, 0, 0]) 1 1 = 1 ∧
    neighbours 4 4 (gridOf 4 [0, 7, 0, 0]) 0 2 = 3 ∧ neighbours 4 4 (gridOf 4 [0, 7, 0, 0]) 1 2 = 2 ∧
    neighbours 4 4 (gridOf 4 [0, 7, 0, 0]) 0 1 = 2 := by decide

/-- A tick that commits: L2, with a valid first history slot that is another board. -/
theorem test_meets_CommittedBoardIsNew :
    (lifeTick State.reset ⟨"r", 0, 0, 5, 5⟩
      { Animator.fresh 0 with
        lifeState := true, hist1Valid := true, board := gridOf 5 [0, 0, 0xE, 0, 0] }).hist1Valid = true := by decide

/-- The record right after a reset: no first history slot, and every cell of it reads 0. -/
theorem test_meets_ClearedHistoryAsDeadBoard :
    (Animator.fresh 0).hist1Valid = false ∧ ∀ r c, Grid.cell (Animator.fresh 0).hist1 r c = false :=
  ⟨rfl, fun _ _ => rfl⟩

/-- Two different states that agree on all but the second history slot. -/
theorem test_meets_SecondHistorySlotIsHidden :
    State.forgetH2 { atSlot cfgL8 1 0 Draw.zero with animators := [{ Animator.fresh 0 with hist2Valid := true }] } =
      State.forgetH2 (atSlot cfgL8 1 0 Draw.zero) := by decide

theorem test_meets_PatternShowsTheRotatedSeed :
    cfgWopr.windowInside 24 0 12 8 = true ∧ 7 < 8 ∧ 11 < 12 := by decide

theorem test_meets_TickStatements : 1 ≤ cfgT8.tickBits ∧ 255 < 2 ^ cfgT8.tickBits ∧ 127 < 2 ^ (cfgT8.tickBits - 1) := by
  decide

theorem test_meets_ImageHoldsEveryPixel : 95 < cfgWopr.width ∧ 7 < cfgWopr.height := by decide

theorem test_meets_StepRunsTheNamedSlot :
    (atSlot cfgL8 1 0 Draw.zero).run = true ∧ (atSlot cfgL8 1 0 Draw.zero).cfg.seq[1]? = some ⟨0x04#8, 0, [], 0, 5⟩ ∧
    decodeSlot ⟨0x04#8, 0, [], 0, 5⟩ = .ok (.pollLife 0 5) := by decide

/-- For EitherAgentMayGoFirst, NoHostEffectInsideACycle, BlockWaitsWhenNothingIsEnabled, ResetInputResetsTheBlock,
ErrorFlagsAreSticky and OutputHistoryOnlyGrows: the turn, and a step that answers. -/
theorem test_meets_TurnStatements :
    (State.reset.slot = 0 ∧ State.reset.run = true ∧ State.reset.schedule = []) ∧
    (let s := { State.reset with commands := [0x1100000000000000#64], seqInputs := [⟨0, Draw.zero⟩] }
     after (step { s with schedule := [.host] }) (fun t => (t.run, t.slot)) = some (false, 0) ∧
     after (step { s with schedule := [.sequencer] }) (fun t => (t.run, t.slot)) = some (true, 1)) ∧
    (State.nextTurn { State.reset with schedule := [.sequencer] } = .sequencer ∧
      State.nextTurn { State.reset with schedule := [.host] } = .host ∧
      State.schedule { State.reset with schedule := [.reset 5] } = [.reset 5]) ∧
    after (step { atSlot cfgT8 1 0 Draw.zero with
        changed := true, errFlags := 5#3, schedule := [.sequencer], seqInputs := [⟨0, Draw.zero⟩] })
      (fun t => (t.slot, t.errFlags, t.out.length)) = some (0, 5#3, 1) ∧
    after (step { State.reset with run := false, schedule := [.host] }) State.slot = some 0 := by decide

/-- For WritersOfEveryElement and AnimatorStaysInItsRegion: instructions that answer and are due. -/
theorem test_meets_FrameStatements :
    animatorRegion (.pollLife 0 5) = some 0 ∧ cfgL8.regions[0]? = some ⟨"board", 0, 0, 8, 8⟩ ∧
    after (exec .halt (atSlot cfgL8 0 0 Draw.zero)) State.run = some false ∧
    after (exec (.pollLife 0 5) (atSlot cfgL8 1 0 Draw.zero)) State.changed = some true := by decide

/-- A block about to begin a whole cycle, with the draws it takes. -/
def begun : State := { State.resetAt cfgL8 0 with
  schedule := [.sequencer, .sequencer, .sequencer]
  seqInputs := List.replicate 3 ⟨0, { Draw.zero with resetDelay := 20, idx := 1 }⟩ }

set_option maxRecDepth 8000 in
theorem test_begun_inv : begun.Inv := by
  refine ⟨by decide, rfl, ?_, by decide, by decide, fun _ => rfl, (by decide), by decide, by decide, ?_, by decide, ?_⟩
  · intro c hc; cases hc
  · decide
  · intro img h; cases h

theorem test_meets_StepKeepsInv : begun.Inv ∧ after (step begun) State.slot = some 1 := ⟨test_begun_inv, by decide⟩

theorem test_meets_EveryStepAnswers : begun.Inv ∧ begun.nextInputLegal = true := ⟨test_begun_inv, by decide⟩

theorem test_meets_CycleRunsToItsPresent :
    begun.Inv ∧ begun.slot = 0 ∧ begun.run = true ∧ begun.cycleInputsLegal = true ∧
      begun.schedule.take begun.cfg.nslot = List.replicate begun.cfg.nslot .sequencer :=
  ⟨test_begun_inv, by decide⟩

theorem test_meets_InvHoldsAtReset : cfgA18.wellFormed = true := by decide

theorem test_meets_ModeFromReset :
    cfgT8.wellFormed = true ∧ (Draw.zero.u = 0 ∧ 1 ≤ cfgT8.fastChanceN) ∧
    (Draw.u { Draw.zero with u := 65535 } = 2 ^ cfgT8.uBits - 1 ∧ cfgT8.fastChanceN < 2 ^ cfgT8.uBits) := by decide

end Sys2Proof.Tests
end

section
/-! PROOFS. The statements of 00_scope.md: the signed difference and the due test by the residue of the difference, and
the invariant at reset. -/

namespace Sys2Proof

/-! ## Ticks (R11 to R13) -/

/-- Every difference of ticks has a residue below the span, and it is the difference less a multiple of the span. -/
theorem exists_tick_residue (cfg : Config) (a b : Tick) :
    ∃ k : Nat, ((a : Int) - (b : Int)) % (cfg.tickSpan : Int) = k ∧ k < cfg.tickSpan ∧
      (cfg.tickSpan : Int) ∣ (a : Int) - (b : Int) - k := by
  have hpos : (0 : Int) < cfg.tickSpan := by exact_mod_cast Machine.tickSpan_pos cfg
  obtain ⟨k, hk⟩ := Int.eq_ofNat_of_zero_le (Int.emod_nonneg ((a : Int) - b) hpos.ne')
  have hlt := Int.emod_lt_of_pos ((a : Int) - b) hpos
  exact ⟨k, hk, by omega, hk ▸ Int.dvd_self_sub_emod⟩

/-- Settles O39: both values that `signedDiff_of_residue` leaves differ from the residue by a multiple of the span, and
each lies in its half because the span is two halves. -/
theorem signedDiffIsTheHalfRangeResidue : Obligations.SignedDiffIsTheHalfRangeResidue := by
  intro cfg a b hbits
  change -(cfg.half : Int) ≤ _ ∧ _ < (cfg.half : Int) ∧ (cfg.tickSpan : Int) ∣ _
  have hspan := tickSpan_eq_two_half hbits
  obtain ⟨k, hres, hlt, hdvd⟩ := exists_tick_residue cfg a b
  rw [signedDiff_of_residue hres]
  split
  case isTrue hlow => exact ⟨by omega, by omega, hdvd⟩
  case isFalse hhigh =>
    refine ⟨by omega, by omega, ?_⟩
    rw [← sub_add]
    exact dvd_add hdvd dvd_rfl

/-- A deadline is found due exactly where the difference leaves a residue in the lower half (R12, R13). -/
theorem due_iff_residue_lt_half {cfg : Config} {now t k : Nat} (hk : k < cfg.tickSpan)
    (hres : ((now : Int) - (t : Int)) % (cfg.tickSpan : Int) = k) : due cfg now t = true ↔ k < cfg.half := by
  rw [due, decide_eq_true_iff, signedDiff_of_residue hres]
  split <;> omega

/-- A poll `e` ticks after `t`, with `e` below the span, lies `e` ticks after `t` modulo the span, wherever the sum
wraps. -/
theorem tickAdd_sub_start_emod {cfg : Config} (t : Tick) {e : Nat} (he : e < cfg.tickSpan) :
    ((tickAdd cfg t e : Int) - (t : Int)) % (cfg.tickSpan : Int) = e := by
  rw [tickAdd, Int.natCast_emod, Int.emod_sub_emod, Nat.cast_add, add_sub_cancel_left]
  exact_mod_cast Nat.mod_eq_of_lt he

/-- Settles O40: `e` is itself the residue that decides whether the deadline is due. -/
theorem dueOnlyWithinTheHalfRange : Obligations.DueOnlyWithinTheHalfRange :=
  fun _ t _ _ he => due_iff_residue_lt_half he (tickAdd_sub_start_emod t he)

end Sys2Proof

namespace Sys2Proof.Machine

/-! ## The reset state (R9; 10_state.md R34) -/

/-- In the framebuffer of reset every pixel is dark. -/
@[simp] theorem fbGet_nil (cfg : Config) (x y : Nat) : fbGet cfg [] x y = false := by
  simp [fbGet, Memory.unlisted]

theorem paddingClear_nil (cfg : Config) : paddingClear cfg [] = true :=
  paddingClear_iff.mpr fun x y _ _ _ => fbGet_nil cfg x y

theorem Animator.fresh_ticksInRange {cfg : Config} {t0 : Tick} (h : t0 < cfg.tickSpan) :
    (Animator.fresh t0).ticksInRange cfg = true := by
  simp [Animator.ticksInRange, Animator.fresh, h, tickSpan_pos]

/-- The block of a well-formed configuration meets the invariant at reset, on every tick: its framebuffer and outputs
are empty, it rests at slot 0 with `RUN = 1`, and its ticks are reduced to the span. -/
theorem State.resetAt_inv {cfg : Config} (t0 : Tick) (h : cfg.wellFormed = true) : (State.resetAt cfg t0).Inv where
  cfg_wf := h
  mem_wf := Memory.wf_nil
  mem_inside := List.forall_mem_nil _
  padding := paddingClear_nil cfg
  slot_lt := Nat.zero_lt_of_lt (Config.wellFormed_ends h).1
  unchanged_between_cycles := fun _ => rfl
  held_at_slot_zero := fun _ => rfl
  animators_length := List.length_replicate
  mode_due_lt := tickAdd_lt _ _ _
  animator_ticks := fun a ha => by
    rw [List.eq_of_mem_replicate ha]
    exact Animator.fresh_ticksInRange (Nat.mod_lt _ (tickSpan_pos cfg))
  now_lt := Nat.mod_lt _ (tickSpan_pos cfg)
  images_whole := List.forall_mem_nil _

/-- `CFG_WOPR` passes the construction checks (R9, R174). -/
theorem cfgWopr_wellFormed : cfgWopr.wellFormed = true := by decide

/-- Settles O54: this hardware's configuration is well-formed, and reset samples a tick of its range. -/
theorem invHoldsAtThisReset : Obligations.InvHoldsAtThisReset := State.resetAt_inv 0 cfgWopr_wellFormed

end Sys2Proof.Machine
end

section
/-! PROOFS. The statements of 10_state.md: what each instruction writes and leaves alone, said once as the effects an
instruction can have, and the invariant that every step keeps. -/

namespace Sys2Proof.Machine

/-! ## Present images (R20, R33) -/

@[simp] theorem image_length (cfg : Config) (m : Memory) : (image cfg m).length = cfg.fbBytes := by
  simp [image]

theorem image_getElem? {cfg : Config} {m : Memory} {a : Nat} (ha : a < cfg.fbBytes) :
    (image cfg m)[a]? = some (m.read a) := by
  simp [image, ha]

/-- Settles O41: the image has the framebuffer's bytes at their addresses, and a pixel is a bit of its byte. -/
theorem imageHoldsEveryPixel : Obligations.ImageHoldsEveryPixel := by
  intro cfg m x y hx hy
  have hstride := width_le_stride cfg
  have hbyte := image_getElem? (m := m) (pixelAddr_lt (show x < 8 * cfg.stride by omega) hy)
  exact ⟨image_length cfg m, _, hbyte, rfl⟩

/-! ## The effects of an instruction -/

/-- Everything an instruction can do to the state when it answers: wait; as a host command between cycles, answer, be
rejected, draw, or set `RUN`; as a slot of a running sequencer, move `SLOT` on, check the mode, finish an animator's
body, or end the cycle. -/
inductive ExecEffect : Instr → State → State → Prop where
  | waits {i s} : ExecEffect i s s
  | responds {i s} (hi : i.isHostCommand = true) (d : BitVec 32) : ExecEffect i s (s.respond d)
  | rejects {i s} (hi : i.isHostCommand = true) (e : ErrorKind) : ExecEffect i s (s.reject e)
  | setsPixel {s x y bit} (hin : s.cfg.pixelInside x.toNat y.toNat = true) :
      ExecEffect (.setpixel x y bit) s
        (State.respond { s with mem := fbSet s.cfg s.mem x.toNat y.toNat bit } 0#32)
  | shifts {s x y w h shift wrap} (hin : s.cfg.windowInside x.toNat y.toNat w.toNat h.toNat = true) :
      ExecEffect (.shiftregion x y w h shift wrap) s
        (State.respond
          { s with mem := fbShift s.cfg s.mem x.toNat y.toNat w.toNat h.toNat (shiftAmount shift) wrap } 0#32)
  | setsRun {s} : ExecEffect .run s (State.respond { s with run := true } 0#32)
  | clearsRun {s} (h0 : s.slot = 0) : ExecEffect .halt s (State.respond { s with run := false } 0#32)
  | advances {i s} (hi : i.isHostCommand = false) (hp : i ≠ .present) (hr : s.run = true) :
      ExecEffect i s s.advanceSlot
  | checksMode {s} (hr : s.run = true) : ExecEffect .pollMode s (modeCheck s).advanceSlot
  | finishes {i s region g a b body} (hi : animatorRegion i = some region) (hready : SlotReady s region g a)
      (hlaw : BodyLaw s body i) (hb : body g a = .ok b) : ExecEffect i s (s.finishBody b)
  | presents {s} (hc : s.changed = true) :
      ExecEffect .present s { s with out := s.out ++ [image s.cfg s.mem], changed := false, slot := 0 }
  | rewinds {s} (hc : s.changed = false) : ExecEffect .present s { s with slot := 0 }

/-- A host command has an effect only between cycles. -/
theorem ExecEffect.of_hostCommand {i : Instr} {s t : State} {f : State → State} (h : hostCommand s f = .next t)
    (hf : s.slot = 0 → ExecEffect i s (f s)) : ExecEffect i s t := by
  obtain ⟨h0, rfl⟩ | ⟨-, rfl⟩ := hostCommand_cases h
  · exact hf h0
  · exact .waits

/-- A slot has an effect only while the sequencer runs. -/
theorem ExecEffect.of_sequencerSlot {i : Instr} {s t : State} {f : State → Host.Outcome State Fault Refusal}
    (h : sequencerSlot s f = .next t) (hf : s.run = true → f s = .next t → ExecEffect i s t) : ExecEffect i s t := by
  obtain ⟨-, rfl⟩ | ⟨hr, h⟩ := sequencerSlot_cases h
  · exact .waits
  · exact hf hr h

theorem isHostCommand_of_animatorRegion {i : Instr} {region : Nat} (h : animatorRegion i = some region) :
    i.isHostCommand = false := by
  cases i <;> cases h <;> rfl

theorem ne_present_of_animatorRegion {i : Instr} {region : Nat} (h : animatorRegion i = some region) :
    i ≠ .present := by
  rintro rfl; cases h

theorem ExecEffect.of_animator {i : Instr} {region : Nat} {s t : State} (hi : animatorRegion i = some region)
    (h : exec i s = .next t) : ExecEffect i s t := by
  obtain ⟨body, hexec, hlaw⟩ := exec_animator hi s
  obtain ⟨-, rfl⟩ | ⟨g, a, hready, ⟨-, rfl⟩ | ⟨b, -, hb, rfl⟩⟩ := pollAnimator_cases (hexec ▸ h)
  · exact .waits
  · exact .advances (isHostCommand_of_animatorRegion hi) (ne_present_of_animatorRegion hi) hready.1
  · exact .finishes hi hready hlaw hb

/-! ### One lemma per host command and per unconditional slot -/

section Instructions

variable {s t : State}

theorem execNop_effect (h : execNop s = .next t) : ExecEffect .nop s t :=
  .of_hostCommand h fun _ => .responds rfl _

theorem execRdstatus_effect (h : execRdstatus s = .next t) : ExecEffect .rdstatus s t :=
  .of_hostCommand h fun _ => .responds rfl _

theorem execRun_effect (h : execRun s = .next t) : ExecEffect .run s t :=
  .of_hostCommand h fun _ => .setsRun

theorem execHalt_effect (h : execHalt s = .next t) : ExecEffect .halt s t :=
  .of_hostCommand h .clearsRun

theorem execSetpixel_effect {x y : BitVec 8} {bit : Bool} (h : execSetpixel x y bit s = .next t) :
    ExecEffect (.setpixel x y bit) s t := by
  refine .of_hostCommand h fun _ => ?_
  split
  case isTrue hin => exact .setsPixel hin
  case isFalse => exact .rejects rfl _

theorem execGetpixel_effect {x y : BitVec 8} (h : execGetpixel x y s = .next t) : ExecEffect (.getpixel x y) s t := by
  refine .of_hostCommand h fun _ => ?_
  split
  · exact .responds rfl _
  · exact .rejects rfl _

theorem execShiftregion_effect {x y w h : BitVec 8} {shift : BitVec 16} {wrap : Bool}
    (hexec : execShiftregion x y w h shift wrap s = .next t) : ExecEffect (.shiftregion x y w h shift wrap) s t := by
  refine .of_hostCommand hexec fun _ => ?_
  split
  case isTrue hin => exact .shifts hin
  case isFalse => exact .rejects rfl _

theorem execRegionof_effect {id : BitVec 8} (h : execRegionof id s = .next t) : ExecEffect (.regionof id) s t := by
  refine .of_hostCommand h fun _ => ?_
  split
  · exact .responds rfl _
  · exact .rejects rfl _

theorem execPollMode_effect (hexec : execPollMode s = .next t) : ExecEffect .pollMode s t := by
  refine .of_sequencerSlot hexec fun hr h => ?_
  obtain rfl := Host.Outcome.next.inj h
  split
  · exact .checksMode hr
  · exact .advances rfl (by decide) hr

theorem execPresent_effect (hexec : execPresent s = .next t) : ExecEffect .present s t := by
  refine .of_sequencerSlot hexec fun _ h => ?_
  split at h <;> obtain rfl := Host.Outcome.next.inj h
  case isTrue hc => exact .presents hc
  case isFalse hc => exact .rewinds (Bool.eq_false_of_not_eq_true hc)

end Instructions

/-- Every answered instruction had one of the effects. -/
theorem exec_effect {i : Instr} {s t : State} (h : exec i s = .next t) : ExecEffect i s t := by
  cases i with
  | nop => exact execNop_effect h
  | setpixel x y bit => exact execSetpixel_effect h
  | getpixel x y => exact execGetpixel_effect h
  | shiftregion x y w h' shift wrap => exact execShiftregion_effect h
  | regionof id => exact execRegionof_effect h
  | run => exact execRun_effect h
  | halt => exact execHalt_effect h
  | rdstatus => exact execRdstatus_effect h
  | pollMode => exact execPollMode_effect h
  | pollPattern region seed shift period => exact .of_animator rfl h
  | pollClock region period => exact .of_animator rfl h
  | pollDecay region period => exact .of_animator rfl h
  | pollLife region period => exact .of_animator rfl h
  | pollNoise region => exact .of_animator rfl h
  | present => exact execPresent_effect h

/-! ## Who writes which element (R24 to R31, R33) -/

section Writers

variable {i : Instr} {s t : State}

theorem ExecEffect.run_eq (h : ExecEffect i s t) (hrun : i ≠ .run) (hhalt : i ≠ .halt) : t.run = s.run := by
  cases h with
  | setsRun => exact absurd rfl hrun
  | clearsRun => exact absurd rfl hhalt
  | checksMode => exact modeCheck_run s
  | _ => rfl

theorem ExecEffect.mode_eq (h : ExecEffect i s t) (hi : i ≠ .pollMode) : t.mode = s.mode ∧ t.modeDue = s.modeDue := by
  cases h with
  | checksMode => exact absurd rfl hi
  | _ => exact ⟨rfl, rfl⟩

/-- The output is kept, or extended by the framebuffer of that moment. -/
theorem ExecEffect.out_cases (h : ExecEffect i s t) :
    t.out = s.out ∨
      i = .present ∧ t.out = s.out ++ [image s.cfg s.mem] ∧ t.mem = s.mem ∧ t.slot = 0 ∧ s.changed = true := by
  cases h with
  | presents hc => exact .inr ⟨rfl, rfl, rfl, rfl, hc⟩
  | checksMode => exact .inl (modeCheck_out s)
  | _ => exact .inl rfl

theorem ExecEffect.errFlags_responses_eq (h : ExecEffect i s t) (hi : i.isHostCommand = false) :
    t.errFlags = s.errFlags ∧ t.responses = s.responses := by
  cases h with
  | responds hhost => simp [hi] at hhost
  | rejects hhost => simp [hi] at hhost
  | setsPixel => cases hi
  | shifts => cases hi
  | setsRun => cases hi
  | clearsRun => cases hi
  | checksMode => exact ⟨modeCheck_errFlags s, modeCheck_responses s⟩
  | _ => exact ⟨rfl, rfl⟩

/-- An error flag that is set stays set: a rejection only adds its own (R28). -/
theorem ExecEffect.keeps_errFlag (h : ExecEffect i s t) {k : Nat} (hk : s.errFlags.getLsbD k = true) :
    t.errFlags.getLsbD k = true := by
  cases h with
  | rejects => simp [hk]
  | checksMode => simpa using hk
  | _ => exact hk

theorem ExecEffect.slot_changed_animators_eq (h : ExecEffect i s t) (hi : i.isHostCommand = true) :
    t.slot = s.slot ∧ t.changed = s.changed ∧ t.animators = s.animators := by
  cases h with
  | advances hslot => simp [hi] at hslot
  | finishes hanim => simp [isHostCommand_of_animatorRegion hanim] at hi
  | checksMode => cases hi
  | presents => cases hi
  | rewinds => cases hi
  | _ => exact ⟨rfl, rfl, rfl⟩

theorem ExecEffect.mem_eq (h : ExecEffect i s t) (hanim : i.isAnimator = false)
    (hset : ∀ x y bit, i ≠ .setpixel x y bit) (hshift : ∀ x y w h n b, i ≠ .shiftregion x y w h n b) :
    t.mem = s.mem := by
  cases h with
  | setsPixel => exact absurd rfl (hset _ _ _)
  | shifts => exact absurd rfl (hshift _ _ _ _ _ _)
  | finishes hi => simp [animatorRegion_isAnimator hi] at hanim
  | checksMode => exact modeCheck_mem s
  | _ => rfl

theorem ExecEffect.other_animator_eq (h : ExecEffect i s t) {k : Nat} (hk : k ≠ s.slot - 1) :
    t.animators[k]? = s.animators[k]? := by
  cases h with
  | finishes => exact List.getElem?_set_ne hk.symm
  | checksMode => simp
  | _ => rfl

theorem ExecEffect.cfg_ports_eq (h : ExecEffect i s t) :
    t.cfg = s.cfg ∧ t.commands = s.commands ∧ t.seqInputs = s.seqInputs ∧ t.schedule = s.schedule ∧
      t.now = s.now ∧ t.draw = s.draw ∧ t.turn = s.turn := by
  cases h with
  | checksMode => simp
  | _ => exact ⟨rfl, rfl, rfl, rfl, rfl, rfl, rfl⟩

end Writers

/-- Settles O48: one clause per element, each read off the effects of an instruction. -/
theorem writersOfEveryElement : Obligations.WritersOfEveryElement := by
  intro i s t h
  have he := exec_effect h
  exact ⟨he.run_eq, he.mode_eq, fun hp => he.out_cases.resolve_right fun hout => hp hout.1,
    he.errFlags_responses_eq, he.slot_changed_animators_eq, he.mem_eq, fun _ => he.other_animator_eq, he.cfg_ports_eq⟩

/-! ## What a step never takes back (R28, R33) -/

/-- Settles O50: sampling and accepting leave the flags alone, and no effect clears one. -/
theorem errorFlagsAreSticky : Obligations.ErrorFlagsAreSticky := by
  intro s t hreset h k hk
  obtain ⟨t0, hturn, -⟩ | ⟨-, ⟨-, -, rfl⟩ | ⟨c, -, ⟨i, -, h⟩ | ⟨-, rfl⟩⟩ | ⟨d, i, -, -, -, h⟩⟩ := step_cases h
  · exact absurd hturn (hreset t0)
  · exact hk
  · exact (exec_effect h).keeps_errFlag hk
  · simp [hk]
  · exact (exec_effect h).keeps_errFlag (by simpa using hk)

/-- Settles O51: of the effects only that of PRESENT extends the output, and what a step does before it executes leaves
the framebuffer and `CHANGED` as they were. -/
theorem outputHistoryOnlyGrows : Obligations.OutputHistoryOnlyGrows := by
  intro s t hreset h
  obtain ⟨t0, hturn, -⟩ | ⟨-, ⟨-, -, rfl⟩ | ⟨c, -, ⟨i, -, h⟩ | ⟨-, rfl⟩⟩ | ⟨d, i, -, -, -, h⟩⟩ := step_cases h
  · exact absurd hturn (hreset t0)
  · exact .inl rfl
  · exact (exec_effect h).out_cases.imp_right And.right
  · exact .inl rfl
  · simpa using (exec_effect h).out_cases.imp_right And.right

/-! ## The framebuffer of the invariant (R20, R21) -/

/-- What the invariant says of the framebuffer. -/
structure Memory.Lawful (cfg : Config) (m : Memory) : Prop where
  wf : m.wf = true
  inside : ∀ c ∈ m, c.1 < cfg.fbBytes
  padding : paddingClear cfg m = true

theorem State.Inv.lawful {s : State} (h : s.Inv) : s.mem.Lawful s.cfg := ⟨h.mem_wf, h.mem_inside, h.padding⟩

section Drawing

variable {cfg : Config} {m : Memory} {x y w h : Nat}

theorem Memory.Lawful.paint {f : Nat → Nat → Option Bool} (hm : m.Lawful cfg)
    (hin : cfg.windowInside x y w h = true) : (paint cfg x y w f h m).Lawful cfg where
  wf := paint_wf hm.wf
  inside := paint_inside hin hm.inside
  padding := (paint_sameOutside (windowInside_stride hin)).paddingClear (windowInside_iff.mp hin).1 hm.padding

theorem Memory.Lawful.fbShift {shift : Int} {wrap : Bool} (hm : m.Lawful cfg)
    (hin : cfg.windowInside x y w h = true) : (fbShift cfg m x y w h shift wrap).Lawful cfg where
  wf := fbShift_wf hm.wf
  inside := fbShift_inside hin hm.inside
  padding := (fbShift_sameOutside hin).paddingClear (windowInside_iff.mp hin).1 hm.padding

/-- A pixel write is the painting of a window of one pixel. -/
theorem fbSet_eq_paint (cfg : Config) (m : Memory) (x y : Nat) (b : Bool) :
    fbSet cfg m x y b = paint cfg x y 1 (fun _ _ => some b) 1 m := rfl

theorem pixelInside_eq_windowInside (cfg : Config) (x y : Nat) : cfg.pixelInside x y = cfg.windowInside x y 1 1 := rfl

theorem Memory.Lawful.fbSet {b : Bool} (hm : m.Lawful cfg) (hin : cfg.pixelInside x y = true) :
    (fbSet cfg m x y b).Lawful cfg :=
  fbSet_eq_paint cfg m x y b ▸ hm.paint (pixelInside_eq_windowInside cfg x y ▸ hin)

theorem Memory.Lawful.drawsRegion {m' : Memory} {g : Region} (hm : m.Lawful cfg) (hd : DrawsRegion cfg m m' g)
    (hin : cfg.windowInside g.x g.y g.w g.h = true) : m'.Lawful cfg := by
  obtain ⟨shift, wrap, rfl⟩ | ⟨f, rfl⟩ := hd
  · exact hm.fbShift hin
  · exact hm.paint hin

end Drawing

/-! ## The updates that keep the invariant -/

/-- Settles O53: the construction checks are all that the reset state's invariant needs, on every tick. -/
theorem invHoldsAtReset : Obligations.InvHoldsAtReset := fun _ t0 h => State.resetAt_inv t0 h

section Invariant

variable {s : State}

/-- The invariant does not speak of what the environment has supplied, which is all that the reset input leaves in
place beside the configuration. -/
theorem State.applyReset_inv (hs : s.Inv) (t0 : Tick) : (s.applyReset t0).Inv :=
  { State.resetAt_inv t0 hs.cfg_wf with }

theorem State.passTurn_inv (hs : s.Inv) : s.passTurn.Inv := { hs with }

theorem State.acceptCommand_inv (hs : s.Inv) : s.acceptCommand.Inv := { hs with }

theorem State.respond_inv (hs : s.Inv) (d : BitVec 32) : (s.respond d).Inv := { hs with }

theorem State.reject_inv (hs : s.Inv) (e : ErrorKind) : (s.reject e).Inv := { hs with }

theorem State.sampleInputs_inv (hs : s.Inv) : s.sampleInputs.Inv :=
  s.sampleInputs_frame ▸ { hs with now_lt := s.sampleInputs_now_lt }

theorem State.withMem_inv (hs : s.Inv) {m : Memory} (hm : m.Lawful s.cfg) : State.Inv { s with mem := m } :=
  { hs with mem_wf := hm.wf, mem_inside := hm.inside, padding := hm.padding }

/-- Only a running sequencer moves `SLOT` on, and there is a slot to move on to (R24 to R26). -/
theorem State.advanceSlot_inv (hs : s.Inv) (hrun : s.run = true) (hlt : s.slot + 1 < s.cfg.nslot) :
    s.advanceSlot.Inv :=
  { hs with
    slot_lt := hlt
    unchanged_between_cycles := fun h0 => absurd h0 s.slot.succ_ne_zero
    held_at_slot_zero := fun hheld => by simp [hrun] at hheld }

theorem modeCheck_modeDue_lt (s : State) : (modeCheck s).modeDue < s.cfg.tickSpan := by
  unfold modeCheck
  split <;> exact tickAdd_lt ..

/-- The check writes `MODE` and `MODE_DUE` and nothing else (R27). -/
theorem modeCheck_frame (s : State) :
    modeCheck s = { s with mode := (modeCheck s).mode, modeDue := (modeCheck s).modeDue } := by
  unfold modeCheck
  split <;> rfl

theorem modeCheck_inv (hs : s.Inv) : (modeCheck s).Inv :=
  modeCheck_frame s ▸ { hs with mode_due_lt := modeCheck_modeDue_lt s }

theorem Animator.ticksInRange_iff {cfg : Config} {a : Animator} :
    a.ticksInRange cfg = true ↔ a.nextDue < cfg.tickSpan ∧ a.nextReset < cfg.tickSpan ∧ a.createdAt < cfg.tickSpan := by
  simp [Animator.ticksInRange, and_assoc]

/-- The record that a finished body leaves holds tick values: its deadlines are its old ones, sums of ticks, or the
sampled tick. -/
theorem BodyLaw.ticksInRange {i : Instr} {body : Region → Animator → Except Refusal BodyResult} {g : Region}
    {a : Animator} {b : BodyResult} (hlaw : BodyLaw s body i) (hb : body g a = .ok b)
    (ha : a.ticksInRange s.cfg = true) (hnow : s.now < s.cfg.tickSpan) :
    Animator.ticksInRange s.cfg { b.anim with nextDue := tickAdd s.cfg s.now b.interval } = true := by
  obtain ⟨-, hreset, hcreated⟩ := Animator.ticksInRange_iff.mp ha
  refine Animator.ticksInRange_iff.mpr ⟨tickAdd_lt .., ?_, ?_⟩
  · obtain h | ⟨d, h⟩ := hlaw.resets g a b hb
    · exact h ▸ hreset
    · exact h ▸ tickAdd_lt ..
  · obtain h | h := hlaw.created g a b hb
    · exact h ▸ hcreated
    · exact h ▸ hnow

theorem State.finishBody_inv {region : Nat} {i : Instr} {body : Region → Animator → Except Refusal BodyResult}
    {g : Region} {a : Animator} {b : BodyResult} (hs : s.Inv) (hready : SlotReady s region g a)
    (hlaw : BodyLaw s body i) (hb : body g a = .ok b) (hlt : s.slot + 1 < s.cfg.nslot) : (s.finishBody b).Inv := by
  obtain ⟨hrun, -, hin, -, ha⟩ := hready
  have hmem := hs.lawful.drawsRegion (hlaw.draws g a b hb) hin
  have hold := hs.animator_ticks a (List.mem_of_getElem? ha)
  exact
    { hs with
      mem_wf := hmem.wf
      mem_inside := hmem.inside
      padding := hmem.padding
      slot_lt := hlt
      unchanged_between_cycles := fun h0 => absurd h0 s.slot.succ_ne_zero
      held_at_slot_zero := fun hheld => by simp [hrun] at hheld
      animators_length := List.length_set.trans hs.animators_length
      animator_ticks := fun a' ha' => by
        obtain ha' | rfl := List.mem_or_eq_of_mem_set ha'
        · exact hs.animator_ticks a' ha'
        · exact hlaw.ticksInRange hb hold hs.now_lt }

/-- The end of a cycle that reported no change. -/
theorem State.rewind_inv (hs : s.Inv) (hc : s.changed = false) : State.Inv { s with slot := 0 } :=
  { hs with
    slot_lt := Nat.zero_lt_of_lt hs.slot_lt
    unchanged_between_cycles := fun _ => hc
    held_at_slot_zero := fun _ => rfl }

/-- The end of a cycle that presents. -/
theorem State.present_inv (hs : s.Inv) :
    State.Inv { s with out := s.out ++ [image s.cfg s.mem], changed := false, slot := 0 } :=
  { hs with
    slot_lt := Nat.zero_lt_of_lt hs.slot_lt
    unchanged_between_cycles := fun _ => rfl
    held_at_slot_zero := fun _ => rfl
    images_whole := fun img himg => by
      obtain himg | himg := List.mem_append.mp himg
      · exact hs.images_whole img himg
      · exact List.mem_singleton.mp himg ▸ image_length s.cfg s.mem }

/-! ## Every step keeps the invariant -/

/-- An instruction keeps the invariant where a slot operation other than PRESENT has a slot after it. -/
theorem ExecEffect.keeps_inv {i : Instr} {t : State} (h : ExecEffect i s t) (hs : s.Inv)
    (hnext : i.isHostCommand = false → i ≠ .present → s.slot + 1 < s.cfg.nslot) : t.Inv := by
  cases h with
  | waits => exact hs
  | responds _ d => exact State.respond_inv hs d
  | rejects _ e => exact State.reject_inv hs e
  | setsPixel hin => exact State.respond_inv (State.withMem_inv hs (hs.lawful.fbSet hin)) _
  | shifts hin => exact State.respond_inv (State.withMem_inv hs (hs.lawful.fbShift hin)) _
  | setsRun => exact { hs with held_at_slot_zero := fun hheld => nomatch hheld }
  | clearsRun h0 => exact { hs with held_at_slot_zero := fun _ => h0 }
  | advances hi hp hr => exact State.advanceSlot_inv hs hr (hnext hi hp)
  | checksMode hr =>
    exact State.advanceSlot_inv (modeCheck_inv hs) (by simpa using hr) (by simpa using hnext rfl (by decide))
  | finishes hi hready hlaw hb =>
    exact State.finishBody_inv hs hready hlaw hb
      (hnext (isHostCommand_of_animatorRegion hi) (ne_present_of_animatorRegion hi))
  | presents => exact State.present_inv hs
  | rewinds hc => exact State.rewind_inv hs hc

end Invariant

/-- The last slot is PRESENT, so any other slot has one after it (R24; 45_scheduler_and_control.md R140). -/
theorem slot_succ_lt_nslot {cfg : Config} (hwf : cfg.wellFormed = true) {k : Nat} {d : SlotDesc} {i : Instr}
    (hd : cfg.seq[k]? = some d) (hi : decodeSlot d = .ok i) (hp : i ≠ .present) : k + 1 < cfg.nslot := by
  obtain ⟨-, -, hlast⟩ := Config.wellFormed_ends hwf
  have hlt : k < cfg.nslot := (List.getElem?_eq_some_iff.mp hd).1
  have hne : k ≠ cfg.nslot - 1 := by
    rintro rfl
    simp [hd, hi] at hlast
    exact hp hlast
  omega

/-- Settles O55: a reset meets the invariant anew, waiting and rejecting touch nothing it speaks of, and of the
instructions only the slots move `SLOT`, which the slot program keeps in range. -/
theorem stepKeepsInv : Obligations.StepKeepsInv := by
  intro s t hs h
  have hpass := State.passTurn_inv hs
  obtain ⟨t0, -, rfl⟩ | ⟨-, ⟨-, -, rfl⟩ | ⟨c, -, ⟨i, hi, h⟩ | ⟨-, rfl⟩⟩ | ⟨d, i, -, hd, hi, h⟩⟩ := step_cases h
  · exact State.applyReset_inv hpass t0
  · exact hpass
  · exact (exec_effect h).keeps_inv (State.acceptCommand_inv hpass) fun hslot =>
      nomatch (decodeCommand_host hi).symm.trans hslot
  · exact State.reject_inv (State.acceptCommand_inv hpass) _
  · exact (exec_effect h).keeps_inv (State.sampleInputs_inv hpass) fun _ hp => by
      simpa using slot_succ_lt_nslot hs.cfg_wf hd hi hp

end Sys2Proof.Machine
end

section
/-! PROOFS. The statements of 30_encoding.md: the instruction that each row of the opcode map gives a word, said once as
a relation between words and instructions, and CLRREGION as a shift that moves every pixel out of its window. -/

namespace Sys2Proof

/-! ## The row that selects a word, and the instruction it names (R53) -/

/-- The instructions that the rows selecting `c` name, with the operands they read from the fields of `c`. -/
inductive RowNames (c : CommandWord) : Instr → Prop
  | nop (h : rowNop.selects c = true) : RowNames c .nop
  | setpixel (h : rowSetpixel.selects c = true) : RowNames c (.setpixel (fieldX c) (fieldY c) (fieldFlag c))
  | getpixel (h : rowGetpixel.selects c = true) : RowNames c (.getpixel (fieldX c) (fieldY c))
  | shiftregion (h : rowShiftregion.selects c = true) :
      RowNames c (.shiftregion (fieldX c) (fieldY c) (fieldW c) (fieldH c) (fieldS c) (fieldFlag c))
  | regionof (h : rowRegionof.selects c = true) : RowNames c (.regionof (fieldA c))
  | run (h : rowRun.selects c = true) : RowNames c .run
  | halt (h : rowHalt.selects c = true) : RowNames c .halt
  | rdstatus (h : rowRdstatus.selects c = true) : RowNames c .rdstatus

/-- The decoder tries the rows in turn, and their order does not matter: no other row selects a selected word. -/
theorem decodeCommand_eq_ok_iff {c : CommandWord} {i : Instr} : decodeCommand c = .ok i ↔ RowNames c i := by
  constructor
  · intro h
    unfold decodeCommand at h
    split_ifs at h with hnop hsetpixel hgetpixel hshiftregion hregionof hrun hhalt hrdstatus <;> cases h
    · exact .nop hnop
    · exact .setpixel hsetpixel
    · exact .getpixel hgetpixel
    · exact .shiftregion hshiftregion
    · exact .regionof hregionof
    · exact .run hrun
    · exact .halt hhalt
    · exact .rdstatus hrdstatus
  · have hother {r1 r2 : CommandRow} (h : r1.selects c = true) (m1 : r1 ∈ commandRows) (m2 : r2 ∈ commandRows)
        (hne : r2 ≠ r1) : r2.selects c = false := Bool.eq_false_iff.mpr (row_other m1 m2 h hne)
    intro h
    cases h with
    | nop h => simp [decodeCommand, h]
    | setpixel h | getpixel h | shiftregion h | regionof h | run h | halt h | rdstatus h =>
      simp (disch := decide) [decodeCommand, h, hother h]

/-! ## Decode and encode agree (R50 to R55) -/

/-- The flag of a word packed from a flag is that flag. -/
@[simp] theorem fieldFlag_pack_flagByte (op x y w h : BitVec 8) (s : BitVec 16) (b : Bool) :
    fieldFlag (packCommand op (flagByte b) x y w h s) = b := by
  rw [fieldFlag_eq, fieldA_pack, flagByte_bit]

/-- An argument byte that may hold a flag only is packed again from the flag of its word. -/
theorem flagByte_fieldFlag_pack {op a x y w h : BitVec 8} {s : BitVec 16} (ha : a &&& 0xFE#8 = 0#8) :
    flagByte (fieldFlag (packCommand op a x y w h s)) = a := by
  rw [fieldFlag_eq, fieldA_pack, ← flagByte_of_mask ha]

/-- The row fixes every field that is not an operand, so the instruction it names is encoded by the word itself. -/
theorem RowNames.encode_pack {op a x y w h : BitVec 8} {s : BitVec 16} {i : Instr}
    (hi : RowNames (packCommand op a x y w h s) i) : encode i = .word (packCommand op a x y w h s) := by
  cases hi with
  | nop hsel | run hsel | halt hsel | rdstatus hsel =>
    simp only [rowNop_selects, rowRun_selects, rowHalt_selects, rowRdstatus_selects] at hsel
    obtain ⟨rfl, rfl, rfl, rfl, rfl, rfl, rfl⟩ := hsel
    rfl
  | setpixel hsel =>
    obtain ⟨rfl, ha, rfl, rfl, rfl⟩ := (rowSetpixel_selects ..).mp hsel
    simp [encode, flagByte_fieldFlag_pack ha]
  | getpixel hsel =>
    obtain ⟨rfl, rfl, rfl, rfl, rfl⟩ := (rowGetpixel_selects ..).mp hsel
    simp [encode]
  | shiftregion hsel =>
    obtain ⟨rfl, ha⟩ := (rowShiftregion_selects ..).mp hsel
    simp [encode, flagByte_fieldFlag_pack ha]
  | regionof hsel =>
    obtain ⟨rfl, rfl, rfl, rfl, rfl, rfl⟩ := (rowRegionof_selects ..).mp hsel
    simp [encode]

/-- The word that encodes a host command is selected by the command's row and gives the operands back. -/
theorem RowNames.of_encode {c : CommandWord} {i : Instr} (h : encode i = .word c) : RowNames c i := by
  cases i <;> cases h
  case nop => exact .nop (by decide)
  case setpixel x y bit =>
    simpa using
      RowNames.setpixel (c := packCommand 0x01#8 (flagByte bit) x y 0#8 0#8 0#16) (by simp [rowSetpixel_selects])
  case getpixel x y =>
    simpa using RowNames.getpixel (c := packCommand 0x02#8 0#8 x y 0#8 0#8 0#16) (by simp [rowGetpixel_selects])
  case shiftregion x y w h shift wrap =>
    simpa using
      RowNames.shiftregion (c := packCommand 0x03#8 (flagByte wrap) x y w h shift) (by simp [rowShiftregion_selects])
  case regionof id =>
    simpa using RowNames.regionof (c := packCommand 0x04#8 id 0#8 0#8 0#8 0#8 0#16) (by simp [rowRegionof_selects])
  case run => exact .run (by decide)
  case halt => exact .halt (by decide)
  case rdstatus => exact .rdstatus (by decide)

/-- A word decodes to an instruction exactly when it is the instruction's encoding. -/
theorem decodeCommand_eq_ok_iff_encode {c : CommandWord} {i : Instr} :
    decodeCommand c = .ok i ↔ encode i = .word c := by
  rw [decodeCommand_eq_ok_iff]
  constructor
  · intro h
    rw [← pack_fields c] at h ⊢
    exact h.encode_pack
  · exact RowNames.of_encode

/-- The descriptor that encodes a slot operation has the operation's kind byte and its operands as record fields. -/
theorem decodeSlot_of_encode {d : SlotDesc} {i : Instr} (h : encode i = .slot d) : decodeSlot d = .ok i := by
  cases i <;> cases h <;> rfl

/-- Settles O1: an encoding is a command word or a slot descriptor, and each decodes to its instruction. -/
theorem decodeOfEncode : Obligations.DecodeOfEncode := by
  intro i
  cases h : encode i with
  | word c => exact decodeCommand_eq_ok_iff_encode.mpr h
  | slot d => exact decodeSlot_of_encode h

/-- Settles O2: the row that selects the word fixes every field that is not an operand. -/
theorem encodeOfDecodedCommand : Obligations.EncodeOfDecodedCommand :=
  fun _ _ => decodeCommand_eq_ok_iff_encode.mp

/-- Settles O7: the words are the encodings of the commands beside them. -/
theorem writtenOutWordsDecode : Obligations.WrittenOutWordsDecode := by
  simp only [Obligations.WrittenOutWordsDecode, decodeCommand_eq_ok_iff_encode]
  decide

/-! ## Mask and match (R53) -/

/-- The test of R53, as an equation. -/
theorem CommandRow.selects_iff {row : CommandRow} {c : CommandWord} :
    row.selects c = true ↔ c &&& row.mask = row.pattern := beq_iff_eq

/-- At most one row is left of the opcode map: its rows are distinct, and any two that select a word are the same. -/
theorem rows_selecting_le_one (c : CommandWord) : (commandRows.filter fun row => row.selects c).length ≤ 1 := by
  have hnodup : (commandRows.filter fun row => row.selects c).Nodup :=
    List.Nodup.filter _ (by decide : commandRows.Nodup)
  rw [← List.toFinset_card_of_nodup hnodup, Finset.card_le_one]
  intro r1 h1 r2 h2
  obtain ⟨m1, hsel1⟩ := List.mem_filter.mp (List.mem_toFinset.mp h1)
  obtain ⟨m2, hsel2⟩ := List.mem_filter.mp (List.mem_toFinset.mp h2)
  exact row_unique m1 m2 hsel1 hsel2

/-- Settles O3: the relation has one constructor for each row, with the row's test as its premise. -/
theorem commandNamedByMaskAndMatch : Obligations.CommandNamedByMaskAndMatch := by
  intro c
  simp only [decodeCommand_eq_ok_iff]
  refine ⟨?nop, ?setpixel, ?getpixel, ?shiftregion, ?regionof, ?run, ?halt, ?rdstatus, rows_selecting_le_one c⟩
  case nop => exact .trans ⟨fun | .nop h => h, .nop⟩ CommandRow.selects_iff
  case setpixel =>
    exact .trans ⟨fun ⟨_, _, _, .setpixel h⟩ => h, fun h => ⟨_, _, _, .setpixel h⟩⟩ CommandRow.selects_iff
  case getpixel => exact .trans ⟨fun ⟨_, _, .getpixel h⟩ => h, fun h => ⟨_, _, .getpixel h⟩⟩ CommandRow.selects_iff
  case shiftregion =>
    exact .trans ⟨fun ⟨_, _, _, _, _, _, .shiftregion h⟩ => h, fun h => ⟨_, _, _, _, _, _, .shiftregion h⟩⟩
      CommandRow.selects_iff
  case regionof => exact .trans ⟨fun ⟨_, .regionof h⟩ => h, fun h => ⟨_, .regionof h⟩⟩ CommandRow.selects_iff
  case run => exact .trans ⟨fun | .run h => h, .run⟩ CommandRow.selects_iff
  case halt => exact .trans ⟨fun | .halt h => h, .halt⟩ CommandRow.selects_iff
  case rdstatus => exact .trans ⟨fun | .rdstatus h => h, .rdstatus⟩ CommandRow.selects_iff

/-! ## The fields of a word as numbers (R50, R51) -/

theorem fieldOp_toNat (c : CommandWord) : (fieldOp c).toNat = c.toNat / 2 ^ 56 := by
  simp only [fieldOp, BitVec.extractLsb'_toNat, Nat.shiftRight_eq_div_pow]
  omega

theorem fieldA_toNat (c : CommandWord) : (fieldA c).toNat = c.toNat / 2 ^ 48 % 256 := by
  simp [fieldA, Nat.shiftRight_eq_div_pow]

theorem fieldX_toNat (c : CommandWord) : (fieldX c).toNat = c.toNat / 2 ^ 40 % 256 := by
  simp [fieldX, Nat.shiftRight_eq_div_pow]

theorem fieldY_toNat (c : CommandWord) : (fieldY c).toNat = c.toNat / 2 ^ 32 % 256 := by
  simp [fieldY, Nat.shiftRight_eq_div_pow]

theorem fieldW_toNat (c : CommandWord) : (fieldW c).toNat = c.toNat / 2 ^ 24 % 256 := by
  simp [fieldW, Nat.shiftRight_eq_div_pow]

theorem fieldH_toNat (c : CommandWord) : (fieldH c).toNat = c.toNat / 2 ^ 16 % 256 := by
  simp [fieldH, Nat.shiftRight_eq_div_pow]

theorem fieldS_toNat (c : CommandWord) : (fieldS c).toNat = c.toNat % 65536 := by
  simp [fieldS]

theorem fieldFlag_eq_bit (c : CommandWord) : fieldFlag c = (c.toNat / 2 ^ 48 % 2 == 1) := by
  rw [fieldFlag, ← BitVec.testBit_toNat, Nat.testBit_eq_decide_div_mod_eq]
  rfl

/-- The shift a word carries, by its low 16 bits read as two's complement. -/
theorem shiftAmount_fieldS (c : CommandWord) : Machine.shiftAmount (fieldS c) = sext 16 (c.toNat % 2 ^ 16) := by
  rw [Machine.shiftAmount, BitVec.toInt_eq_toNat_cond, fieldS_toNat, sext]
  split <;> split <;> omega

/-- Settles O5: the relation names the fields that hold the operands. -/
theorem operandsAreTheWordsFields : Obligations.OperandsAreTheWordsFields := by
  intro c x y w h id shift flag
  simp only [decodeCommand_eq_ok_iff]
  refine ⟨?setpixel, ?getpixel, ?shiftregion, ?regionof⟩
  case setpixel =>
    rintro ⟨⟩
    exact ⟨fieldX_toNat c, fieldY_toNat c, fieldFlag_eq_bit c⟩
  case getpixel =>
    rintro ⟨⟩
    exact ⟨fieldX_toNat c, fieldY_toNat c⟩
  case shiftregion =>
    rintro ⟨⟩
    exact ⟨fieldX_toNat c, fieldY_toNat c, fieldW_toNat c, fieldH_toNat c, shiftAmount_fieldS c, fieldFlag_eq_bit c⟩
  case regionof =>
    rintro ⟨⟩
    exact fieldA_toNat c

/-! ## Which words are commands (R55) -/

/-- A word is a command exactly when some row selects it. -/
theorem decodes_iff_selected {c : CommandWord} :
    (∃ i, decodeCommand c = .ok i) ↔ ∃ row ∈ commandRows, row.selects c = true := by
  simp only [decodeCommand_eq_ok_iff]
  constructor
  · rintro ⟨i, h⟩
    cases h with
    | nop h | setpixel h | getpixel h | shiftregion h | regionof h | run h | halt h | rdstatus h =>
      exact ⟨_, by decide, h⟩
  · rintro ⟨row, hrow, h⟩
    simp only [commandRows, List.mem_cons, List.not_mem_nil, or_false] at hrow
    obtain rfl | rfl | rfl | rfl | rfl | rfl | rfl | rfl := hrow
    exacts [⟨_, .nop h⟩, ⟨_, .setpixel h⟩, ⟨_, .getpixel h⟩, ⟨_, .shiftregion h⟩, ⟨_, .regionof h⟩, ⟨_, .run h⟩,
      ⟨_, .halt h⟩, ⟨_, .rdstatus h⟩]

/-- Bits 7:1 of a byte are zero exactly when it is 0 or 1. -/
theorem flagMask_eq_zero_iff (a : BitVec 8) : a &&& 0xFE#8 = 0#8 ↔ a.toNat ≤ 1 := by
  revert a; decide

/-- Settles O4: a word is a command when a row selects it, and the rows' tests are tests of its fields. -/
theorem legalWordsFieldByField : Obligations.LegalWordsFieldByField := by
  rintro c op a x y w h s rfl rfl rfl rfl rfl rfl rfl
  rw [decodes_iff_selected, ← fieldOp_toNat, ← fieldA_toNat, ← fieldX_toNat, ← fieldY_toNat, ← fieldW_toNat,
    ← fieldH_toNat, ← fieldS_toNat]
  conv_lhs => rw [← pack_fields c]
  simp only [commandRows, List.exists_mem_cons_iff, List.not_mem_nil, false_and, exists_false, or_false,
    rowNop_selects, rowSetpixel_selects, rowGetpixel_selects, rowShiftregion_selects, rowRegionof_selects,
    rowRun_selects, rowHalt_selects, rowRdstatus_selects, flagMask_eq_zero_iff]
  simp only [← BitVec.toNat_inj, BitVec.toNat_ofNat, Nat.reducePow, Nat.reduceMod, or_and_right]
  exact iff_of_eq (by ac_rfl)

/-! ## Slot descriptors (R54, R56) -/

/-- Settles O6: the decoder tells the seven kinds apart by the kind byte, and no two of them are one byte. -/
theorem kindByteSelectsSlotOperation : Obligations.KindByteSelectsSlotOperation := by
  intro kind region seed shift period i
  constructor
  · intro h
    unfold decodeSlot at h
    split_ifs at h with hmode hpattern hclock hdecay hlife hnoise hpresent <;> cases h
    · exact .inl ⟨hmode, rfl⟩
    · exact .inr (.inl ⟨hpattern, rfl⟩)
    · exact .inr (.inr (.inl ⟨hclock, rfl⟩))
    · exact .inr (.inr (.inr (.inl ⟨hdecay, rfl⟩)))
    · exact .inr (.inr (.inr (.inr (.inl ⟨hlife, rfl⟩))))
    · exact .inr (.inr (.inr (.inr (.inr (.inl ⟨hnoise, rfl⟩)))))
    · exact .inr (.inr (.inr (.inr (.inr (.inr ⟨hpresent, rfl⟩)))))
  · rintro (⟨rfl, rfl⟩ | ⟨rfl, rfl⟩ | ⟨rfl, rfl⟩ | ⟨rfl, rfl⟩ | ⟨rfl, rfl⟩ | ⟨rfl, rfl⟩ | ⟨rfl, rfl⟩) <;> rfl

end Sys2Proof

namespace Sys2Proof.Machine

/-! ## CLRREGION (R58) -/

/-- `SHIFTREGION` between cycles, on a window inside the surface. -/
theorem exec_shiftregion_inside {s : State} {x y w h : BitVec 8} {shift : BitVec 16} {wrap : Bool} (h0 : s.slot = 0)
    (hin : s.cfg.windowInside x.toNat y.toNat w.toNat h.toNat = true) :
    exec (.shiftregion x y w h shift wrap) s =
      .next ({ s with
        mem := fbShift s.cfg s.mem x.toNat y.toNat w.toNat h.toNat (shiftAmount shift) wrap }.respond 0#32) := by
  change execShiftregion x y w h shift wrap s = _
  rw [execShiftregion, hostCommand_accepts h0, if_pos hin]

/-- An unwrapped shift by the width or more leaves every pixel of the window dark (40_framebuffer.md R71). -/
theorem fbGet_fbShift_of_width_le {cfg : Config} {m : Memory} {x y w h i r : Nat} {shift : Int}
    (hin : cfg.windowInside x y w h = true) (hi : i < w) (hr : r < h) (hshift : (w : Int) ≤ shift) :
    fbGet cfg (fbShift cfg m x y w h shift false) (x + i) (y + r) = false := by
  rw [fbGet_fbShift hin hi hr, if_neg Bool.false_ne_true, if_neg (by omega)]

/-- A byte widened to the shift field is a shift to the right by its value. -/
theorem shiftAmount_setWidth (w : BitVec 8) : shiftAmount (w.setWidth 16) = w.toNat := by
  rw [shiftAmount, BitVec.toInt_setWidth, Int.bmod_eq_of_le (by omega) (by omega)]

/-- Settles O12: CLRREGION is the shift of its window by the window's own width. -/
theorem clrregionZeroesTheWindow : Obligations.ClrregionZeroesTheWindow := by
  intro s x y w h h0 hx hy
  have hin := windowInside_iff.mpr ⟨hx, hy⟩
  exact ⟨_, exec_shiftregion_inside h0 hin, fbShift_sameOutside hin,
    fun i r hi hr => fbGet_fbShift_of_width_le hin hi hr (shiftAmount_setWidth w).ge⟩

end Sys2Proof.Machine
end

section
/-! PROOFS. The statements of 40_framebuffer.md: the three host commands that touch the framebuffer by their two cases
each, and the region shift by the pixel each pixel comes from, then by the bits of a row read as one integer. -/

namespace Sys2Proof.Machine

/-! ## Responses and bounds (R64, R65, R69) -/

theorem State.respond_zero (s : State) :
    s.respond 0#32 = { s with responses := s.responses ++ [0x0000000000000000#64] } := rfl

theorem State.respond_bit (s : State) (b : Bool) :
    s.respond (if b then 1#32 else 0#32) = { s with responses := s.responses ++ [BitVec.ofNat 64 b.toNat] } := by
  cases b <;> rfl

theorem State.reject_outOfBounds (s : State) :
    s.reject .outOfBounds =
      { s with errFlags := s.errFlags ||| 0b001#3, responses := s.responses ++ [0x0100000000000000#64] } := rfl

theorem pixelInside_iff {cfg : Config} {x y : Nat} : cfg.pixelInside x y = true ↔ x < cfg.width ∧ y < cfg.height := by
  simp [Config.pixelInside]

/-! ## SETPIXEL and GETPIXEL -/

section PixelCommands

variable {s : State} {x y : BitVec 8}

theorem exec_setpixel_inside {bit : Bool} (h0 : s.slot = 0) (hin : s.cfg.pixelInside x.toNat y.toNat = true) :
    exec (.setpixel x y bit) s =
      .next ({ s with mem := fbSet s.cfg s.mem x.toNat y.toNat bit }.respond 0#32) := by
  change execSetpixel x y bit s = _
  rw [execSetpixel, hostCommand_accepts h0, if_pos hin]

theorem exec_setpixel_outside {bit : Bool} (h0 : s.slot = 0) (hout : ¬s.cfg.pixelInside x.toNat y.toNat = true) :
    exec (.setpixel x y bit) s = .next (s.reject .outOfBounds) := by
  change execSetpixel x y bit s = _
  rw [execSetpixel, hostCommand_accepts h0, if_neg hout]

theorem exec_getpixel_inside (h0 : s.slot = 0) (hin : s.cfg.pixelInside x.toNat y.toNat = true) :
    exec (.getpixel x y) s =
      .next (s.respond (if fbGet s.cfg s.mem x.toNat y.toNat then 1#32 else 0#32)) := by
  change execGetpixel x y s = _
  rw [execGetpixel, hostCommand_accepts h0, if_pos hin]

theorem exec_getpixel_outside (h0 : s.slot = 0) (hout : ¬s.cfg.pixelInside x.toNat y.toNat = true) :
    exec (.getpixel x y) s = .next (s.reject .outOfBounds) := by
  change execGetpixel x y s = _
  rw [execGetpixel, hostCommand_accepts h0, if_neg hout]

end PixelCommands

/-- Settles O8: the command is one pixel write, and a pixel write is known by every pixel and every byte it leaves. -/
theorem setpixelWritesOnePixel : Obligations.SetpixelWritesOnePixel := by
  intro s x y bit h0
  constructor
  · intro hx hy
    have hxs : x.toNat < 8 * s.cfg.stride := hx.trans_le (width_le_stride s.cfg)
    refine ⟨_, exec_setpixel_inside h0 (pixelInside_iff.mpr ⟨hx, hy⟩), rfl, ?written, ?pixels, ?bytes⟩
    case written => exact (fbGet_fbSet s.mem bit hxs hxs).trans (if_pos ⟨rfl, rfl⟩)
    case pixels =>
      exact fun x' y' hx' hne => (fbGet_fbSet s.mem bit hxs hx').trans (if_neg (by omega))
    case bytes => exact fun a ha => read_fbSet_other _ _ _ _ a bit ha
  · intro hout
    rw [exec_setpixel_outside h0 (by rw [pixelInside_iff]; omega), State.reject_outOfBounds]

/-- Settles O9: the answer is the pixel as a number. -/
theorem getpixelAnswersThePixel : Obligations.GetpixelAnswersThePixel := by
  intro s x y h0
  constructor
  · intro hx hy
    refine ⟨(fbGet s.cfg s.mem x.toNat y.toNat).toNat, ?range, Bool.toNat_eq_one, ?answer⟩
    case range =>
      have := Bool.toNat_lt (fbGet s.cfg s.mem x.toNat y.toNat)
      omega
    case answer => rw [exec_getpixel_inside h0 (pixelInside_iff.mpr ⟨hx, hy⟩), State.respond_bit]
  · intro hout
    rw [exec_getpixel_outside h0 (by rw [pixelInside_iff]; omega), State.reject_outOfBounds]

/-! ## Where each pixel of a shifted window comes from (R67, R68) -/

/-- A wrapped index may be wrapped before or after a displacement. -/
theorem wrapIndex_wrapIndex_sub {n : Nat} (hn : 0 < n) (i k : Int) :
    wrapIndex n ((wrapIndex n i : Int) - k) = wrapIndex n (i - k) := by
  apply wrapIndex_congr
  rw [wrapIndex_coe hn, Int.emod_sub_emod]

section ShiftedPixels

variable {cfg : Config} {m : Memory} {x y w h i r : Nat} {shift : Int}

theorem fbGet_rotated (hin : cfg.windowInside x y w h = true) (hi : i < w) (hr : r < h) :
    fbGet cfg (fbShift cfg m x y w h shift true) (x + i) (y + r) =
      fbGet cfg m (x + wrapIndex w ((i : Int) - shift)) (y + r) := by
  rw [fbGet_fbShift hin hi hr, if_pos rfl]

theorem fbGet_shifted (hin : cfg.windowInside x y w h = true) (hi : i < w) (hr : r < h) :
    fbGet cfg (fbShift cfg m x y w h shift false) (x + i) (y + r) =
      if 0 ≤ (i : Int) - shift ∧ (i : Int) - shift < (w : Int) then fbGet cfg m (x + ((i : Int) - shift).toNat) (y + r)
      else false := by
  rw [fbGet_fbShift hin hi hr, if_neg Bool.false_ne_true]

/-- Where a rotation puts the pixel of column `i`: the forward form of `fbGet_rotated`. -/
theorem fbGet_rotated_to (hin : cfg.windowInside x y w h = true) (hi : i < w) (hr : r < h) :
    fbGet cfg (fbShift cfg m x y w h shift true) (x + wrapIndex w ((i : Int) + shift)) (y + r) =
      fbGet cfg m (x + i) (y + r) := by
  have hw : 0 < w := by omega
  rw [fbGet_rotated hin (wrapIndex_lt hw _) hr, wrapIndex_wrapIndex_sub hw, add_sub_cancel_right, wrapIndex_self hi]

end ShiftedPixels

/-! ## SHIFTREGION (R69, R70) -/

theorem exec_shiftregion_outside {s : State} {x y w h : BitVec 8} {shift : BitVec 16} {wrap : Bool} (h0 : s.slot = 0)
    (hout : ¬s.cfg.windowInside x.toNat y.toNat w.toNat h.toNat = true) :
    exec (.shiftregion x y w h shift wrap) s = .next (s.reject .outOfBounds) := by
  change execShiftregion x y w h shift wrap s = _
  rw [execShiftregion, hostCommand_accepts h0, if_neg hout]

/-- Settles O10: the command is the region shift of its window, or the rejection. -/
theorem shiftregionMovesTheWindow : Obligations.ShiftregionMovesTheWindow := by
  intro s x y w h shift wrap h0
  constructor
  · intro hx hy
    have hin := windowInside_iff.mpr ⟨hx, hy⟩
    refine ⟨_, exec_shiftregion_inside h0 hin, rfl, fbShift_sameOutside hin, fun i r hi hr => ⟨?rotated, ?shifted⟩⟩
    case rotated => rintro rfl; exact fbGet_rotated_to hin hi hr
    case shifted => rintro rfl; exact fbGet_shifted hin hi hr
  · intro hout
    rw [exec_shiftregion_outside h0 (by rw [windowInside_iff]; omega), State.reject_outOfBounds]

section ShiftLaws

variable {cfg : Config} {m : Memory} {x y w h : Nat}

theorem fbShift_zero {wrap : Bool} : fbShift cfg m x y w h 0 wrap = m := if_pos (.inr (.inr rfl))

theorem fbShift_of_empty {shift : Int} {wrap : Bool} (hempty : w = 0 ∨ h = 0) :
    fbShift cfg m x y w h shift wrap = m := if_pos (hempty.imp_right .inl)

/-- A rotation by a multiple of the width brings every pixel back to its own place. -/
theorem fbShift_rotate_of_dvd {shift : Int} (hm : m.wf = true) (hin : cfg.windowInside x y w h = true)
    (hdvd : (w : Int) ∣ shift) : fbShift cfg m x y w h shift true = m := by
  refine eq_of_window hm (fbShift_wf hm) hin (fbShift_sameOutside hin) fun i r hi hr => ?_
  obtain ⟨k, rfl⟩ := hdvd
  rw [fbGet_rotated hin hi hr, wrapIndex_congr (Int.sub_mul_emod_self_left _ _ k), wrapIndex_self hi]

end ShiftLaws

/-- Settles O11: in each of the four cases the region shift gives back the framebuffer it was given. -/
theorem shiftNoOpsLeaveTheFramebuffer : Obligations.ShiftNoOpsLeaveTheFramebuffer := by
  intro s x y w h shift wrap h0 hm hx hy hcase
  have hin := windowInside_iff.mpr ⟨hx, hy⟩
  have hsame : fbShift s.cfg s.mem x.toNat y.toNat w.toNat h.toNat (shiftAmount shift) wrap = s.mem := by
    rcases hcase with rfl | rfl | rfl | ⟨rfl, hdvd⟩
    · exact fbShift_zero
    · exact fbShift_of_empty (.inl rfl)
    · exact fbShift_of_empty (.inr rfl)
    · exact fbShift_rotate_of_dvd hm hin hdvd
  rw [exec_shiftregion_inside h0 hin, hsame, State.respond_zero]

/-! ## Repeated shifts (R73) -/

section RepeatedShifts

variable {cfg : Config} {m : Memory} {x y w h : Nat} {s1 s2 : Int}

/-- Two shifts of a window are a third one when they give the same pixels of the window: nothing else can differ. -/
theorem fbShift_fbShift_of_pixels {s3 : Int} {wrap : Bool} (hm : m.wf = true)
    (hin : cfg.windowInside x y w h = true)
    (hpix : ∀ i r, i < w → r < h →
      fbGet cfg (fbShift cfg (fbShift cfg m x y w h s1 wrap) x y w h s2 wrap) (x + i) (y + r) =
        fbGet cfg (fbShift cfg m x y w h s3 wrap) (x + i) (y + r)) :
    fbShift cfg (fbShift cfg m x y w h s1 wrap) x y w h s2 wrap = fbShift cfg m x y w h s3 wrap :=
  have hout := ((fbShift_sameOutside hin).symm.trans (fbShift_sameOutside hin)).trans (fbShift_sameOutside hin)
  eq_of_window (fbShift_wf hm) (fbShift_wf (fbShift_wf hm)) hin hout hpix

theorem fbShift_rotate_rotate (hm : m.wf = true) (hin : cfg.windowInside x y w h = true) :
    fbShift cfg (fbShift cfg m x y w h s1 true) x y w h s2 true = fbShift cfg m x y w h (s1 + s2) true := by
  refine fbShift_fbShift_of_pixels hm hin fun i r hi hr => ?_
  have hw : 0 < w := by omega
  rw [fbGet_rotated hin hi hr, fbGet_rotated hin (wrapIndex_lt hw _) hr, fbGet_rotated hin hi hr,
    wrapIndex_wrapIndex_sub hw, sub_sub, add_comm s2 s1]

theorem fbShift_rotate_iterate (hm : m.wf = true) (hin : cfg.windowInside x y w h = true) (n : Nat) :
    (fun m => fbShift cfg m x y w h 1 true)^[n] m = fbShift cfg m x y w h n true := by
  induction n with
  | zero => exact fbShift_zero.symm
  | succ n ih => rw [Function.iterate_succ_apply', ih, fbShift_rotate_rotate hm hin, Nat.cast_succ]

/-- Unwrapped shifts in one direction add: a pixel pushed out by the first stays out under the second. -/
theorem fbShift_shift_shift (hm : m.wf = true) (hin : cfg.windowInside x y w h = true)
    (hsign : (0 ≤ s1 ∧ 0 ≤ s2) ∨ (s1 ≤ 0 ∧ s2 ≤ 0)) :
    fbShift cfg (fbShift cfg m x y w h s1 false) x y w h s2 false = fbShift cfg m x y w h (s1 + s2) false := by
  refine fbShift_fbShift_of_pixels hm hin fun i r hi hr => ?_
  rw [fbGet_shifted hin hi hr, fbGet_shifted hin hi hr]
  by_cases hfrom : 0 ≤ (i : Int) - s2 ∧ (i : Int) - s2 < w
  · rw [if_pos hfrom, fbGet_shifted hin (by omega) hr, Int.toNat_of_nonneg hfrom.1, sub_sub, add_comm s2 s1]
  · rw [if_neg hfrom, if_neg (by omega)]

end RepeatedShifts

/-- Settles O14: rotations add, and the sum of `w` rotations by 1 is a multiple of the width. -/
theorem rotationsCompose : Obligations.RotationsCompose := by
  intro cfg m x y w h s1 s2 hm hx hy
  have hin := windowInside_iff.mpr ⟨hx, hy⟩
  refine ⟨fbShift_rotate_rotate hm hin, ?whole, fun hsign => fbShift_shift_shift hm hin (mul_nonneg_iff.mp hsign)⟩
  case whole => rw [fbShift_rotate_iterate hm hin, fbShift_rotate_of_dvd hm hin dvd_rfl]

/-! ## A row as one integer (R76) -/

theorem wrapIndex_natCast (n a : Nat) : wrapIndex n (a : Int) = a % n := rfl

/-- A place in the window displaced by `shift` is displaced by its residue, and wraps at most once. -/
theorem wrapIndex_add {w k : Nat} (shift : Int) (hk : k < w) :
    wrapIndex w ((k : Int) + shift) =
      if k + wrapIndex w shift < w then wrapIndex w shift + k else k - (w - wrapIndex w shift) := by
  have hlt := wrapIndex_lt (n := w) (by omega) shift
  have hres : wrapIndex w ((k : Int) + shift) = (k + wrapIndex w shift) % w := by
    rw [← wrapIndex_natCast]
    apply wrapIndex_congr
    rw [Nat.cast_add, wrapIndex_coe (by omega), Int.add_emod_emod]
  rw [hres]
  split
  · next hstay => rw [Nat.mod_eq_of_lt hstay, add_comm]
  · next hwrap => rw [Nat.mod_eq_sub_mod (by omega), Nat.mod_eq_of_lt (by omega)]; omega

/-- Displacing a place to the left and then counting from the right end is displacing its count to the right. -/
theorem sub_wrapIndex_sub {w k : Nat} (shift : Int) (hk : k < w) :
    w - 1 - wrapIndex w (((w - 1 - k : Nat) : Int) - shift) = wrapIndex w ((k : Int) + shift) := by
  have hw : 0 < w := by omega
  have hlt := wrapIndex_lt hw (((w - 1 - k : Nat) : Int) - shift)
  rw [← wrapIndex_self (n := w) (i := w - 1 - wrapIndex w (((w - 1 - k : Nat) : Int) - shift)) (by omega)]
  apply wrapIndex_congr
  rw [Nat.cast_sub (by omega), wrapIndex_coe hw, Int.sub_emod_emod]
  congr 1
  omega

section Words

variable {cfg : Config} {m : Memory} {x y w h r k : Nat} {shift : Int}

theorem fbGet_eq_rowValue_bit {i : Nat} (hi : i < w) :
    fbGet cfg m (x + i) y = (rowValue cfg m x y w).testBit (w - 1 - i) := by
  rw [rowValue_bit, if_pos (by omega), show w - 1 - (w - 1 - i) = i by omega]

theorem rowValue_testBit_of_le (hk : w ≤ k) : (rowValue cfg m x y w).testBit k = false := by
  rw [rowValue_bit, if_neg (by omega)]

theorem rowValue_rotate_testBit (hin : cfg.windowInside x y w h = true) (hr : r < h) (hk : k < w) :
    (rowValue cfg (fbShift cfg m x y w h shift true) x (y + r) w).testBit k =
      (rowValue cfg m x (y + r) w).testBit (wrapIndex w ((k : Int) + shift)) := by
  rw [rowValue_bit, if_pos hk, fbGet_rotated hin (by omega) hr, fbGet_eq_rowValue_bit (wrapIndex_lt (by omega) _),
    sub_wrapIndex_sub shift hk]

theorem rowValue_shift_testBit (hin : cfg.windowInside x y w h = true) (hr : r < h) :
    (rowValue cfg (fbShift cfg m x y w h shift false) x (y + r) w).testBit k =
      (decide (k < w) && decide (0 ≤ (k : Int) + shift) &&
        (rowValue cfg m x (y + r) w).testBit ((k : Int) + shift).toNat) := by
  by_cases hk : k < w
  · rw [rowValue_bit, if_pos hk, fbGet_shifted hin (by omega) hr]
    by_cases hfrom : 0 ≤ (k : Int) + shift ∧ (k : Int) + shift < w
    · rw [if_pos (by omega), fbGet_eq_rowValue_bit (w := w) (by omega),
        show w - 1 - (((w - 1 - k : Nat) : Int) - shift).toNat = ((k : Int) + shift).toNat by omega]
      simp [hk, hfrom.1]
    · rw [if_neg (by omega)]
      by_cases hneg : (k : Int) + shift < 0
      · simp [hneg]
      · rw [rowValue_testBit_of_le (by omega), Bool.and_false]
  · rw [rowValue_testBit_of_le (by omega)]; simp [hk]

theorem rowValue_rotate (hin : cfg.windowInside x y w h = true) (hr : r < h) :
    rowValue cfg (fbShift cfg m x y w h shift true) x (y + r) w =
      (rowValue cfg m x (y + r) w >>> wrapIndex w shift |||
        rowValue cfg m x (y + r) w <<< (w - wrapIndex w shift)) &&& (2 ^ w - 1) := by
  apply Nat.eq_of_testBit_eq
  intro k
  rw [Nat.testBit_and, Nat.testBit_or, Nat.testBit_shiftRight, Nat.testBit_shiftLeft, Nat.testBit_two_pow_sub_one]
  by_cases hk : k < w
  · rw [rowValue_rotate_testBit hin hr hk, wrapIndex_add shift hk]
    split
    · next hstay => simp [hk, show ¬w - wrapIndex w shift ≤ k by omega]
    · next hwrap =>
      rw [rowValue_testBit_of_le (k := wrapIndex w shift + k) (by omega)]
      simp [hk, show w - wrapIndex w shift ≤ k by omega]
  · rw [rowValue_testBit_of_le (by omega)]; simp [hk]

theorem rowValue_shift_out (hin : cfg.windowInside x y w h = true) (hr : r < h)
    (hout : shift ≥ w ∨ shift ≤ -(w : Int)) :
    rowValue cfg (fbShift cfg m x y w h shift false) x (y + r) w = 0 := by
  apply Nat.zero_of_testBit_eq_false
  intro k
  rw [rowValue_shift_testBit hin hr]
  rcases hout with hright | hleft
  · rw [rowValue_testBit_of_le (by omega), Bool.and_false]
  · rw [← Bool.decide_and, decide_eq_false (by omega), Bool.false_and]

theorem rowValue_shift_right (hin : cfg.windowInside x y w h = true) (hr : r < h) (hpos : 0 ≤ shift) :
    rowValue cfg (fbShift cfg m x y w h shift false) x (y + r) w = rowValue cfg m x (y + r) w >>> shift.toNat := by
  apply Nat.eq_of_testBit_eq
  intro k
  rw [rowValue_shift_testBit hin hr, Nat.testBit_shiftRight, ← Bool.decide_and,
    show ((k : Int) + shift).toNat = shift.toNat + k by omega]
  by_cases hk : k < w
  · rw [decide_eq_true (by omega), Bool.true_and]
  · rw [rowValue_testBit_of_le (by omega), Bool.and_false]

theorem rowValue_shift_left (hin : cfg.windowInside x y w h = true) (hr : r < h) (hneg : shift ≤ 0) :
    rowValue cfg (fbShift cfg m x y w h shift false) x (y + r) w =
      rowValue cfg m x (y + r) w <<< (-shift).toNat &&& (2 ^ w - 1) := by
  apply Nat.eq_of_testBit_eq
  intro k
  rw [rowValue_shift_testBit hin hr, Nat.testBit_and, Nat.testBit_shiftLeft, Nat.testBit_two_pow_sub_one,
    show ((k : Int) + shift).toNat = k - (-shift).toNat by omega,
    show decide (0 ≤ (k : Int) + shift) = decide (k ≥ (-shift).toNat) from decide_eq_decide.mpr (by omega)]
  ac_rfl

end Words

/-- Settles O15: each clause is a direction of the shift, read bit by bit in the row's value. -/
theorem shiftIsTheWordLevelForm : Obligations.ShiftIsTheWordLevelForm := by
  rintro cfg m x y w h r k v shift - hr hx hy rfl rfl
  have hin := windowInside_iff.mpr ⟨hx, hy⟩
  exact ⟨rowValue_rotate hin hr, rowValue_shift_out hin hr, fun hpos _ => rowValue_shift_right hin hr hpos.le,
    fun _ hneg => rowValue_shift_left hin hr hneg.le⟩

/-! ## Byte-aligned windows of width 8 (R75) -/

/-- An aligned byte is the value of its eight pixels. -/
theorem read_eq_rowValue {cfg : Config} {m : Memory} {x y : Nat} (hx : x % 8 = 0) :
    (m.read (pixelAddr cfg x y)).toNat = rowValue cfg m x y 8 := by
  apply Nat.eq_of_testBit_eq
  intro k
  rw [BitVec.testBit_toNat, rowValue_bit]
  by_cases hk : k < 8
  · rw [if_pos hk, fbGet, pixelAddr, pixelAddr, pixelBit, show (x + (8 - 1 - k)) / 8 = x / 8 by omega,
      show 7 - (x + (8 - 1 - k)) % 8 = k by omega]
  · rw [if_neg hk, BitVec.getLsbD_of_ge _ _ (by omega)]

/-- The two halves of a rotated byte do not overflow on the right, and are cut on the left. -/
theorem rotate_mask {v a b : Nat} (hv : v < 2 ^ 8) :
    (v >>> a ||| v <<< b) &&& (2 ^ 8 - 1) = v >>> a ||| v <<< b % 2 ^ 8 := by
  rw [Nat.and_two_pow_sub_one_eq_mod, Nat.or_mod_two_pow, Nat.mod_eq_of_lt ((Nat.shiftRight_le v a).trans_lt hv)]

/-- A rotation of an aligned byte is the word-level form of the rotation on its row. -/
theorem read_rotated {cfg : Config} {m : Memory} {x y h r : Nat} {shift : Int} (hx : x % 8 = 0)
    (hin : cfg.windowInside x y 8 h = true) (hr : r < h) :
    (fbShift cfg m x y 8 h shift true).read (pixelAddr cfg x (y + r)) =
      (m.read (pixelAddr cfg x (y + r))).rotateRight (wrapIndex 8 shift) := by
  apply BitVec.eq_of_toNat_eq
  rw [read_eq_rowValue hx, rowValue_rotate hin hr, ← read_eq_rowValue hx, rotate_mask (BitVec.isLt _),
    BitVec.toNat_rotateRight, Nat.mod_eq_of_lt (wrapIndex_lt (by decide) shift)]

/-- Seven places to the right in a byte are one place to the left. -/
theorem rotateRight_seven (b : Byte) : b.rotateRight 7 = b.rotateLeft 1 := by
  rw [BitVec.rotateRight_def, BitVec.rotateLeft_def, BitVec.or_comm]

/-- Settles O13: a wrapped shift by -1 is the one by 7. -/
theorem alignedShiftRotatesBytes : Obligations.AlignedShiftRotatesBytes := by
  intro cfg m x y h r hx hxw hyh hr
  have hin := windowInside_iff.mpr ⟨hxw, hyh⟩
  exact ⟨read_rotated hx hin hr, (read_rotated hx hin hr).trans (rotateRight_seven _)⟩

end Sys2Proof.Machine
end

section
/-! PROOFS. The statement of 41_region_registry.md: REGIONOF by its two cases, and the answer as a number, whose four
bytes lose nothing because every region lies in a surface of at most 255 by 255 pixels. -/

namespace Sys2Proof

/-- The surface of a well-formed configuration is at most 255 pixels wide and high (70_reset_and_hazards.md R176). -/
theorem Config.wellFormed_surface {cfg : Config} (h : cfg.wellFormed = true) : cfg.width ≤ 255 ∧ cfg.height ≤ 255 := by
  obtain ⟨hgeometry, -, -⟩ := Config.wellFormed_iff.mp h
  simp only [Config.geometryOk, Bool.and_eq_true, decide_eq_true_eq] at hgeometry
  obtain ⟨⟨⟨⟨⟨-, hwidth⟩, -⟩, hheight⟩, -⟩, -⟩ := hgeometry
  exact ⟨hwidth, hheight⟩

namespace Machine

/-! ## The packed geometry (R83) -/

/-- The four numbers of a region fit the four bytes of an answer. -/
structure FitsBytes (g : Region) : Prop where
  x_lt : g.x < 256
  y_lt : g.y < 256
  w_lt : g.w < 256
  h_lt : g.h < 256

/-- A registered region lies inside the surface, so its numbers are bytes (R81). -/
theorem fitsBytes_of_registered {cfg : Config} (hwf : cfg.wellFormed = true) {n : Nat} {g : Region}
    (hg : cfg.regions[n]? = some g) : FitsBytes g := by
  obtain ⟨hwidth, hheight⟩ := Config.wellFormed_surface hwf
  obtain ⟨-, -, hin⟩ := Config.wellFormed_region hwf hg
  obtain ⟨hx, hy⟩ := windowInside_iff.mp hin
  constructor <;> omega

/-- Appending a number that fits the new low bits is the positional sum. -/
theorem toNat_append_ofNat {k n : Nat} (v : BitVec k) {b : Nat} (hb : b < 2 ^ n) :
    (v ++ BitVec.ofNat n b).toNat = v.toNat * 2 ^ n + b := by
  rw [BitVec.toNat_append, BitVec.toNat_ofNat, Nat.mod_eq_of_lt hb, ← Nat.shiftLeft_add_eq_or_of_lt hb,
    Nat.shiftLeft_eq]

theorem geometryData_toNat {g : Region} (hg : FitsBytes g) :
    (geometryData g).toNat = g.x * 2 ^ 24 + g.y * 2 ^ 16 + g.w * 2 ^ 8 + g.h := by
  obtain ⟨hx, hy, hw, hh⟩ := hg
  rw [geometryData, toNat_append_ofNat _ hh, toNat_append_ofNat _ hw, toNat_append_ofNat _ hy,
    BitVec.toNat_ofNat, Nat.mod_eq_of_lt hx]
  ring

/-- The response word of success is its data (30_encoding.md R52). -/
theorem responseWord_ok (d : BitVec 32) : responseWord statusOk d = BitVec.ofNat 64 d.toNat := by
  apply BitVec.eq_of_toNat_eq
  calc (responseWord statusOk d).toNat = (0#32 ++ d).toNat := rfl
    _ = d.toNat := by rw [BitVec.toNat_append, BitVec.toNat_ofNat, Nat.zero_mod, Nat.zero_shiftLeft, Nat.zero_or]
    _ = (BitVec.ofNat 64 d.toNat).toNat := by rw [BitVec.toNat_ofNat, Nat.mod_eq_of_lt (by omega)]

theorem State.respond_geometry (s : State) {g : Region} (hg : FitsBytes g) :
    s.respond (geometryData g) =
      { s with responses := s.responses ++ [BitVec.ofNat 64 (g.x * 2 ^ 24 + g.y * 2 ^ 16 + g.w * 2 ^ 8 + g.h)] } := by
  rw [State.respond, responseWord_ok, geometryData_toNat hg]

theorem State.reject_unknownRegion (s : State) :
    s.reject .unknownRegion =
      { s with errFlags := s.errFlags ||| 0b010#3, responses := s.responses ++ [0x0200000000000000#64] } := rfl

/-! ## REGIONOF (R83) -/

section Regionof

variable {s : State} {id : BitVec 8}

theorem exec_regionof_registered (h0 : s.slot = 0) {g : Region} (hg : s.cfg.regions[id.toNat]? = some g) :
    exec (.regionof id) s = .next (s.respond (geometryData g)) := by
  change execRegionof id s = _
  rw [execRegionof, hostCommand_accepts h0, hg]

theorem exec_regionof_unregistered (h0 : s.slot = 0) (hid : s.cfg.nreg ≤ id.toNat) :
    exec (.regionof id) s = .next (s.reject .unknownRegion) := by
  change execRegionof id s = _
  rw [execRegionof, hostCommand_accepts h0, List.getElem?_eq_none hid]

end Regionof

/-- Settles O16: a registered id answers bytes that lose nothing of the region, any other id is rejected. -/
theorem regionofAnswersTheGeometry : Obligations.RegionofAnswersTheGeometry := by
  intro s id h0 hwf
  constructor
  · intro g hg
    rw [exec_regionof_registered h0 hg, State.respond_geometry s (fitsBytes_of_registered hwf hg)]
  · intro hid
    rw [exec_regionof_unregistered h0 hid, State.reject_unknownRegion]

end Machine

end Sys2Proof
end

section
/-! PROOFS. The statements of 42_life_engine.md: the cells of the candidate board, a Life tick by its two outcomes, the
engine without valid bits, and the second history slot as a field that every step hides. -/

namespace Sys2Proof.Machine

/-! ## The candidate board (R92, R93) -/

/-- The eight offsets are the three by three steps of -1, 0 and 1 but the one that stays. -/
theorem countP_neighbourOffsets (p : Int × Int → Bool) :
    neighbourOffsets.countP p =
      ∑ dr ∈ Finset.range 3, ∑ dc ∈ Finset.range 3,
        if dr = 1 ∧ dc = 1 then 0 else (p ((dr : Int) - 1, (dc : Int) - 1)).toNat := by
  have hcell (x : Int × Int) : (if p x = true then 1 else 0) = (p x).toNat := by cases p x <;> rfl
  simp only [neighbourOffsets, List.countP_cons, List.countP_nil, hcell, Finset.sum_range_succ, Finset.sum_range_zero]
  norm_num
  ring

/-- A step of `d - 1` on a ring of `n` places is a step of `d + (n - 1)`. -/
theorem wrapIndex_add_step {n i : Nat} (hi : i < n) (d : Nat) :
    wrapIndex n ((i : Int) + ((d : Int) - 1)) = (i + d + (n - 1)) % n := by
  rw [← wrapIndex_natCast]
  apply wrapIndex_congr
  rw [← Int.add_emod_right]
  congr 1
  omega

/-- The neighbour count as a sum over the rows and columns around the cell, each modulo the region's size (R92). -/
theorem neighbours_eq_sum {h w : Nat} {b : Grid} {r c : Nat} (hr : r < h) (hc : c < w) :
    neighbours h w b r c =
      ∑ dr ∈ Finset.range 3, ∑ dc ∈ Finset.range 3,
        (if dr = 1 ∧ dc = 1 then 0
          else (Grid.cell b ((r + dr + (h - 1)) % h) ((c + dc + (w - 1)) % w)).toNat) := by
  simp only [neighbours, countP_neighbourOffsets, torusCell, wrapIndex_add_step hr, wrapIndex_add_step hc]

theorem nextBoard_cell {h w : Nat} {b : Grid} {r c : Nat} (hr : r < h) (hc : c < w) :
    Grid.cell (nextBoard h w b) r c = nextCell (Grid.cell b r c) (neighbours h w b r c) :=
  Grid.cell_ofFn hr hc

theorem nextCell_live (n : Nat) : nextCell true n = decide (n = 2 ∨ n = 3) := by
  rw [Bool.eq_iff_iff]
  simp [nextCell]
  omega

theorem nextCell_dead (n : Nat) : nextCell false n = decide (n = 3) := by
  simp [nextCell]

/-- Settles O34: the count of the statement is the model's, and the rule is read off `nextCell` for a live and a dead
cell. -/
theorem lifeCandidateFollowsTheRule : Obligations.LifeCandidateFollowsTheRule := by
  intro h w b r c n hr hc hn
  rw [nextBoard_cell hr hc, neighbours_eq_sum hr hc, ← hn]
  refine ⟨fun hlive hout => ?_, fun hdead hthree => ?_, fun hlive hin => ?_, fun hdead hother => ?_⟩
  · rw [hlive, nextCell_live]; exact decide_eq_false (by omega)
  · rw [hdead, nextCell_dead]; exact decide_eq_true hthree
  · rw [hlive, nextCell_live]; exact decide_eq_true hin
  · rw [hdead, nextCell_dead]; exact decide_eq_false hother

/-! ## A Life tick (R95 to R100, R103) -/

/-- A tick leaves a valid first history slot exactly when it commits (R95, R100). -/
theorem lifeTick_hist1Valid_iff {s : State} {g : Region} {a : Animator} :
    (lifeTick s g a).hist1Valid = true ↔ ¬LifeMustReseed s g a := by
  refine ⟨fun hvalid hmust => ?_, fun h => by rw [(lifeTick_commits h).2]; rfl⟩
  rw [lifeTick_reseeds hmust] at hvalid
  cases hvalid

theorem lifeReseed_cell {s : State} {g : Region} {a : Animator} {r c : Nat} (hr : r < g.h) (hc : c < g.w) :
    Grid.cell (lifeReseed s g a).board r c = Grid.cell s.draw.cells r c :=
  Grid.cell_ofFn hr hc

/-- What a tick keeps of the record, whichever way it goes: a running engine and the fields of the other kinds. -/
theorem lifeTick_keeps (s : State) (g : Region) (a : Animator) :
    (lifeTick s g a).lifeState = true ∧ (lifeTick s g a).initDone = a.initDone ∧
      (lifeTick s g a).value = a.value ∧ (lifeTick s g a).nextReset = a.nextReset := by
  by_cases h : LifeMustReseed s g a
  · rw [lifeTick_reseeds h]
    exact ⟨rfl, rfl, rfl, rfl⟩
  · obtain ⟨hrunning, htick⟩ := lifeTick_commits h
    rw [htick]
    exact ⟨hrunning, rfl, rfl, rfl⟩

/-- The region shows the board that was drawn (R91). -/
theorem fbGet_drawBoard {cfg : Config} {m : Memory} {g : Region} {b : Grid} {r c : Nat}
    (hin : cfg.windowInside g.x g.y g.w g.h = true) (hr : r < g.h) (hc : c < g.w) :
    fbGet cfg (drawBoard cfg m g b) (g.x + c) (g.y + r) = Grid.cell b r c :=
  fbGet_paint_in (windowInside_stride hin) hc hr

/-- A due Life slot finishes with the record after the tick and its board on the region. -/
theorem exec_pollLife_due {s : State} {region period : Nat} {g : Region} {a : Animator} (h : SlotReady s region g a)
    (hdue : 0 ≤ signedDiff s.cfg s.now a.nextDue) :
    exec (.pollLife region period) s =
      .next (s.finishBody ⟨drawBoard s.cfg s.mem g (lifeTick s g a).board, lifeTick s g a, period⟩) :=
  (pollAnimator_ready (body := lifeBody s period) h).trans (if_pos (decide_eq_true hdue))

/-- Settles O28: the slot finishes its body, and the record is that of a tick that reseeds or of one that commits. -/
theorem pollLifeCompletes : Obligations.PollLifeCompletes := by
  intro s region period g a hready hdue
  have ⟨_, _, hin, _⟩ := hready
  obtain ⟨hrunning, hinit, hvalue, hreset⟩ := lifeTick_keeps s g a
  refine ⟨_, { lifeTick s g a with nextDue := tickAdd s.cfg s.now period }, exec_pollLife_due hready hdue, rfl,
    drawBoard_sameOutside hin, fun r c hr hc => fbGet_drawBoard hin hr hc, rfl, hrunning, hinit, hvalue, hreset,
    fun hmust => ?_, fun hmust => ?_⟩
  · rw [lifeTick_reseeds hmust]
    exact ⟨fun r c hr hc => lifeReseed_cell (a := a) hr hc, rfl, rfl, rfl⟩
  · rw [(lifeTick_commits hmust).2]
    exact ⟨fun _ _ _ _ => rfl, rfl, rfl, rfl, rfl, rfl⟩

/-- Settles O35: the tick committed, so no trigger fired, and each trigger that did not fire names a cell. -/
theorem committedBoardIsNew : Obligations.CommittedBoardIsNew := by
  intro s g a _ hvalid
  have hmust := lifeTick_hist1Valid_iff.mp hvalid
  rw [(lifeTick_commits hmust).2]
  simp only [LifeMustReseed, not_or, not_and, not_forall, exists_prop, Bool.not_eq_false] at hmust
  obtain ⟨-, hstill, hblink, hextinct, -⟩ := hmust
  exact ⟨hstill, hblink, hextinct⟩

/-! ## The engine without valid bits (R101, R105) -/

/-- One of the four triggers fires (R96 to R99). -/
def lifeTriggered (s : State) (g : Region) (a : Animator) : Bool :=
  triggerStill g a (nextBoard g.h g.w a.board) || triggerBlink g a (nextBoard g.h g.w a.board) ||
    triggerExtinct g (nextBoard g.h g.w a.board) || triggerAge s a

/-- Four tests in a row with one outcome are one test. -/
theorem ite_four {α : Type} (p q r t : Bool) (x y : α) :
    (if p then x else if q then x else if r then x else if t then x else y) = if p || q || r || t then x else y := by
  cases p <;> cases q <;> cases r <;> rfl

/-- A running step is one test of the triggers (R96). -/
theorem lifeStep_eq (s : State) (g : Region) (a : Animator) :
    lifeStep s g a = if lifeTriggered s g a then lifeReseed s g a else lifeCommit a (nextBoard g.h g.w a.board) :=
  ite_four ..

/-- A dead history slot stands in for a valid bit that is 0: what the comparison with it finds, extinction finds as
well. So the triggers may be tested without the bit, and in the opposite order. -/
theorem triggers_without_validBit {s : State} {g : Region} {a : Animator} {hist : Grid}
    (hvalid : a.hist1Valid = true → hist = a.hist1)
    (hdead : a.hist1Valid = false → ∀ r c, r < g.h → c < g.w → Grid.cell hist r c = false) :
    (triggerAge s a || triggerExtinct g (nextBoard g.h g.w a.board) ||
      Grid.same g.h g.w (nextBoard g.h g.w a.board) hist || triggerStill g a (nextBoard g.h g.w a.board)) =
      lifeTriggered s g a := by
  unfold lifeTriggered
  cases hv : a.hist1Valid with
  | true =>
    rw [triggerBlink, hv, hvalid hv, Bool.true_and]
    ac_rfl
  | false =>
    have hsame : Grid.same g.h g.w (nextBoard g.h g.w a.board) hist = triggerExtinct g (nextBoard g.h g.w a.board) := by
      rw [Bool.eq_iff_iff, Grid.same_iff, triggerExtinct, boardEmpty_iff]
      exact forall₄_congr fun r c hr hc => by rw [hdead hv r c hr hc]
    rw [triggerBlink, hv, hsame, Bool.false_and, Bool.or_false, Bool.or_assoc, Bool.or_assoc, Bool.or_self_left]
    ac_rfl

/-- Settles O36: both orders make one test of the four triggers, and the dead slot stands in for the bit. -/
theorem clearedHistoryAsDeadBoard : Obligations.ClearedHistoryAsDeadBoard := by
  intro s g a hdead
  dsimp only
  rw [lifeStep_eq, ite_four, triggers_without_validBit (fun _ => rfl) hdead]

theorem deadBoard_cell {g : Region} {r c : Nat} (hr : r < g.h) (hc : c < g.w) : Grid.cell (deadBoard g) r c = false :=
  Grid.cell_ofFn hr hc

theorem withDeadHistory_hist1_of_valid {g : Region} {a : Animator} (h : a.hist1Valid = true) :
    (a.withDeadHistory g).hist1 = a.hist1 := if_pos h

theorem withDeadHistory_hist1_of_invalid {g : Region} {a : Animator} (h : a.hist1Valid = false) :
    (a.withDeadHistory g).hist1 = deadBoard g := if_neg (by simp [h])

/-- The other engine's step on the record without valid bits is the engine's own, blanked in the same way. -/
theorem lifeStepNoValid_withDeadHistory (s : State) (g : Region) (a : Animator) :
    lifeStepNoValid s g (a.withDeadHistory g) =
      if lifeTriggered s g a then (lifeReseed s g a).withDeadHistory g
      else (lifeCommit a (nextBoard g.h g.w a.board)).withDeadHistory g := by
  have htriggers := triggers_without_validBit (s := s) (g := g) (a := a) withDeadHistory_hist1_of_valid
    fun hinvalid r c hr hc => by rw [withDeadHistory_hist1_of_invalid hinvalid, deadBoard_cell hr hc]
  rw [← htriggers]
  exact ite_four ..

/-- Blanking the invalid slots of the record makes one engine's tick the other's. -/
theorem lifeTick_withDeadHistory (s : State) (g : Region) (a : Animator) :
    lifeTickNoValid s g (a.withDeadHistory g) = (lifeTick s g a).withDeadHistory g := by
  have hstate : (a.withDeadHistory g).lifeState = a.lifeState := rfl
  unfold lifeTickNoValid lifeTick
  rw [hstate, lifeStepNoValid_withDeadHistory, lifeStep_eq]
  cases a.lifeState with
  | false => rfl
  | true => exact (apply_ite (Animator.withDeadHistory · g) _ _ _).symm

/-- Settles O59: a fold over the ticks keeps what each tick keeps. -/
theorem lifeWithoutValidBits : Obligations.LifeWithoutValidBits := fun g _ _ =>
  (List.foldl_hom (Animator.withDeadHistory · g) fun a s => lifeTick_withDeadHistory s g a).symm

/-! ## The second history slot (R100; 10_state.md R32) -/

/-- The record with its second history slot blanked, as `State.forgetH2` blanks every record. -/
def Animator.forgetH2 (a : Animator) : Animator := { a with hist2 := [], hist2Valid := false }

@[simp] theorem Animator.forgetH2_nextDue (a : Animator) : a.forgetH2.nextDue = a.nextDue := rfl
@[simp] theorem Animator.forgetH2_board (a : Animator) : a.forgetH2.board = a.board := rfl
@[simp] theorem Animator.forgetH2_comp_forgetH2 : Animator.forgetH2 ∘ Animator.forgetH2 = Animator.forgetH2 := rfl

/-- The result of a body with the second history slot of its record blanked. -/
def BodyResult.forgetH2 (b : BodyResult) : BodyResult := { b with anim := b.anim.forgetH2 }

@[simp] theorem State.forgetH2_mem (s : State) : s.forgetH2.mem = s.mem := rfl
@[simp] theorem State.forgetH2_draw (s : State) : s.forgetH2.draw = s.draw := rfl
@[simp] theorem State.forgetH2_run (s : State) : s.forgetH2.run = s.run := rfl
@[simp] theorem State.forgetH2_slot (s : State) : s.forgetH2.slot = s.slot := rfl
@[simp] theorem State.forgetH2_mode (s : State) : s.forgetH2.mode = s.mode := rfl
@[simp] theorem State.forgetH2_cfg (s : State) : s.forgetH2.cfg = s.cfg := rfl
@[simp] theorem State.forgetH2_now (s : State) : s.forgetH2.now = s.now := rfl
@[simp] theorem State.forgetH2_agent (s : State) : s.forgetH2.agent = s.agent := rfl
@[simp] theorem State.forgetH2_animators (s : State) :
    s.forgetH2.animators = s.animators.map Animator.forgetH2 := rfl

theorem State.forgetH2_eq (s : State) : s.forgetH2 = { s with animators := s.animators.map Animator.forgetH2 } := rfl

@[simp] theorem State.forgetH2_forgetH2 (s : State) : s.forgetH2.forgetH2 = s.forgetH2 := by
  simp [State.forgetH2]

@[simp] theorem State.forgetH2_animator? (s : State) : s.forgetH2.animator? = s.animator?.map Animator.forgetH2 := by
  by_cases h0 : s.slot = 0 <;> simp [State.animator?, State.animatorIndex, h0]

@[simp] theorem outcomeForgetH2_next (s : State) : outcomeForgetH2 (.next s) = .next s.forgetH2 := rfl

/-! ### The updates that pass over the slot -/

theorem State.forgetH2_sampleInputs (s : State) : s.forgetH2.sampleInputs = s.sampleInputs.forgetH2 := by
  cases h : s.seqInputs with
  | nil => rw [State.sampleInputs_nil h, State.sampleInputs_nil (s := s.forgetH2) h]; rfl
  | cons inp rest => rw [State.sampleInputs_cons h, State.sampleInputs_cons (s := s.forgetH2) h]; rfl

theorem State.advanceSlot_forgetH2 (s : State) : s.forgetH2.advanceSlot = s.advanceSlot.forgetH2 := rfl

theorem modeCheck_forgetH2 (s : State) : modeCheck s.forgetH2 = (modeCheck s).forgetH2 := by
  cases h : s.mode <;> simp only [modeCheck, State.forgetH2_mode, h] <;> rfl

/-- A choice between two updates passes over the slot where each of them does. -/
theorem forgetH2_ite {p : Prop} [Decidable p] {t u t' u' : State} (ht : t' = t.forgetH2) (hu : u' = u.forgetH2) :
    (if p then t' else u') = (if p then t else u).forgetH2 := by
  rw [ht, hu, apply_ite State.forgetH2]

/-- Two bodies that differ in the slot alone finish in states that differ there alone. -/
theorem State.finishBody_forgetH2 (s : State) {b b' : BodyResult} (h : b.forgetH2 = b'.forgetH2) :
    (s.forgetH2.finishBody b).forgetH2 = (s.finishBody b').forgetH2 := by
  obtain ⟨m, a, d⟩ := b
  obtain ⟨m', a', d'⟩ := b'
  obtain ⟨rfl, ha, rfl⟩ : m = m' ∧ a.forgetH2 = a'.forgetH2 ∧ d = d' := by simpa [BodyResult.forgetH2] using h
  have hdue (t : Tick) :
      Animator.forgetH2 { a with nextDue := t } = Animator.forgetH2 { a' with nextDue := t } :=
    congrArg (fun r : Animator => { r with nextDue := t }) ha
  simp [State.finishBody, State.forgetH2_eq, State.animatorIndex, List.map_set, hdue]

/-! ### Actions that hide the slot -/

/-- The outcome of the action, but for the second history slots, does not depend on them. -/
def HidesH2 (f : State → Host.Outcome State Fault Refusal) : Prop :=
  ∀ s, outcomeForgetH2 (f s.forgetH2) = outcomeForgetH2 (f s)

theorem HidesH2.next {f : State → State} (h : ∀ s, f s.forgetH2 = (f s).forgetH2) : HidesH2 fun s => .next (f s) :=
  fun s => by simp [h]

theorem HidesH2.ite {c : State → Bool} {f g : State → Host.Outcome State Fault Refusal}
    (hc : ∀ s, c s.forgetH2 = c s) (hf : HidesH2 f) (hg : HidesH2 g) : HidesH2 fun s => if c s then f s else g s := by
  intro s
  cases h : c s
  · simpa [hc, h] using hg s
  · simpa [hc, h] using hf s

theorem HidesH2.hostCommand {f : State → State} (h : ∀ s, f s.forgetH2 = (f s).forgetH2) :
    HidesH2 fun s => hostCommand s f := by
  intro s
  change outcomeForgetH2 (Machine.hostCommand s.forgetH2 f) = outcomeForgetH2 (Machine.hostCommand s f)
  by_cases h0 : s.slot = 0
  · simp [hostCommand_accepts, h0, h]
  · rw [hostCommand_waits h0, hostCommand_waits (s := s.forgetH2) h0]; simp

theorem HidesH2.sequencerSlot {f : State → Host.Outcome State Fault Refusal} (h : HidesH2 f) :
    HidesH2 fun s => sequencerSlot s f := by
  intro s
  cases hr : s.run with
  | false => simp [sequencerSlot_holds, hr]
  | true => simp [sequencerSlot_runs, hr, h s]

/-- An animator slot hides the second history slots where its body makes the same picture, interval and record of two
records that differ there alone. -/
theorem HidesH2.pollAnimator {region : Nat} {body : State → Region → Animator → Except Refusal BodyResult}
    (h : ∀ s g a, (body s.forgetH2 g a.forgetH2).map BodyResult.forgetH2 = (body s g a).map BodyResult.forgetH2) :
    HidesH2 fun s => pollAnimator s region (body s) := by
  refine HidesH2.sequencerSlot fun s => ?_
  simp only [State.forgetH2_cfg, State.forgetH2_now, State.forgetH2_animator?]
  cases hg : s.cfg.regions[region]? with
  | none => rfl
  | some g =>
    by_cases hin : s.cfg.windowInside g.x g.y g.w g.h = true
    case neg => simp [hin, outcomeForgetH2]
    cases ha : s.animator? with
    | none => simp [hin, outcomeForgetH2]
    | some a =>
      by_cases hdue : due s.cfg s.now a.nextDue = true
      case neg => simp [hin, hdue, State.advanceSlot_forgetH2]
      specialize h s g a
      cases hb : body s.forgetH2 g a.forgetH2 <;> cases hb' : body s g a <;> rw [hb, hb'] at h
      case ok.ok b b' => simp [hin, hdue, hb, hb', s.finishBody_forgetH2 (Except.ok.inj h)]
      case error.error r r' => simp [hin, hdue, hb, hb', Except.error.inj h, outcomeForgetH2]
      all_goals cases h

/-! ### Every instruction and every step hides the slot -/

/-- The bodies of the kinds that are not LIFE do not look at the slot, so each takes the same branch either way. -/
theorem patternBody_forgetH2 (seed : List Nat) (shift : Int) (period : Nat) (s : State) (g : Region) (a : Animator) :
    (patternBody s.forgetH2 seed shift period g a.forgetH2).map BodyResult.forgetH2 =
      (patternBody s seed shift period g a).map BodyResult.forgetH2 := by
  have hinit : a.forgetH2.initDone = a.initDone := rfl
  unfold patternBody
  rw [hinit]
  split <;> rfl

theorem decayBody_forgetH2 (period : Nat) (s : State) (g : Region) (a : Animator) :
    (decayBody s.forgetH2 period g a.forgetH2).map BodyResult.forgetH2 =
      (decayBody s period g a).map BodyResult.forgetH2 := by
  have hreseeds : decayReseeds s.forgetH2 a.forgetH2 = decayReseeds s a := rfl
  unfold decayBody
  rw [hreseeds, State.forgetH2_draw, State.forgetH2_cfg]
  split
  · split <;> rfl
  · rfl

theorem noiseBody_forgetH2 (s : State) (g : Region) (a : Animator) :
    (noiseBody s.forgetH2 g a.forgetH2).map BodyResult.forgetH2 = (noiseBody s g a).map BodyResult.forgetH2 := by
  unfold noiseBody
  rw [State.forgetH2_draw, State.forgetH2_cfg, State.forgetH2_mode]
  split <;> rfl

/-- The triggers do not read the slot, a reseed keeps its contents and a commit overwrites it (R95, R96, R100). -/
theorem lifeTick_forgetH2 (s : State) (g : Region) (a : Animator) :
    (lifeTick s.forgetH2 g a.forgetH2).forgetH2 = (lifeTick s g a).forgetH2 := by
  by_cases h : LifeMustReseed s g a
  · rw [lifeTick_reseeds h, lifeTick_reseeds (s := s.forgetH2) (a := a.forgetH2) h]; rfl
  · rw [(lifeTick_commits h).2, (lifeTick_commits (s := s.forgetH2) (a := a.forgetH2) h).2]; rfl

theorem lifeBody_forgetH2 (period : Nat) (s : State) (g : Region) (a : Animator) :
    (lifeBody s.forgetH2 period g a.forgetH2).map BodyResult.forgetH2 =
      (lifeBody s period g a).map BodyResult.forgetH2 := by
  have htick := lifeTick_forgetH2 s g a
  have hboard : (lifeTick s.forgetH2 g a.forgetH2).board = (lifeTick s g a).board := by
    simpa using congrArg Animator.board htick
  simp [lifeBody, Except.map, BodyResult.forgetH2, htick, hboard]

/-- No instruction lets the slot reach anything else. -/
theorem exec_hidesH2 (i : Instr) : HidesH2 (exec i) := by
  cases i with
  | nop => exact .hostCommand fun _ => rfl
  | setpixel x y bit => exact .hostCommand fun _ => forgetH2_ite rfl rfl
  | getpixel x y => exact .hostCommand fun _ => forgetH2_ite rfl rfl
  | shiftregion x y w h shift wrap => exact .hostCommand fun _ => forgetH2_ite rfl rfl
  | regionof id =>
    refine .hostCommand fun s => ?_
    rw [State.forgetH2_cfg]
    split <;> rfl
  | run => exact .hostCommand fun _ => rfl
  | halt => exact .hostCommand fun _ => rfl
  | rdstatus => exact .hostCommand fun _ => rfl
  | pollMode =>
    exact .sequencerSlot (.next fun s => forgetH2_ite (congrArg State.advanceSlot (modeCheck_forgetH2 s)) rfl)
  | pollPattern region seed shift period => exact .pollAnimator (patternBody_forgetH2 seed shift period)
  | pollClock region period => exact .pollAnimator (body := fun s => clockBody s period) fun _ _ _ => rfl
  | pollDecay region period => exact .pollAnimator (decayBody_forgetH2 period)
  | pollLife region period => exact .pollAnimator (body := fun s => lifeBody s period) (lifeBody_forgetH2 period)
  | pollNoise region => exact .pollAnimator noiseBody_forgetH2
  | present => exact .sequencerSlot (.ite (c := State.changed) (fun _ => rfl) (.next fun _ => rfl) (.next fun _ => rfl))

theorem hostStep_hidesH2 (c : CommandWord) : HidesH2 (hostStep c) := by
  unfold hostStep
  cases decodeCommand c with
  | ok i => exact exec_hidesH2 i
  | error e => exact .next fun _ => rfl

theorem sequencerStep_hidesH2 : HidesH2 sequencerStep := by
  intro s
  unfold sequencerStep
  rw [State.forgetH2_cfg, State.forgetH2_slot]
  cases s.cfg.seq[s.slot]? with
  | none => rfl
  | some d =>
    cases hi : decodeSlot d with
    | ok i => simp only [hi]; exact exec_hidesH2 i s
    | error e => simp only [hi]

theorem step_hidesH2 : HidesH2 step := by
  intro s
  unfold step
  rw [State.forgetH2_agent]
  cases s.agent with
  | reset t0 => rfl
  | idle => exact HidesH2.next (f := State.passTurn) (fun _ => rfl) s
  | host c => exact hostStep_hidesH2 c s.passTurn.acceptCommand
  | sequencer =>
    have hsample : s.forgetH2.passTurn.sampleInputs = s.passTurn.sampleInputs.forgetH2 :=
      s.passTurn.forgetH2_sampleInputs
    simp only [hsample]
    exact sequencerStep_hidesH2 s.passTurn.sampleInputs

/-- Settles O37: each of the two states steps as the state that both become when the slots are blanked. -/
theorem secondHistorySlotIsHidden : Obligations.SecondHistorySlotIsHidden := by
  intro s t h
  rw [← step_hidesH2 s, h, step_hidesH2 t]

end Sys2Proof.Machine
end

section
/-! PROOFS. The statements of 43_section_animators.md: a due slot finishes what its body gives, the body of each kind as
one result, what it draws on each pixel of its region, and the new deadline. -/

namespace Sys2Proof.Machine

/-! ## The discipline of a slot (R111) -/

section Discipline

variable {i : Instr} {s t : State} {region : Nat} {g : Region} {a : Animator}
  {body : Region → Animator → Except Refusal BodyResult}

theorem due_iff {cfg : Config} {now deadline : Tick} :
    due cfg now deadline = true ↔ 0 ≤ signedDiff cfg now deadline := decide_eq_true_iff

theorem pollAnimator_finishes {b : BodyResult} (hready : SlotReady s region g a)
    (hdue : 0 ≤ signedDiff s.cfg s.now a.nextDue) (hbody : body g a = .ok b) :
    pollAnimator s region body = .next (s.finishBody b) := by
  rw [pollAnimator_ready hready, if_pos (due_iff.mpr hdue), hbody]

/-- A due slot that answers has run its body to the end. -/
theorem body_ok_of_pollAnimator_due (hready : SlotReady s region g a)
    (hdue : 0 ≤ signedDiff s.cfg s.now a.nextDue) (h : pollAnimator s region body = .next t) :
    ∃ b, body g a = .ok b ∧ t = s.finishBody b := by
  rw [pollAnimator_ready hready, if_pos (due_iff.mpr hdue)] at h
  cases hbody : body g a with
  | ok b => rw [hbody] at h; exact ⟨b, rfl, (Host.Outcome.next.inj h).symm⟩
  | error r => rw [hbody] at h; cases h

/-- The record that a finished body leaves in its slot. -/
theorem SlotReady.finishBody_animator (hready : SlotReady s region g a) (b : BodyResult) :
    (s.finishBody b).animators[s.slot - 1]? = some { b.anim with nextDue := tickAdd s.cfg s.now b.interval } := by
  obtain ⟨-, -, -, -, ha⟩ := hready
  exact List.getElem?_set_self (List.getElem?_eq_some_iff.mp ha).1

end Discipline

/-- Settles O24: every animator is the shared discipline, which only moves `SLOT` where the deadline is not due. -/
theorem animatorNotDueOnlyMovesSlot : Obligations.AnimatorNotDueOnlyMovesSlot := by
  intro i s region g a hi hready hnot
  obtain ⟨body, hexec, -⟩ := exec_animator hi s
  rw [hexec, pollAnimator_ready hready, if_neg (by rw [due_iff]; omega)]
  rfl

/-- Settles O32: the interval of the body that ran is legal under the configuration, so it is positive and below the
half range. -/
theorem newDeadlineLiesInTheFuture : Obligations.NewDeadlineLiesInTheFuture := by
  intro i s t region g a hwf hi hanim hready hdue hexec
  obtain ⟨body, hpoll, hlaw⟩ := exec_animator hanim s
  obtain ⟨b, hbody, rfl⟩ := body_ok_of_pollAnimator_due hready hdue (hpoll ▸ hexec)
  have hnumbers := Config.wellFormed_numbers hwf
  have hbits := hnumbers.tickBits
  obtain ⟨hpos, hhalf⟩ :=
    legalInterval_iff.mp (hlaw.interval g a b hbody hi (Config.numbersOk_iff.mpr hnumbers))
  change b.interval < s.cfg.half at hhalf
  refine ⟨_, b.interval, hready.finishBody_animator b, hpos, fun e he => ?before, fun e he hlt => ?after⟩
  case before => exact not_due_tickAdd s.now (by omega) he (by omega)
  case after => exact due_tickAdd s.now (by omega) he hlt

/-- Settles O49: a slot that answers leaves the framebuffer alone or as its body drew it, and a body draws its own
region only. -/
theorem animatorStaysInItsRegion : Obligations.AnimatorStaysInItsRegion := by
  intro i s t region g hi hg hexec
  obtain ⟨body, hpoll, hlaw⟩ := exec_animator hi s
  obtain ⟨-, rfl⟩ | ⟨g', a, ⟨-, hg', hin, -⟩, ⟨-, rfl⟩ | ⟨b, -, hbody, rfl⟩⟩ := pollAnimator_cases (hpoll ▸ hexec)
  case inl => exact SameOutside.refl ..
  case inr.inl => exact SameOutside.refl ..
  case inr.inr =>
    obtain rfl : g = g' := Option.some.inj (hg.symm.trans hg')
    exact (hlaw.draws g a b hbody).sameOutside hin

/-! ## The pixels a body draws (R113, R116, R117, R122) -/

section Drawings

variable {cfg : Config} {m : Memory} {g : Region} {r j : Nat}

theorem fbGet_drawSeed {seed : List Nat} (hin : cfg.windowInside g.x g.y g.w g.h = true) (hr : r < g.h)
    (hj : j < g.w) :
    fbGet cfg (drawSeed cfg m g seed) (g.x + j) (g.y + r) = (seed.getD r 0).testBit (g.w - 1 - j) :=
  fbGet_paint_in (windowInside_stride hin) hj hr

theorem fbGet_render {v nbits : Nat} (hin : cfg.windowInside g.x g.y g.w g.h = true) (hr : r < g.h) (hj : j < g.w) :
    fbGet cfg (render cfg m g v nbits) (g.x + j) (g.y + r) =
      (decide (r * g.w + j < nbits) && v.testBit (r * g.w + j)) := by
  rw [render, fbGet_paint_in (windowInside_stride hin) hj hr, Option.getD_some, renderPixel]
  by_cases hk : r * g.w + j < nbits <;> simp [hk]

theorem fbGet_applyNoise {coin val : Grid} (hin : cfg.windowInside g.x g.y g.w g.h = true) (hr : r < g.h)
    (hj : j < g.w) :
    fbGet cfg (applyNoise cfg m g coin val) (g.x + j) (g.y + r) =
      if Grid.cell coin r j then Grid.cell val r j else fbGet cfg m (g.x + j) (g.y + r) := by
  rw [applyNoise, fbGet_paint_in (windowInside_stride hin) hj hr, apply_ite (Option.getD · _)]
  rfl

end Drawings

/-! ## POLL.PATTERN (R113, R114) -/

theorem Animator.setInitDone_eq_self {a : Animator} (h : a.initDone = true) : { a with initDone := true } = a := by
  rw [← h]

/-- Either tick of a pattern leaves it drawn; the flag chooses the picture alone. -/
theorem patternBody_eq (s : State) (seed : List Nat) (shift : Int) (period : Nat) (g : Region) (a : Animator) :
    patternBody s seed shift period g a =
      .ok ⟨if a.initDone then fbShift s.cfg s.mem g.x g.y g.w g.h shift true else drawSeed s.cfg s.mem g seed,
        { a with initDone := true }, period⟩ := by
  unfold patternBody
  cases hinit : a.initDone with
  | false => rfl
  | true => rw [Animator.setInitDone_eq_self hinit]; rfl

/-- Settles O25: the picture is the seed or the rotation, as the flag says, and both stay in the region. -/
theorem pollPatternCompletes : Obligations.PollPatternCompletes := by
  intro s region seed shift period g a hready hdue
  have ⟨_, _, hin, _⟩ := hready
  refine ⟨_, pollAnimator_finishes hready hdue (patternBody_eq s seed shift period g a), rfl, ?_⟩
  rw [State.finishBody_mem]
  cases a.initDone with
  | false =>
    exact ⟨drawSeed_sameOutside hin, fun r j hr hj => ⟨fun _ => fbGet_drawSeed hin hr hj, (nomatch ·)⟩⟩
  | true =>
    exact ⟨fbShift_sameOutside hin, fun r j hr hj => ⟨(nomatch ·), fun _ => fbGet_rotated_to hin hj hr⟩⟩

/-- Repeated rotations of a window add up, pixel by pixel, whatever the framebuffer. -/
theorem fbGet_rotated_iterate {cfg : Config} {x y w h r : Nat} (m : Memory) (shift : Int) (n : Nat)
    (hin : cfg.windowInside x y w h = true) (hr : r < h) {i : Nat} (hi : i < w) :
    fbGet cfg ((fun m => fbShift cfg m x y w h shift true)^[n] m) (x + i) (y + r) =
      fbGet cfg m (x + wrapIndex w ((i : Int) - n * shift)) (y + r) := by
  induction n generalizing i with
  | zero => rw [Function.iterate_zero_apply, Nat.cast_zero, zero_mul, sub_zero, wrapIndex_self hi]
  | succ n ih =>
    have hw : 0 < w := by omega
    rw [Function.iterate_succ_apply', fbGet_rotated hin hi hr, ih (wrapIndex_lt hw _), wrapIndex_wrapIndex_sub hw,
      sub_sub, Nat.cast_succ, add_one_mul, add_comm shift]

/-- Settles O38: the column reached by the `n` rotations still lies in the seed's row. -/
theorem patternShowsTheRotatedSeed : Obligations.PatternShowsTheRotatedSeed := by
  intro cfg m g seed shift n r j hin hr hj
  rw [fbGet_rotated_iterate _ shift n hin hr hj, fbGet_drawSeed hin hr (wrapIndex_lt (by omega) _)]
  rfl

/-! ## POLL.CLOCK (R116 to R118) -/

/-- Settles O26: the picture is the rendered tick. -/
theorem pollClockCompletes : Obligations.PollClockCompletes := by
  intro s region period g a hready hdue
  have ⟨_, _, hin, _⟩ := hready
  exact ⟨_, pollAnimator_finishes (body := clockBody s period) hready hdue rfl, rfl, render_sameOutside hin,
    fun r j hr hj => fbGet_render hin hr hj⟩

/-! ## POLL.DECAY (R119, R120) -/

section Decay

variable {s : State} {period : Nat} {g : Region} {a : Animator}

theorem decayReseeds_iff : decayReseeds s a = true ↔ a.initDone = false ∨ 0 ≤ signedDiff s.cfg s.now a.nextReset := by
  rw [decayReseeds, Bool.or_eq_true, Bool.not_eq_true', due_iff]

theorem decayBody_reseeds (hreseed : a.initDone = false ∨ 0 ≤ signedDiff s.cfg s.now a.nextReset)
    (hmin : 20 * s.cfg.tps ≤ s.draw.resetDelay) (hmax : s.draw.resetDelay ≤ 60 * s.cfg.tps) :
    decayBody s period g a =
      .ok ⟨render s.cfg s.mem g s.draw.u32.toNat 32,
        { a with value := s.draw.u32, nextReset := tickAdd s.cfg s.now s.draw.resetDelay, initDone := true },
        period⟩ := by
  rw [decayBody, if_pos (decayReseeds_iff.mpr hreseed), if_pos (resetDelayLegal_iff.mpr ⟨hmin, hmax⟩)]

theorem decayBody_decrements (hinit : a.initDone = true) (hnot : signedDiff s.cfg s.now a.nextReset < 0) :
    decayBody s period g a =
      .ok ⟨render s.cfg s.mem g (a.value - 1#32).toNat 32, { a with value := a.value - 1#32, initDone := true },
        period⟩ := by
  have hkeep : ¬decayReseeds s a = true := by simp [decayReseeds_iff, hinit, hnot]
  rw [decayBody, if_neg hkeep, ← hinit]

/-- The decrement modulo `2^32` in the statement's form. -/
theorem eq_sub_one_of_toNat {v u : BitVec 32} (h : v.toNat = (u.toNat + 2 ^ 32 - 1) % 2 ^ 32) : v = u - 1#32 := by
  bv_omega

end Decay

/-- Settles O27: a reseed and a decrement both render the value they leave in the record. -/
theorem pollDecayCompletes : Obligations.PollDecayCompletes := by
  intro s region period g a v deadline hready hdue hcase
  have ⟨_, _, hin, _⟩ := hready
  have hbody : decayBody s period g a =
      .ok ⟨render s.cfg s.mem g v.toNat 32, { a with value := v, nextReset := deadline, initDone := true },
        period⟩ := by
    obtain ⟨hreseed, hmin, hmax, rfl, rfl⟩ | ⟨⟨hinit, hnot⟩, hv, rfl⟩ := hcase
    · exact decayBody_reseeds hreseed hmin hmax
    · rw [decayBody_decrements hinit hnot, eq_sub_one_of_toNat hv]
  exact ⟨_, pollAnimator_finishes hready hdue hbody, rfl, render_sameOutside hin,
    fun r j hr hj => fbGet_render hin hr hj⟩

/-! ## POLL.NOISE (R122 to R124) -/

theorem noiseBody_of_delay {s : State} {interval : Nat} (g : Region) (a : Animator)
    (h : (delaySet s.cfg s.mode)[s.draw.idx]? = some interval) :
    noiseBody s g a = .ok ⟨applyNoise s.cfg s.mem g s.draw.coin s.draw.val, a, interval⟩ := by
  rw [noiseBody, h]

/-- Settles O29: the mode names the delay set, and the picture is the noise over the old one. -/
theorem pollNoiseCompletes : Obligations.PollNoiseCompletes := by
  intro s region interval g a hready hdue hrelaxed hfrantic
  have ⟨_, _, hin, _⟩ := hready
  have hdelay : (delaySet s.cfg s.mode)[s.draw.idx]? = some interval := by
    cases hmode : s.mode with
    | relaxed => exact hrelaxed hmode
    | frantic => exact hfrantic hmode
  exact ⟨_, pollAnimator_finishes hready hdue (noiseBody_of_delay g a hdelay), rfl, applyNoise_sameOutside hin,
    fun r c hr hc => fbGet_applyNoise hin hr hc⟩

end Sys2Proof.Machine
end

section
/-! PROOFS. The statements of 44_mode_controller.md: a poll by whether it is due, the check by the mode it finds, and a
deadline of `FAST_RUN_TIME` that no poll before it finds due. -/

namespace Sys2Proof.Machine

/-! ## POLL.MODE (R131, R132) -/

section Check

variable {s : State}

theorem exec_pollMode_not_due (hrun : s.run = true) (hnot : due s.cfg s.now s.modeDue = false) :
    exec .pollMode s = .next s.advanceSlot := by
  change execPollMode s = _
  rw [execPollMode, sequencerSlot_runs hrun, if_neg (by simp [hnot])]

theorem exec_pollMode_due (hrun : s.run = true) (hdue : due s.cfg s.now s.modeDue = true) :
    exec .pollMode s = .next (modeCheck s).advanceSlot := by
  change execPollMode s = _
  rw [execPollMode, sequencerSlot_runs hrun, if_pos hdue]

theorem modeCheck_of_frantic (h : s.mode = .frantic) :
    modeCheck s = { s with mode := .relaxed, modeDue := tickAdd s.cfg s.now s.cfg.relaxRunTime } := by
  rw [modeCheck, h]

theorem modeCheck_of_relaxed (h : s.mode = .relaxed) :
    modeCheck s =
      { s with
        mode := if s.draw.u < s.cfg.fastChanceN then .frantic else .relaxed
        modeDue := tickAdd s.cfg s.now s.cfg.fastRunTime } := by
  rw [modeCheck, h]

end Check

/-- Settles O23: a poll that is not due moves `SLOT` alone, and a due one is the check of the mode it finds, whose coin
has two sides. -/
theorem pollModeCompletes : Obligations.PollModeCompletes := by
  intro s hrun
  refine ⟨fun hnot => ?notDue, fun hdue hmode => ?frantic, fun hdue hmode hcoin => ?turnsFrantic,
    fun hdue hmode hcoin => ?staysRelaxed⟩
  case notDue => exact exec_pollMode_not_due hrun (decide_eq_false hnot.not_ge)
  case frantic =>
    rw [exec_pollMode_due hrun (due_iff.mpr hdue), modeCheck_of_frantic hmode]
    rfl
  case turnsFrantic =>
    rw [exec_pollMode_due hrun (due_iff.mpr hdue), modeCheck_of_relaxed hmode, if_pos hcoin]
    rfl
  case staysRelaxed =>
    rw [exec_pollMode_due hrun (due_iff.mpr hdue), modeCheck_of_relaxed hmode, if_neg hcoin.not_gt]
    rfl

/-! ## The dwell of the relaxed mode (R133, R136) -/

/-- `FAST_RUN_TIME` is a legal interval, so a poll before it has elapsed looks ahead to the deadline. -/
theorem not_due_before_fastRunTime {cfg : Config} (hwf : cfg.wellFormed = true) (t : Tick) {e : Nat}
    (he : e < cfg.fastRunTime) : due cfg (tickAdd cfg t e) (tickAdd cfg t cfg.fastRunTime) = false := by
  have hnumbers := Config.wellFormed_numbers hwf
  have hbits := hnumbers.tickBits
  obtain ⟨-, hhalf⟩ := legalInterval_iff.mp hnumbers.fast
  change cfg.fastRunTime < cfg.half at hhalf
  exact not_due_tickAdd t (by omega) he (by omega)

/-- Settles O33: the check sets the deadline `FAST_RUN_TIME` after its own tick, whichever side the coin shows. -/
theorem oneCoinPerDwell : Obligations.OneCoinPerDwell := by
  intro s t u e hwf hrun hmode hdue hexec he hurun hucfg _ hudue hunow
  rw [exec_pollMode_due hrun (due_iff.mpr hdue), modeCheck_of_relaxed hmode] at hexec
  obtain rfl := Host.Outcome.next.inj hexec
  refine exec_pollMode_not_due hurun ?_
  rw [hucfg, hudue, hunow]
  exact not_due_before_fastRunTime hwf s.now he

/-- The first deadline lies `FAST_RUN_TIME` after the tick at reset, reduced to the span or not (10_state.md R34). -/
theorem State.resetAt_modeDue (cfg : Config) (t0 : Tick) :
    (State.resetAt cfg t0).modeDue = tickAdd cfg t0 cfg.fastRunTime :=
  Nat.mod_add_mod t0 cfg.tickSpan cfg.fastRunTime

/-- The first poll that finds the deadline of reset due checks the relaxed mode, so the coin alone decides the mode. -/
theorem exec_pollMode_first_check {cfg : Config} (hwf : cfg.wellFormed = true) (t0 : Tick) (d : Draw) :
    ∃ t, exec .pollMode { State.resetAt cfg t0 with draw := d, now := tickAdd cfg t0 cfg.fastRunTime } = .next t ∧
      t.mode = if d.u < cfg.fastChanceN then .frantic else .relaxed := by
  have hbits := (Config.wellFormed_numbers hwf).tickBits
  have hhalf : 0 < cfg.half := Nat.two_pow_pos _
  have hdue := due_tickAdd (cfg := cfg) t0 (by omega) (le_refl cfg.fastRunTime) (by omega)
  exact ⟨_, exec_pollMode_due rfl ((State.resetAt_modeDue cfg t0).symm ▸ hdue), rfl⟩

/-- Settles O58: before `FAST_RUN_TIME` the deadline of reset is not due; at it the draw 0 lies below every positive
chance, and the largest draw below no chance under 1. -/
theorem modeFromReset : Obligations.ModeFromReset := by
  rintro cfg t0 d s hwf rfl
  obtain ⟨hpos, -⟩ := legalInterval_iff.mp (Config.wellFormed_numbers hwf).fast
  obtain ⟨t, hcheck, hcoin⟩ := exec_pollMode_first_check hwf t0 d
  refine ⟨?before, fun hzero hchance => ⟨t, hcheck, ?frantic⟩, fun hmax hchance => ⟨t, hcheck, ?relaxed⟩⟩
  case before =>
    have hnot := not_due_before_fastRunTime hwf t0 (Nat.sub_one_lt_of_lt hpos)
    exact exec_pollMode_not_due rfl ((State.resetAt_modeDue cfg t0).symm ▸ hnot)
  case frantic => rw [hcoin, if_pos (by omega)]
  case relaxed => rw [hcoin, if_neg (by omega)]

end Sys2Proof.Machine
end

section
/-! PROOFS. The statements of 45_scheduler_and_control.md: the control commands, who acts in a step, what a step of the
sequencer leaves to the host, and the cycle as a first, many middle and a last step. -/

namespace Sys2Proof.Machine

/-! ## NOP, RUN, HALT and RDSTATUS (R148 to R151) -/

section Commands

variable {s : State}

theorem exec_nop (h0 : s.slot = 0) : exec .nop s = .next (s.respond 0#32) := by
  change execNop s = _
  rw [execNop, hostCommand_accepts h0]

theorem exec_run (h0 : s.slot = 0) : exec .run s = .next (State.respond { s with run := true } 0#32) := by
  change execRun s = _
  rw [execRun, hostCommand_accepts h0]

theorem exec_halt (h0 : s.slot = 0) : exec .halt s = .next (State.respond { s with run := false } 0#32) := by
  change execHalt s = _
  rw [execHalt, hostCommand_accepts h0]

theorem exec_rdstatus (h0 : s.slot = 0) :
    exec .rdstatus s = .next (s.respond (statusData s.run s.mode s.errFlags)) := by
  change execRdstatus s = _
  rw [execRdstatus, hostCommand_accepts h0]

end Commands

/-- Settles O17: between cycles each of the three is accepted, and answers success with no data. -/
theorem nopRunHaltComplete : Obligations.NopRunHaltComplete :=
  fun _ h0 => ⟨exec_nop h0, exec_run h0, exec_halt h0⟩

/-- A bit of a response of success is the bit of its data (30_encoding.md R52). -/
theorem responseWord_ok_getLsbD (d : BitVec 32) (k : Nat) : (responseWord statusOk d).getLsbD k = d.getLsbD k := by
  rw [responseWord_ok, BitVec.getLsbD_ofNat, BitVec.testBit_toNat]
  by_cases hk : k < 64
  · rw [decide_eq_true hk, Bool.true_and]
  · rw [decide_eq_false hk, Bool.false_and, BitVec.getLsbD_of_ge d k (by omega)]

theorem runBit_getLsbD (run : Bool) (k : Nat) : (runBit run).getLsbD k = (decide (k = 0) && run) := by
  cases run <;> simp [runBit, BitVec.getLsbD_one]

theorem Mode.bit_getLsbD (mode : Mode) (k : Nat) :
    mode.bit.getLsbD k = (decide (k = 0) && decide (mode = .frantic)) := by
  cases mode <;> simp [Mode.bit, BitVec.getLsbD_one]

/-- The status data, bit by bit: the flags from bit 8 on, `MODE` in bit 1 and `RUN` in bit 0. -/
theorem statusData_getLsbD (run : Bool) (mode : Mode) (e : BitVec 3) (k : Nat) :
    (statusData run mode e).getLsbD k =
      (decide (8 ≤ k) && e.getLsbD (k - 8) || decide (k = 1) && decide (mode = .frantic) || decide (k = 0) && run) := by
  simp only [statusData, BitVec.getLsbD_or, BitVec.getLsbD_shiftLeft, BitVec.getLsbD_setWidth, Mode.bit_getLsbD,
    runBit_getLsbD]
  by_cases hk : k < 11
  · interval_cases k <;> simp
  · simp [BitVec.getLsbD_of_ge e (k - 8) (by omega), show k ≠ 1 by omega, show k - 1 ≠ 0 by omega]

/-- Settles O18: the answer is the status data, and a bit of it is at most one of the three sources. -/
theorem rdstatusReportsTheFlags : Obligations.RdstatusReportsTheFlags := by
  intro s h0
  refine ⟨_, exec_rdstatus h0, ?_⟩
  simp only [responseWord_ok_getLsbD, statusData_getLsbD]
  refine ⟨by simp, by simp, by simp, by simp, by simp, fun k h0 h1 h8 h9 h10 => ?_⟩
  have hflags : (decide (8 ≤ k) && s.errFlags.getLsbD (k - 8)) = false := by
    by_cases hk : 8 ≤ k
    · rw [BitVec.getLsbD_of_ge _ _ (by omega), Bool.and_false]
    · rw [decide_eq_false hk, Bool.false_and]
  simp [hflags, h0, h1]

/-! ## PRESENT (R147) -/

section Present

variable {s : State}

theorem exec_present_changed (hrun : s.run = true) (hc : s.changed = true) :
    exec .present s = .next { s with out := s.out ++ [image s.cfg s.mem], changed := false, slot := 0 } := by
  change execPresent s = _
  rw [execPresent, sequencerSlot_runs hrun, if_pos hc]

theorem exec_present_unchanged (hrun : s.run = true) (hc : s.changed = false) :
    exec .present s = .next { s with slot := 0 } := by
  change execPresent s = _
  rw [execPresent, sequencerSlot_runs hrun, if_neg (by simp [hc])]

end Present

/-- Settles O31: the event is the image, which has every byte of the framebuffer at its address. -/
theorem presentCompletes : Obligations.PresentCompletes := fun s hrun =>
  ⟨fun hc => ⟨image s.cfg s.mem, image_length .., fun _ => image_getElem?, exec_present_changed hrun hc⟩,
    exec_present_unchanged hrun⟩

/-! ## Who acts (R142, R143) -/

section Turns

variable {s : State} {c : CommandWord} {i : Instr}

theorem nextTurn_cons {turn : Turn} {turns : List Turn} (h : s.schedule = turn :: turns) : s.nextTurn = turn := by
  rw [State.nextTurn, h]

/-- With nothing scheduled a free value gives the turn to one of the two agents, never to the reset input. -/
theorem nextTurn_nil (h : s.schedule = []) : s.nextTurn = .host ∨ s.nextTurn = .sequencer := by
  rw [State.nextTurn, h]
  dsimp only
  split
  · exact .inl rfl
  · exact .inr rfl

theorem step_host (hturn : s.nextTurn = .host) (hready : s.hostReady = some c) :
    step s = hostStep c s.passTurn.acceptCommand := by
  simp only [step, State.agent, hturn, hready]

theorem step_sequencer (hturn : s.nextTurn = .sequencer) (hrun : s.run = true) :
    step s = sequencerStep s.passTurn.sampleInputs := by
  simp only [step, State.agent, hturn, hrun, if_true]

theorem hostReady_cons {rest : List CommandWord} (h0 : s.slot = 0) (hc : s.commands = c :: rest) :
    s.hostReady = some c := hostReady_iff.mpr ⟨h0, by rw [hc, List.head?_cons]⟩

theorem hostReady_inside (h : s.slot ≠ 0) : s.hostReady = none := if_neg h

theorem hostStep_decoded (h : decodeCommand c = .ok i) : hostStep c s = exec i s := by
  rw [hostStep, h]

/-- A step of the sequencer executes what the descriptor at `SLOT` decodes to (R141). -/
theorem sequencerStep_decoded (h : s.cfg.seq[s.slot]?.map decodeSlot = some (.ok i)) : sequencerStep s = exec i s := by
  obtain ⟨d, hd, hi⟩ := Option.map_eq_some_iff.mp h
  simp only [sequencerStep, hd, hi]

end Turns

/-- Settles O42: the host has the turn and its command is ready, so the host step runs on the state after acceptance. -/
theorem stepRunsTheAcceptedCommand : Obligations.StepRunsTheAcceptedCommand := by
  intro s c rest turns i h0 hc hturns hi
  rw [step_host (nextTurn_cons hturns) (hostReady_cons h0 hc), hostStep_decoded hi]
  simp only [State.acceptCommand, State.passTurn, hc, hturns, List.tail_cons]

/-- Settles O43: the sequencer has the turn and runs, so the slot's operation runs on the inputs at the head of the
supply. -/
theorem stepRunsTheNamedSlot : Obligations.StepRunsTheNamedSlot := by
  intro s d i inp rest turns hrun hturns hinputs hd hi
  rw [step_sequencer (nextTurn_cons hturns) hrun, sequencerStep_decoded (i := i) (by simp [hd, hi]),
    State.sampleInputs_cons (s := s.passTurn) hinputs]
  simp only [State.passTurn, hturns, List.tail_cons, Config.tickSpan]

/-- Settles O44: both steps are enabled, so the turn alone decides, and an empty schedule gives it to either. -/
theorem eitherAgentMayGoFirst : Obligations.EitherAgentMayGoFirst := by
  intro s c rest h0 hrun hc
  have hhost (hturn : s.nextTurn = .host) :
      step s = hostStep c { s with commands := rest, schedule := s.schedule.tail, turn := s.turn + 1 } := by
    rw [step_host hturn (hostReady_cons h0 hc), State.acceptCommand, State.passTurn_commands, hc]
    rfl
  have hseq (hturn : s.nextTurn = .sequencer) :
      step s = sequencerStep { s with schedule := s.schedule.tail, turn := s.turn + 1 }.sampleInputs :=
    step_sequencer hturn hrun
  refine ⟨fun turns hturns => ?host, fun turns hturns => ?sequencer, fun hnil => ?free⟩
  case host => rw [hhost (nextTurn_cons hturns), hturns, List.tail_cons]
  case sequencer => rw [hseq (nextTurn_cons hturns), hturns, List.tail_cons]
  case free =>
    have htail : s.schedule.tail = s.schedule := by rw [hnil, List.tail_nil]
    rw [htail] at hhost hseq
    exact (nextTurn_nil hnil).imp hhost hseq

/-- Settles O46: with no command at the port and the sequencer held, no agent is left to act. -/
theorem blockWaitsWhenNothingIsEnabled : Obligations.BlockWaitsWhenNothingIsEnabled := by
  intro s hheld hempty hreset
  have hagent : s.agent = .idle := by
    obtain ⟨t0, hturn, -⟩ | ⟨-, ⟨-, -, hidle⟩ | ⟨c, hready, -⟩ | ⟨hrun, -⟩⟩ := agent_cases s
    · exact absurd hturn (hreset t0)
    · exact hidle
    · simp [hostReady_iff, hempty] at hready
    · simp [hheld] at hrun
  rw [step, hagent]
  rfl

/-! ## What the sequencer leaves to the host (R143; 20_memory.md R46) -/

/-- From `s` to `t` the configuration is the same and the host has had no effect: its port, the responses, the error
flags and `RUN` stand as they did. -/
structure HostUnfelt (s t : State) : Prop where
  run : t.run = s.run
  cfg : t.cfg = s.cfg
  commands : t.commands = s.commands
  responses : t.responses = s.responses
  errFlags : t.errFlags = s.errFlags

theorem HostUnfelt.trans {s t u : State} (h : HostUnfelt s t) (h' : HostUnfelt t u) : HostUnfelt s u where
  run := h'.run.trans h.run
  cfg := h'.cfg.trans h.cfg
  commands := h'.commands.trans h.commands
  responses := h'.responses.trans h.responses
  errFlags := h'.errFlags.trans h.errFlags

theorem hostUnfelt_sampled (s : State) : HostUnfelt s s.passTurn.sampleInputs := by
  constructor <;> simp

theorem exec_slot_hostUnfelt {i : Instr} {s t : State} (hi : i.isHostCommand = false) (h : exec i s = .next t) :
    HostUnfelt s t := by
  have he := exec_effect h
  obtain ⟨hcfg, hcommands, -⟩ := he.cfg_ports_eq
  obtain ⟨hflags, hresponses⟩ := he.errFlags_responses_eq hi
  have hrun : t.run = s.run := he.run_eq (by rintro rfl; cases hi) (by rintro rfl; cases hi)
  exact ⟨hrun, hcfg, hcommands, hresponses, hflags⟩

/-- Settles O45: inside a cycle no command is ready, so a step waits or executes a slot. -/
theorem noHostEffectInsideACycle : Obligations.NoHostEffectInsideACycle := by
  intro s t hslot hreset h
  obtain ⟨t0, hturn, -⟩ | ⟨-, ⟨-, -, rfl⟩ | ⟨c, hready, -⟩ | ⟨d, i, -, -, hi, h⟩⟩ := step_cases h
  · exact absurd hturn (hreset t0)
  · exact ⟨rfl, rfl, rfl, rfl⟩
  · simp [hostReady_inside hslot] at hready
  · obtain ⟨hrun, -, hcommands, hresponses, hflags⟩ :=
      (hostUnfelt_sampled s).trans (exec_slot_hostUnfelt (decodeSlot_not_host hi) h)
    exact ⟨hcommands, hresponses, hflags, hrun⟩

/-! ## Draws within the contract (00_scope.md R15) -/

theorem delaySet_ne_nil {cfg : Config} (hwf : cfg.wellFormed = true) (mode : Mode) : delaySet cfg mode ≠ [] := by
  have hnumbers := Config.wellFormed_numbers hwf
  cases mode with
  | relaxed => exact hnumbers.slow_ne
  | frantic => exact hnumbers.fast_ne

/-- A draw made of free values lies within the contract. -/
theorem freeDraw_legal {cfg : Config} (hwf : cfg.wellFormed = true) (mode : Mode) (k : Nat) :
    (freeDraw cfg mode k).legal cfg mode = true := by
  refine Draw.legal_iff.mpr ⟨resetDelayLegal_iff.mpr ?delay,
    Nat.mod_lt _ (List.length_pos_iff.mpr (delaySet_ne_nil hwf mode))⟩
  have hmod := Nat.mod_lt (Config.freeDelay k) (show 0 < 60 * cfg.tps - 20 * cfg.tps + 1 by omega)
  simp only [freeDraw, Config.decayResetMin, Config.decayResetMax]
  omega

/-- The draw a sequencer step takes lies within the contract where the one supplied for it does. -/
theorem sampleInputs_draw_legal {s : State} (hwf : s.cfg.wellFormed = true) (h : s.nextInputLegal = true) :
    s.sampleInputs.draw.legal s.cfg s.mode = true := by
  cases hs : s.seqInputs with
  | nil => rw [State.sampleInputs_nil hs]; exact freeDraw_legal hwf s.mode s.turn
  | cons inp rest =>
    rw [State.nextInputLegal, hs] at h
    rw [State.sampleInputs_cons hs]
    exact h

/-! ## Animator slots of a running cycle (R140, R141) -/

/-- Every animator's body gives a result on a draw within the contract. -/
theorem exec_animator_body {i : Instr} {region : Nat} {s : State} (hi : animatorRegion i = some region)
    (hdraw : s.draw.legal s.cfg s.mode = true) :
    ∃ body, exec i s = pollAnimator s region body ∧ ∀ g a, ∃ b, body g a = .ok b := by
  obtain ⟨hdelay, hidx⟩ := Draw.legal_iff.mp hdraw
  cases i with
  | pollPattern r seed shift period =>
    cases hi; exact ⟨_, rfl, fun g a => ⟨_, patternBody_eq s seed shift period g a⟩⟩
  | pollClock r period => cases hi; exact ⟨clockBody s period, rfl, fun g a => ⟨_, rfl⟩⟩
  | pollDecay r period =>
    cases hi
    refine ⟨_, rfl, fun g a => ?_⟩
    rw [decayBody, if_pos hdelay]
    split <;> exact ⟨_, rfl⟩
  | pollLife r period => cases hi; exact ⟨lifeBody s period, rfl, fun g a => ⟨_, rfl⟩⟩
  | pollNoise r =>
    cases hi; exact ⟨_, rfl, fun g a => ⟨_, noiseBody_of_delay g a (List.getElem?_eq_getElem hidx)⟩⟩
  | _ => cases hi

/-- From `s` to `t` the sequencer has gone on to the next slot, in the same mode and with no event; unless it has
reported a change it has made none. -/
structure GoesOn (s t : State) : Prop where
  slot : t.slot = s.slot + 1
  mode : t.mode = s.mode
  out : t.out = s.out
  schedule : t.schedule = s.schedule
  seqInputs : t.seqInputs = s.seqInputs
  unchanged : t.changed = false → s.changed = false ∧ t.mem = s.mem ∧ t.animators = s.animators

theorem advanceSlot_goesOn (s : State) : GoesOn s s.advanceSlot := ⟨rfl, rfl, rfl, rfl, rfl, fun h => ⟨h, rfl, rfl⟩⟩

theorem finishBody_goesOn (s : State) (b : BodyResult) : GoesOn s (s.finishBody b) := ⟨rfl, rfl, rfl, rfl, rfl, nofun⟩

/-- A ready animator slot answers on a draw within the contract, and the sequencer goes on: the deadline is not due, or
the body has run. -/
theorem exec_animator_goesOn {i : Instr} {s : State} {region : Nat} {g : Region} {a : Animator}
    (hi : animatorRegion i = some region) (hready : SlotReady s region g a)
    (hdraw : s.draw.legal s.cfg s.mode = true) :
    ∃ t, exec i s = .next t ∧ GoesOn s t := by
  obtain ⟨body, hexec, hbody⟩ := exec_animator_body hi hdraw
  obtain ⟨b, hb⟩ := hbody g a
  rw [hexec, pollAnimator_ready hready, hb]
  split
  · exact ⟨_, rfl, finishBody_goesOn s b⟩
  · exact ⟨_, rfl, advanceSlot_goesOn s⟩

/-- The region a well-formed animator draws in is registered. -/
theorem region_registered {cfg : Config} {i : Instr} {region : Nat} (hi : animatorRegion i = some region)
    (hwf : i.wellFormed cfg = true) : ∃ g, cfg.regions[region]? = some g := by
  have hreg (h : region < cfg.nreg) : ∃ g, cfg.regions[region]? = some g := ⟨_, List.getElem?_eq_getElem h⟩
  cases i with
  | pollPattern r seed shift period =>
    cases hi
    simp only [Instr.wellFormed] at hwf
    split at hwf
    · cases hwf
    · exact ⟨_, ‹_›⟩
  | pollClock r period | pollDecay r period | pollLife r period =>
    cases hi
    simp only [Instr.wellFormed, Bool.and_eq_true, decide_eq_true_eq] at hwf
    exact hreg hwf.1
  | pollNoise r => cases hi; exact hreg (of_decide_eq_true hwf)
  | _ => cases hi

/-- Between the first slot and the last a running block has a ready animator at `SLOT`
(70_reset_and_hazards.md R178). -/
theorem State.Inv.slot_ready {s : State} (hs : s.Inv) (hrun : s.run = true) (hpos : 1 ≤ s.slot)
    (hlt : s.slot < s.cfg.nslot - 1) :
    ∃ i region g a, s.cfg.seq[s.slot]?.map decodeSlot = some (.ok i) ∧ animatorRegion i = some region ∧
      SlotReady s region g a := by
  have hd := List.getElem?_eq_getElem hs.slot_lt
  obtain ⟨i, hi, hanim, hiwf⟩ := Config.wellFormed_animator hs.cfg_wf hpos hlt hd
  obtain ⟨region, hregion⟩ := isAnimator_region hanim
  obtain ⟨g, hg⟩ := region_registered hregion hiwf
  obtain ⟨-, -, hin⟩ := Config.wellFormed_region hs.cfg_wf hg
  have ha : s.slot - 1 < s.animators.length := by rw [hs.animators_length, Config.nanim]; omega
  exact ⟨i, region, g, _, by rw [hd, Option.map_some, hi], hregion, hrun, hg, hin, hpos, List.getElem?_eq_getElem ha⟩

/-! ## The check of slot 0 (44_mode_controller.md R131) -/

/-- The state once slot 0 has looked at the mode, before `SLOT` moves on. -/
def State.checked (s : State) : State := if due s.cfg s.now s.modeDue then modeCheck s else s

theorem State.checked_frame (s : State) :
    s.checked = { s with mode := s.checked.mode, modeDue := s.checked.modeDue } := by
  unfold State.checked
  split
  · exact modeCheck_frame s
  · rfl

@[simp] theorem State.checked_mem (s : State) : s.checked.mem = s.mem := by rw [s.checked_frame]
@[simp] theorem State.checked_slot (s : State) : s.checked.slot = s.slot := by rw [s.checked_frame]
@[simp] theorem State.checked_animators (s : State) : s.checked.animators = s.animators := by rw [s.checked_frame]
@[simp] theorem State.checked_out (s : State) : s.checked.out = s.out := by rw [s.checked_frame]
@[simp] theorem State.checked_schedule (s : State) : s.checked.schedule = s.schedule := by rw [s.checked_frame]
@[simp] theorem State.checked_seqInputs (s : State) : s.checked.seqInputs = s.seqInputs := by rw [s.checked_frame]

theorem exec_pollMode {s : State} (hrun : s.run = true) : exec .pollMode s = .next s.checked.advanceSlot := by
  unfold State.checked
  split
  case isTrue hdue => exact exec_pollMode_due hrun hdue
  case isFalse hnot => exact exec_pollMode_not_due hrun (Bool.eq_false_of_not_eq_true hnot)

/-- The mode of a cycle is the one the check leaves on the inputs of its first step. -/
theorem State.cycleMode_eq (s : State) : s.cycleMode = s.passTurn.sampleInputs.checked.mode :=
  (apply_ite State.mode ..).symm

/-! ## A cycle (R140, R141, R145) -/

/-- Inside the cycle that began in `s`, with `n` steps to go: the host is unfelt and no event is out, the mode is as the
check left it, the rest of the turns and of the draws is the cycle's own, and while no animator has reported a change
none has made one. -/
structure InCycle (s u : State) (n : Nat) : Prop where
  inv : u.Inv
  run : u.run = true
  slot_pos : 1 ≤ u.slot
  slot_add : u.slot + n = s.cfg.nslot
  unfelt : HostUnfelt s u
  out : u.out = s.out
  mode : u.mode = s.cycleMode
  turns : u.schedule.take n = List.replicate n .sequencer
  draws : ∀ inp ∈ u.seqInputs.take n, inp.draw.legal s.cfg s.cycleMode = true
  unchanged : u.changed = false → u.mem = s.mem ∧ u.animators = s.animators

/-- What a whole cycle from `s` has done when it is back at slot 0. -/
structure CycleEnds (s t : State) : Prop where
  slot : t.slot = 0
  changed : t.changed = false
  unfelt : HostUnfelt s t
  out : t.out = s.out ∧ t.mem = s.mem ∧ t.animators = s.animators ∨ t.out = s.out ++ [image t.cfg t.mem]

theorem nextTurn_of_take {s : State} {n : Nat} (h : s.schedule.take (n + 1) = List.replicate (n + 1) .sequencer) :
    s.nextTurn = .sequencer ∧ s.schedule.tail.take n = List.replicate n .sequencer := by
  cases hs : s.schedule with
  | nil => simp [hs] at h
  | cons turn turns =>
    rw [hs, List.take_succ_cons, List.replicate_succ, List.cons.injEq] at h
    obtain ⟨rfl, hrest⟩ := h
    exact ⟨nextTurn_cons hs, hrest⟩

section Cycle

variable {s u : State} {n : Nat}

theorem InCycle.nextInputLegal (h : InCycle s u (n + 1)) : u.nextInputLegal = true := by
  have hdraws := h.draws
  unfold State.nextInputLegal
  split
  · next inp rest hu =>
    rw [h.unfelt.cfg, h.mode]
    exact hdraws inp (by simp [hu])
  · rfl

/-- A slot of the cycle is executed on a draw within the contract, for the mode as it then stands. -/
theorem InCycle.sampled_draw_legal (h : InCycle s u (n + 1)) :
    u.passTurn.sampleInputs.draw.legal u.passTurn.sampleInputs.cfg u.passTurn.sampleInputs.mode = true := by
  simpa using sampleInputs_draw_legal (s := u.passTurn) h.inv.cfg_wf h.nextInputLegal

/-- The slot at `SLOT` is executed, where the turn is the sequencer's. -/
theorem step_slot {i : Instr} {t : State} (hturn : s.nextTurn = .sequencer) (hrun : s.run = true)
    (hi : s.cfg.seq[s.slot]?.map decodeSlot = some (.ok i)) (hexec : exec i s.passTurn.sampleInputs = .next t) :
    step s = .next t := by
  rw [step_sequencer hturn hrun, sequencerStep_decoded (i := i) (by simpa using hi), hexec]

/-- The first step checks the mode and enters the cycle. -/
theorem inCycle_first (hs : s.Inv) (h0 : s.slot = 0) (hrun : s.run = true) (hdraws : s.cycleInputsLegal = true)
    (hturns : s.schedule.take s.cfg.nslot = List.replicate s.cfg.nslot .sequencer) (hn : s.cfg.nslot = n + 2) :
    ∃ u, step s = .next u ∧ InCycle s u (n + 1) := by
  obtain ⟨-, hmode, -⟩ := Config.wellFormed_ends hs.cfg_wf
  rw [hn] at hturns
  obtain ⟨hturn, hrest⟩ := nextTurn_of_take hturns
  have hexec := exec_pollMode (s := s.passTurn.sampleInputs) (by simpa using hrun)
  have hstep := step_slot hturn hrun (h0 ▸ hmode) hexec
  have hunfelt := (hostUnfelt_sampled s).trans (exec_slot_hostUnfelt rfl hexec)
  refine ⟨_, hstep, ?_⟩
  exact
    { inv := stepKeepsInv s _ hs hstep
      run := hunfelt.run.trans hrun
      slot_pos := by simp
      slot_add := by simp [h0]; omega
      unfelt := hunfelt
      out := by simp
      mode := s.cycleMode_eq.symm
      turns := by simpa using hrest
      draws := by
        rw [State.cycleInputsLegal, hn, List.all_eq_true] at hdraws
        simpa [List.tail_take_eq_take_tail] using hdraws
      unchanged := by simp }

/-- An animator slot takes the cycle one slot on. -/
theorem InCycle.goesOn (h : InCycle s u (n + 2)) : ∃ v, step u = .next v ∧ InCycle s v (n + 1) := by
  obtain ⟨hturn, hrest⟩ := nextTurn_of_take h.turns
  have hadd := h.slot_add
  obtain ⟨i, region, g, a, hi, hregion, hready⟩ := State.Inv.slot_ready
    (State.sampleInputs_inv (State.passTurn_inv h.inv)) (by simpa using h.run) (by simpa using h.slot_pos)
    (by simp [h.unfelt.cfg]; omega)
  obtain ⟨v, hexec, hv⟩ := exec_animator_goesOn hregion hready h.sampled_draw_legal
  have hstep := step_slot hturn h.run (by simpa using hi) hexec
  have hunfelt := (hostUnfelt_sampled u).trans (exec_slot_hostUnfelt (isHostCommand_of_animatorRegion hregion) hexec)
  refine ⟨v, hstep, ?_⟩
  exact
    { inv := stepKeepsInv u v h.inv hstep
      run := hunfelt.run.trans h.run
      slot_pos := by simp [hv.slot]
      slot_add := by simp [hv.slot]; omega
      unfelt := h.unfelt.trans hunfelt
      out := by simp [hv.out, h.out]
      mode := by simp [hv.mode, h.mode]
      turns := by simpa [hv.schedule] using hrest
      draws := fun inp hinp => h.draws inp (List.mem_of_mem_tail (by
        rw [List.tail_take_eq_take_tail]
        simpa [hv.seqInputs] using hinp))
      unchanged := fun hc => by
        obtain ⟨hold, hmem, hanimators⟩ := hv.unchanged hc
        simpa [hmem, hanimators] using h.unchanged (by simpa using hold) }

/-- The last step presents, and the cycle ends. -/
theorem InCycle.ends (h : InCycle s u 1) : ∃ t, step u = .next t ∧ CycleEnds s t := by
  obtain ⟨hturn, -⟩ := nextTurn_of_take h.turns
  obtain ⟨-, -, hlast⟩ := Config.wellFormed_ends h.inv.cfg_wf
  have hslot : u.cfg.nslot - 1 = u.slot := by rw [h.unfelt.cfg, ← h.slot_add, Nat.add_sub_cancel]
  rw [hslot] at hlast
  have hrun : u.passTurn.sampleInputs.run = true := by simpa using h.run
  have hunfelt {t : State} (hexec : exec .present u.passTurn.sampleInputs = .next t) : HostUnfelt s t :=
    (h.unfelt.trans (hostUnfelt_sampled u)).trans (exec_slot_hostUnfelt rfl hexec)
  cases hc : u.changed with
  | true =>
    have hexec := exec_present_changed hrun (by simpa using hc)
    exact ⟨_, step_slot hturn h.run hlast hexec, rfl, rfl, hunfelt hexec, .inr (by simp [h.out])⟩
  | false =>
    have hexec := exec_present_unchanged hrun (by simpa using hc)
    obtain ⟨hmem, hanimators⟩ := h.unchanged hc
    exact ⟨_, step_slot hturn h.run hlast hexec, rfl, by simpa using hc, hunfelt hexec,
      .inl (by simp [h.out, hmem, hanimators])⟩

theorem InCycle.runs (h : InCycle s u (n + 1)) :
    ∃ t : State, Host.Core.run Sys2Proof.core (n + 1) u = .next t ∧ CycleEnds s t := by
  induction n generalizing u with
  | zero =>
    obtain ⟨t, hstep, hends⟩ := h.ends
    exact ⟨t, run_succ hstep, hends⟩
  | succ n ih =>
    obtain ⟨v, hstep, hv⟩ := h.goesOn
    obtain ⟨t, hrun, hends⟩ := ih hv
    exact ⟨t, (run_succ hstep).trans hrun, hends⟩

end Cycle

/-- Settles O57: the check enters the cycle, each animator slot takes it one slot on, and PRESENT ends it. -/
theorem cycleRunsToItsPresent : Obligations.CycleRunsToItsPresent := by
  intro s hs h0 hrun hdraws hturns
  obtain ⟨htwo, -⟩ := Config.wellFormed_ends hs.cfg_wf
  obtain ⟨n, hn⟩ := Nat.exists_eq_add_of_le' htwo
  obtain ⟨u, hstep, hu⟩ := inCycle_first hs h0 hrun hdraws hturns hn
  obtain ⟨t, hrest, hends⟩ := hu.runs
  obtain ⟨hkrun, hcfg, hcommands, hresponses, hflags⟩ := hends.unfelt
  exact ⟨t, hn ▸ (run_succ hstep).trans hrest, hends.slot, hkrun.trans hrun, hends.changed, hcfg, hcommands,
    hresponses, hflags, hends.out⟩

end Sys2Proof.Machine
end

section
/-! PROOFS. The statements of 60_exceptions.md: the ways a host command ends between cycles, which of them each of the
eight commands can take, and the host step on a word that is no command. -/

namespace Sys2Proof.Machine

/-! ## How a host command ends (R155 to R157) -/

/-- How a host command that takes effect ends: with one response of success and the error flags as they were, or
rejected as a whole, with an error a legal word can raise. -/
inductive HostAnswer (s : State) : State → Prop where
  | completes {t : State} (data : BitVec 32) (hflags : t.errFlags = s.errFlags)
      (hresponses : t.responses = s.responses ++ [responseWord statusOk data]) : HostAnswer s t
  | outOfBounds : HostAnswer s (s.reject .outOfBounds)
  | unknownRegion : HostAnswer s (s.reject .unknownRegion)

section Commands

variable {s : State}

theorem exec_setpixel_answer {x y : BitVec 8} {bit : Bool} (h0 : s.slot = 0) :
    ∃ t, exec (.setpixel x y bit) s = .next t ∧ HostAnswer s t := by
  by_cases hin : s.cfg.pixelInside x.toNat y.toNat = true
  · exact ⟨_, exec_setpixel_inside h0 hin, .completes _ rfl rfl⟩
  · exact ⟨_, exec_setpixel_outside h0 hin, .outOfBounds⟩

theorem exec_getpixel_answer {x y : BitVec 8} (h0 : s.slot = 0) :
    ∃ t, exec (.getpixel x y) s = .next t ∧ HostAnswer s t := by
  by_cases hin : s.cfg.pixelInside x.toNat y.toNat = true
  · exact ⟨_, exec_getpixel_inside h0 hin, .completes _ rfl rfl⟩
  · exact ⟨_, exec_getpixel_outside h0 hin, .outOfBounds⟩

theorem exec_shiftregion_answer {x y w h : BitVec 8} {shift : BitVec 16} {wrap : Bool} (h0 : s.slot = 0) :
    ∃ t, exec (.shiftregion x y w h shift wrap) s = .next t ∧ HostAnswer s t := by
  by_cases hin : s.cfg.windowInside x.toNat y.toNat w.toNat h.toNat = true
  · exact ⟨_, exec_shiftregion_inside h0 hin, .completes _ rfl rfl⟩
  · exact ⟨_, exec_shiftregion_outside h0 hin, .outOfBounds⟩

theorem exec_regionof_answer {id : BitVec 8} (h0 : s.slot = 0) :
    ∃ t, exec (.regionof id) s = .next t ∧ HostAnswer s t := by
  cases hg : s.cfg.regions[id.toNat]? with
  | some g => exact ⟨_, exec_regionof_registered h0 hg, .completes _ rfl rfl⟩
  | none => exact ⟨_, exec_regionof_unregistered h0 (List.getElem?_eq_none_iff.mp hg), .unknownRegion⟩

/-- Between cycles every host command is executed and ends in one of the ways. -/
theorem exec_hostAnswer {i : Instr} (hi : i.isHostCommand = true) (h0 : s.slot = 0) :
    ∃ t, exec i s = .next t ∧ HostAnswer s t := by
  cases i with
  | nop => exact ⟨_, exec_nop h0, .completes _ rfl rfl⟩
  | setpixel x y bit => exact exec_setpixel_answer h0
  | getpixel x y => exact exec_getpixel_answer h0
  | shiftregion x y w h shift wrap => exact exec_shiftregion_answer h0
  | regionof id => exact exec_regionof_answer h0
  | run => exact ⟨_, exec_run h0, .completes _ rfl rfl⟩
  | halt => exact ⟨_, exec_halt h0, .completes _ rfl rfl⟩
  | rdstatus => exact ⟨_, exec_rdstatus h0, .completes _ rfl rfl⟩
  | pollMode | pollPattern | pollClock | pollDecay | pollLife | pollNoise | present => cases hi

end Commands

/-- Settles O19: a response of success leaves the flags, and each of the two rejections is its flag and its code. -/
theorem oneResponseAndCleanRejection : Obligations.OneResponseAndCleanRejection := by
  intro i s hi h0
  obtain ⟨t, hexec, hanswer⟩ := exec_hostAnswer hi h0
  cases hanswer with
  | completes data hflags hresponses =>
    exact ⟨t, statusOk, data, hexec, hresponses, fun _ => hflags, fun herror => absurd rfl herror⟩
  | outOfBounds =>
    exact ⟨_, ErrorKind.outOfBounds.code, 0#32, hexec, rfl, nofun, fun _ => ⟨rfl, .inl ⟨rfl, rfl⟩, rfl⟩⟩
  | unknownRegion =>
    exact ⟨_, ErrorKind.unknownRegion.code, 0#32, hexec, rfl, nofun, fun _ => ⟨rfl, .inr ⟨rfl, rfl⟩, rfl⟩⟩

/-! ## Words that are no command (R158, R159) -/

theorem hostStep_illegal {c : CommandWord} {s : State} (h : ∀ i, decodeCommand c ≠ .ok i) :
    hostStep c s = .next (s.reject .illegalCommand) := by
  cases hc : decodeCommand c with
  | ok i => exact absurd hc (h i)
  | error e => rw [hostStep, hc]

theorem State.reject_illegalCommand (s : State) :
    s.reject .illegalCommand =
      { s with errFlags := s.errFlags ||| 0b100#3, responses := s.responses ++ [0x0300000000000000#64] } := rfl

/-- Settles O20: the host has the turn and its word is ready, so the state after acceptance is rejected. -/
theorem illegalWordIsRejected : Obligations.IllegalWordIsRejected := by
  intro s c rest turns h0 hc hturns hillegal
  rw [step_host (nextTurn_cons hturns) (hostReady_cons h0 hc), hostStep_illegal hillegal, State.reject_illegalCommand]
  simp only [State.acceptCommand, State.passTurn, hc, hturns, List.tail_cons]

end Sys2Proof.Machine
end

section
/-! PROOFS. The statements of 70_reset_and_hazards.md: the step of the reset input, and each of the three construction
checks as a proposition. -/

namespace Sys2Proof.Machine

/-! ## The reset input (R170, R171) -/

theorem step_reset {s : State} {t0 : Tick} (hturn : s.nextTurn = .reset t0) :
    step s = .next (s.passTurn.applyReset t0) := by
  simp only [step, State.agent, hturn]

/-- Settles O47: the scheduled reset input acts whatever else is enabled, and `applyReset` sets each element. -/
theorem resetInputResetsTheBlock : Obligations.ResetInputResetsTheBlock := by
  intro s t0 turns hturns
  refine ⟨_, step_reset (nextTurn_cons hturns), rfl, fun _ => rfl, rfl, rfl, rfl, rfl, rfl, rfl, rfl, ?count, ?fresh⟩
  case count => rw [State.applyReset_animators, List.length_replicate, State.passTurn_cfg]
  case fresh =>
    intro a ha
    rw [List.eq_of_mem_replicate ha]
    exact ⟨rfl, rfl, rfl, rfl, rfl⟩

end Sys2Proof.Machine

namespace Sys2Proof

section Checks

variable {cfg : Config}

/-! ## Check 1, geometry (R176) -/

theorem Region.wellFormed_iff {g : Region} :
    g.wellFormed cfg = true ↔ 1 ≤ g.w ∧ 1 ≤ g.h ∧ g.x + g.w ≤ cfg.width ∧ g.y + g.h ≤ cfg.height := by
  simp only [Region.wellFormed, Config.windowInside, Bool.and_eq_true, decide_eq_true_eq, and_assoc]

theorem Config.geometryOk_iff :
    cfg.geometryOk = true ↔
      1 ≤ cfg.width ∧ cfg.width ≤ 255 ∧ 1 ≤ cfg.height ∧ cfg.height ≤ 255 ∧ cfg.regions.length ≤ 256 ∧
        ∀ g ∈ cfg.regions, 1 ≤ g.w ∧ 1 ≤ g.h ∧ g.x + g.w ≤ cfg.width ∧ g.y + g.h ≤ cfg.height := by
  simp only [Config.geometryOk, Bool.and_eq_true, decide_eq_true_eq, List.all_eq_true, Region.wellFormed_iff, and_assoc]
  rfl

/-! ## Check 2, numbers (R177) -/

/-- The intervals of the configuration that stand outside the slot program. -/
def Config.IsInterval (cfg : Config) (d : Nat) : Prop :=
  d = cfg.relaxRunTime ∨ d = cfg.fastRunTime ∨ d = 60 * cfg.tps ∨ d ∈ cfg.slowDelays ∨ d ∈ cfg.fastDelays

/-- The number check with its intervals gathered. -/
theorem Config.numbers_iff_intervals :
    cfg.Numbers ↔
      2 ≤ cfg.tickBits ∧ 1 ≤ cfg.tps ∧ 1 ≤ cfg.uBits ∧ cfg.fastChanceN ≤ 2 ^ cfg.uBits ∧
        cfg.slowDelays ≠ [] ∧ cfg.fastDelays ≠ [] ∧ 60 * cfg.tps < 2 ^ (cfg.tickBits - 1) - 1 ∧
        ∀ d, cfg.IsInterval d → 1 ≤ d ∧ d < 2 ^ (cfg.tickBits - 1) := by
  simp only [← legalInterval_iff]
  constructor
  · intro h
    refine ⟨h.tickBits, h.tps, h.uBits, h.chance, h.slow_ne, h.fast_ne, h.age, ?_⟩
    rintro d (rfl | rfl | rfl | hslow | hfast)
    exacts [h.relax, h.fast, h.reset, h.slow d hslow, h.fasts d hfast]
  · rintro ⟨htick, htps, hu, hchance, hslow, hfast, hage, hlegal⟩
    exact {
      tickBits := htick, tps := htps, uBits := hu, chance := hchance, slow_ne := hslow, fast_ne := hfast, age := hage
      relax := hlegal _ (.inl rfl)
      fast := hlegal _ (.inr (.inl rfl))
      reset := hlegal _ (.inr (.inr (.inl rfl)))
      slow := fun d hd => hlegal d (.inr (.inr (.inr (.inl hd))))
      fasts := fun d hd => hlegal d (.inr (.inr (.inr (.inr hd)))) }

/-! ## Check 3, the slot program (R178) -/

/-- The descriptor is an animator's and its record fields are legal on the region `g` (R177, R178). -/
def SlotDesc.LegalOn (cfg : Config) (d : SlotDesc) (g : Region) : Prop :=
  d.kind = 0x01#8 ∧ d.seed.length = g.h ∧ (∀ v ∈ d.seed, v < 2 ^ g.w) ∧
      1 ≤ d.period ∧ d.period < 2 ^ (cfg.tickBits - 1) ∨
    (d.kind = 0x02#8 ∨ d.kind = 0x03#8 ∨ d.kind = 0x04#8) ∧ 1 ≤ d.period ∧ d.period < 2 ^ (cfg.tickBits - 1) ∨
    d.kind = 0x05#8

theorem lt_nreg_iff {n : Nat} : n < cfg.nreg ↔ ∃ g, cfg.regions[n]? = some g := by
  rw [← Option.isSome_iff_exists, isSome_getElem?]
  rfl

theorem pollPattern_wellFormed_iff {region period : Nat} {seed : List Nat} {shift : Int} :
    (Instr.pollPattern region seed shift period).wellFormed cfg = true ↔
      ∃ g, cfg.regions[region]? = some g ∧ seed.length = g.h ∧ (∀ v ∈ seed, v < 2 ^ g.w) ∧
        1 ≤ period ∧ period < 2 ^ (cfg.tickBits - 1) := by
  cases hg : cfg.regions[region]? with
  | none => simp [Instr.wellFormed, hg]
  | some g => simp [Instr.wellFormed, hg, legalInterval_iff, and_assoc]

/-- The record fields of CLOCK, DECAY and LIFE are checked alike. -/
theorem registered_and_legalInterval_iff {region period : Nat} :
    (decide (region < cfg.nreg) && cfg.legalInterval period) = true ↔
      ∃ g, cfg.regions[region]? = some g ∧ 1 ≤ period ∧ period < 2 ^ (cfg.tickBits - 1) := by
  rw [Bool.and_eq_true, decide_eq_true_eq, lt_nreg_iff, legalInterval_iff, exists_and_right]

theorem SlotDesc.animatorOk_iff_decodes {d : SlotDesc} :
    d.animatorOk cfg = true ↔ ∃ i, decodeSlot d = .ok i ∧ i.isAnimator = true ∧ i.wellFormed cfg = true := by
  rw [SlotDesc.animatorOk]
  cases hd : decodeSlot d <;> simp

/-- The kind byte tells the kind of the slot, and each kind checks its own record fields. -/
theorem SlotDesc.animatorOk_iff {d : SlotDesc} :
    d.animatorOk cfg = true ↔ ∃ g, cfg.regions[d.region]? = some g ∧ d.LegalOn cfg g := by
  have hdecode := kindByteSelectsSlotOperation d.kind d.region d.seed d.shift d.period
  rw [SlotDesc.animatorOk_iff_decodes]
  constructor
  · rintro ⟨i, hi, hanim, hwf⟩
    have htimed (hkind : d.kind = 0x02#8 ∨ d.kind = 0x03#8 ∨ d.kind = 0x04#8)
        (hwf : (decide (d.region < cfg.nreg) && cfg.legalInterval d.period) = true) :
        ∃ g, cfg.regions[d.region]? = some g ∧ d.LegalOn cfg g :=
      (registered_and_legalInterval_iff.mp hwf).imp fun _ ⟨hg, hperiod⟩ => ⟨hg, .inr (.inl ⟨hkind, hperiod⟩)⟩
    obtain ⟨-, rfl⟩ | ⟨hk, rfl⟩ | ⟨hk, rfl⟩ | ⟨hk, rfl⟩ | ⟨hk, rfl⟩ | ⟨hk, rfl⟩ | ⟨-, rfl⟩ := (hdecode i).mp hi
    · cases hanim
    · exact (pollPattern_wellFormed_iff.mp hwf).imp fun _ ⟨hg, hfields⟩ => ⟨hg, .inl ⟨hk, hfields⟩⟩
    · exact htimed (.inl hk) hwf
    · exact htimed (.inr (.inl hk)) hwf
    · exact htimed (.inr (.inr hk)) hwf
    · exact (lt_nreg_iff.mp (of_decide_eq_true hwf)).imp fun _ hg => ⟨hg, .inr (.inr hk)⟩
    · cases hanim
  · rintro ⟨g, hg, ⟨hk, hfields⟩ | ⟨hk, hperiod⟩ | hk⟩
    · exact ⟨_, (hdecode _).mpr (.inr (.inl ⟨hk, rfl⟩)), rfl, pollPattern_wellFormed_iff.mpr ⟨g, hg, hfields⟩⟩
    · have hwf := registered_and_legalInterval_iff.mpr ⟨g, hg, hperiod⟩
      obtain hk | hk | hk := hk
      · exact ⟨_, (hdecode _).mpr (.inr (.inr (.inl ⟨hk, rfl⟩))), rfl, hwf⟩
      · exact ⟨_, (hdecode _).mpr (.inr (.inr (.inr (.inl ⟨hk, rfl⟩)))), rfl, hwf⟩
      · exact ⟨_, (hdecode _).mpr (.inr (.inr (.inr (.inr (.inl ⟨hk, rfl⟩))))), rfl, hwf⟩
    · exact ⟨_, (hdecode _).mpr (.inr (.inr (.inr (.inr (.inr (.inl ⟨hk, rfl⟩)))))), rfl,
        decide_eq_true (lt_nreg_iff.mpr ⟨g, hg⟩)⟩

theorem decodeSlot_eq_pollMode_iff {d : SlotDesc} : decodeSlot d = .ok .pollMode ↔ d.kind = 0x00#8 := by
  simp [kindByteSelectsSlotOperation d.kind d.region d.seed d.shift d.period .pollMode]

theorem decodeSlot_eq_present_iff {d : SlotDesc} : decodeSlot d = .ok .present ↔ d.kind = 0x0F#8 := by
  simp [kindByteSelectsSlotOperation d.kind d.region d.seed d.shift d.period .present]

/-- The slots that the check takes for animators are those between the first and the last. -/
theorem mem_inner_slots_iff {d : SlotDesc} :
    d ∈ (cfg.seq.drop 1).take cfg.nanim ↔ ∃ k, 1 ≤ k ∧ k < cfg.seq.length - 1 ∧ cfg.seq[k]? = some d := by
  have hinner (j : Nat) : j < cfg.nanim ↔ 1 + j < cfg.seq.length - 1 := by rw [Config.nanim, Config.nslot]; omega
  simp only [List.mem_iff_getElem?, List.getElem?_take, List.getElem?_drop, Option.ite_none_right_eq_some, hinner]
  constructor
  · rintro ⟨j, hlt, hd⟩
    exact ⟨1 + j, Nat.le_add_right 1 j, hlt, hd⟩
  · rintro ⟨k, hpos, hlt, hd⟩
    obtain ⟨j, rfl⟩ := Nat.exists_eq_add_of_le hpos
    exact ⟨j, hlt, hd⟩

theorem Config.slotProgramOk_iff :
    cfg.slotProgramOk = true ↔
      2 ≤ cfg.seq.length ∧
        (∃ d, cfg.seq[0]? = some d ∧ d.kind = 0x00#8) ∧
        (∃ d, cfg.seq[cfg.seq.length - 1]? = some d ∧ d.kind = 0x0F#8) ∧
        ∀ k d, 1 ≤ k → k < cfg.seq.length - 1 → cfg.seq[k]? = some d →
          ∃ g, cfg.regions[d.region]? = some g ∧ d.LegalOn cfg g := by
  simp only [Config.slotProgramOk, Bool.and_eq_true, decide_eq_true_eq, List.all_eq_true, and_assoc,
    Option.map_eq_some_iff, decodeSlot_eq_pollMode_iff, decodeSlot_eq_present_iff, SlotDesc.animatorOk_iff,
    mem_inner_slots_iff, forall_exists_index, and_imp]
  rw [forall_comm]
  rfl

end Checks

end Sys2Proof

namespace Sys2Proof.Machine

/-! ## Construction (R174, R178) -/

theorem construct_wellFormed {cfg : Config} (t0 : Tick) (h : cfg.wellFormed = true) :
    construct cfg t0 = .next (State.resetAt cfg t0) := if_pos h

theorem construct_malformed {cfg : Config} (t0 : Tick) (h : cfg.wellFormed ≠ true) :
    construct cfg t0 = .refused .malformedConfiguration := if_neg h

theorem construct_eq_next_iff {cfg : Config} {t0 : Tick} :
    construct cfg t0 = .next (State.resetAt cfg t0) ↔ cfg.wellFormed = true :=
  ⟨fun h => by_contra fun hwf => (nomatch (construct_malformed t0 hwf).symm.trans h), construct_wellFormed t0⟩

/-- Settles O52: a block is built when the configuration is well-formed, which is the three checks, each as its own
proposition. -/
theorem constructionChecks : Obligations.ConstructionChecks := by
  intro cfg t0
  refine ⟨?outcomes, ?checks⟩
  case outcomes => exact (em (cfg.wellFormed = true)).imp (construct_wellFormed t0) (construct_malformed t0)
  case checks =>
    rw [construct_eq_next_iff, Config.wellFormed_iff, Config.geometryOk_iff, Config.numbersOk_iff,
      Config.numbers_iff_intervals, Config.slotProgramOk_iff]
    rfl

end Sys2Proof.Machine
end

section
/-! PROOFS. Commands and slots that are not enabled, draws outside the random contract, and that every step of a state
of the invariant answers. -/

namespace Sys2Proof.Machine

/-! ## Commands and slots that are not enabled (R142, R143) -/

/-- Every host command is an effect that waits for `SLOT = 0`. -/
theorem exec_hostCommand {i : Instr} (hi : i.isHostCommand = true) (s : State) :
    ∃ effect, exec i s = hostCommand s effect := by
  cases i with
  | nop | setpixel | getpixel | shiftregion | regionof | run | halt | rdstatus =>
    dsimp only [exec, execNop, execSetpixel, execGetpixel, execShiftregion, execRegionof, execRun, execHalt,
      execRdstatus]
    exact ⟨_, rfl⟩
  | pollMode | pollPattern | pollClock | pollDecay | pollLife | pollNoise | present => cases hi

/-- Every slot operation is an effect that is held while `RUN = 0`. -/
theorem exec_sequencerSlot {i : Instr} (hi : i.isHostCommand = false) (s : State) :
    ∃ effect, exec i s = sequencerSlot s effect := by
  cases i with
  | nop | setpixel | getpixel | shiftregion | regionof | run | halt | rdstatus => cases hi
  | pollMode | pollPattern | pollClock | pollDecay | pollLife | pollNoise | present =>
    dsimp only [exec, execPollMode, execPollPattern, execPollClock, execPollDecay, execPollLife, execPollNoise,
      execPresent, pollAnimator]
    exact ⟨_, rfl⟩

/-- Settles O21: whatever the command's effect, it waits for `SLOT = 0`. -/
theorem hostCommandWaitsInsideACycle : Obligations.HostCommandWaitsInsideACycle := by
  intro i s hi hslot
  obtain ⟨effect, hexec⟩ := exec_hostCommand hi s
  rw [hexec, hostCommand_waits hslot]

/-- Settles O22: whatever the slot's effect, it is held until `RUN = 1`. -/
theorem slotIsHeldWhileNotRunning : Obligations.SlotIsHeldWhileNotRunning := by
  intro i s hi hrun
  obtain ⟨effect, hexec⟩ := exec_sequencerSlot hi s
  rw [hexec, sequencerSlot_holds hrun]

/-! ## Draws outside the contract (93_implementation_defined.md U23, U24) -/

section Refusals

variable {s : State} {region period : Nat} {g : Region} {a : Animator}
  {body : Region → Animator → Except Refusal BodyResult}

/-- A due slot whose body is refused stops with the body's reason. -/
theorem pollAnimator_refuses {r : Refusal} (hready : SlotReady s region g a)
    (hdue : 0 ≤ signedDiff s.cfg s.now a.nextDue) (hbody : body g a = .error r) :
    pollAnimator s region body = .refused r := by
  rw [pollAnimator_ready hready, if_pos (due_iff.mpr hdue), hbody]

theorem decayBody_refuses (hreseed : a.initDone = false ∨ 0 ≤ signedDiff s.cfg s.now a.nextReset)
    (hdelay : s.draw.resetDelay < 20 * s.cfg.tps ∨ 60 * s.cfg.tps < s.draw.resetDelay) :
    decayBody s period g a = .error .drawOutOfRange := by
  have hillegal : ¬resetDelayLegal s.cfg s.draw.resetDelay = true := by rw [resetDelayLegal_iff]; omega
  rw [decayBody, if_pos (decayReseeds_iff.mpr hreseed), if_neg hillegal]

theorem noiseBody_refuses (hidx : (delaySet s.cfg s.mode).length ≤ s.draw.idx) :
    noiseBody s g a = .error .drawOutOfRange := by
  rw [noiseBody, List.getElem?_eq_none hidx]

end Refusals

/-- Settles O30: the body that would use the draw is refused, and with it the due slot; the mode names the delay set
that the index has to lie in. -/
theorem drawOutsideTheContractStops : Obligations.DrawOutsideTheContractStops := by
  intro s region period g a hready hdue
  refine ⟨fun hreseed hdelay => ?decay, fun hmode hidx => ?relaxed, fun hmode hidx => ?frantic⟩
  case decay => exact pollAnimator_refuses hready hdue (decayBody_refuses hreseed hdelay)
  case relaxed => exact pollAnimator_refuses hready hdue (noiseBody_refuses (by rwa [hmode]))
  case frantic => exact pollAnimator_refuses hready hdue (noiseBody_refuses (by rwa [hmode]))

/-! ## Every step answers (R144) -/

section Answering

variable {s : State}

/-- A host step always answers between cycles: a word that is a command ends as one, any other is rejected. -/
theorem hostStep_answers {c : CommandWord} (h0 : s.slot = 0) : Answers (hostStep c s) := by
  cases hc : decodeCommand c with
  | ok i =>
    obtain ⟨t, hexec, -⟩ := exec_hostAnswer (decodeCommand_host hc) h0
    exact ⟨t, (hostStep_decoded hc).trans hexec⟩
  | error e => exact ⟨_, hostStep_illegal (by simp [hc])⟩

theorem exec_present_answers (hrun : s.run = true) : Answers (exec .present s) := by
  cases hc : s.changed with
  | true => exact ⟨_, exec_present_changed hrun hc⟩
  | false => exact ⟨_, exec_present_unchanged hrun hc⟩

/-- The slot program has a slot at `SLOT`, and it answers: the check in slot 0, a ready animator between, PRESENT in the
last (70_reset_and_hazards.md R178). -/
theorem State.Inv.sequencerStep_answers (hs : s.Inv) (hrun : s.run = true)
    (hdraw : s.draw.legal s.cfg s.mode = true) : Answers (sequencerStep s) := by
  obtain ⟨-, hfirst, hlast⟩ := Config.wellFormed_ends hs.cfg_wf
  have hlt := hs.slot_lt
  obtain h0 | ⟨hpos, hinner⟩ | hend : s.slot = 0 ∨ (1 ≤ s.slot ∧ s.slot < s.cfg.nslot - 1) ∨
      s.slot = s.cfg.nslot - 1 := by omega
  · exact ⟨_, (sequencerStep_decoded (h0 ▸ hfirst)).trans (exec_pollMode hrun)⟩
  · obtain ⟨i, region, g, a, hi, hregion, hready⟩ := hs.slot_ready hrun hpos hinner
    obtain ⟨t, hexec, -⟩ := exec_animator_goesOn hregion hready hdraw
    exact ⟨t, (sequencerStep_decoded hi).trans hexec⟩
  · rw [sequencerStep_decoded (hend ▸ hlast)]
    exact exec_present_answers hrun

end Answering

/-- Settles O56: whoever acts, the step answers: a reset and a wait always do, a host step is taken between cycles only,
and a slot runs on inputs of the contract. -/
theorem everyStepAnswers : Obligations.EveryStepAnswers := by
  intro s hs hinput
  have hpass := State.passTurn_inv hs
  unfold step
  obtain ⟨t0, -, hagent⟩ | ⟨-, ⟨-, -, hagent⟩ | ⟨c, hready, hagent⟩ | ⟨hrun, hagent⟩⟩ := agent_cases s <;> rw [hagent]
  · exact ⟨_, rfl⟩
  · exact ⟨_, rfl⟩
  · exact hostStep_answers (hostReady_iff.mp hready).1
  · have hdraw := sampleInputs_draw_legal (s := s.passTurn) hpass.cfg_wf hinput
    exact (State.sampleInputs_inv hpass).sequencerStep_answers (by simpa using hrun) (by simpa using hdraw)

end Sys2Proof.Machine
end
